-- ==== Sys2Proof/Word.lean ====
section
/-! DEFINITION. The word of the block: 32 bits (table T5, XLEN and FMT), and the vectors of words the rules index from 0. -/
namespace Sys2Proof

/-- A command word, an operand register, or a sample in format FMT (IEEE 754 binary32): each is 32 bits wide
(rule R5, table T5; rules R60 and R61). -/
abbrev Word := BitVec 32

/-- The number of one instance of a unit class: the 8-bit field `INST` of a command word (rule R81). -/
abbrev InstNo := BitVec 8

/-- The vector `[f 0, f 1, ..., f (n-1)]` (rule R10: vectors are indexed from 0). -/
def vec {α : Type} (n : Nat) (f : Nat → α) : List α := (List.range n).map f

end Sys2Proof
end

