-- ==== Sys2Proof/Config.lean ====
section
/-! DEFINITION. The parameters of rule R5 (table T5), as plain data fixed for one block, and the free values: constants without
a body for what the spec leaves unspecified (93_implementation_defined.md) and for the processors behind the port (rule R9). -/
namespace Sys2Proof

/-- The place an inner processor is fitted: `SEG(c)` for channel `c` of the segmenter, `OLA(i)` for wrapper `i` (rule R9). -/
inductive Site where
  | seg (c : Nat)
  | ola (i : Nat)
deriving DecidableEq, Repr

/-- The result of one invocation of an inner processor: `Ok(msg)` or `Err(diag)` (rule R9). -/
inductive Reply where
  | ok (msg : Word)
  | err (diag : Word)
deriving DecidableEq, Repr, Inhabited

/-- Which processors are fitted behind the port (rule R9: the port function is an argument of the model, "a claim about the
block quantifies over them or fixes them (as the test fixtures of `95_test_vectors.md` do)").
`platform` is the platform's own, of which nothing is known (`Config.ippOut`, `ippRes`, `ippNext` have no body); the others are
the fixtures that 95_test_vectors.md defines by name. -/
inductive InnerProc where
  /-- unknown processors, one state component per site -/
  | platform
  /-- `F_ID(m)` -/
  | fId (m : Word)
  /-- `F_ADD1` -/
  | fAdd1
  /-- `F_REV100` -/
  | fRev100
  /-- `F_2NEG` -/
  | f2Neg
  /-- `F_NEG(m)` -/
  | fNeg (m : Word)
  /-- `F_SPEC` -/
  | fSpec
  /-- `F_FAIL3` -/
  | fFail3
deriving DecidableEq, Repr

/-- The parameters of one block (rule R5, table T5). No command and no host action changes them. -/
structure Config where
  /-- `HMSIZE`: words of host sample memory -/
  hmsize : Nat
  /-- `NINST`: instances of each of the classes DCT, MDCT, OLA, and the largest channel count of SEG -/
  ninst : Nat
  /-- `BMAX`: the largest `block_size`; the largest DCT length is `2*BMAX` -/
  bmax : Nat
  /-- transform constants `K[L][j]` that this block fixes otherwise than by the default of rule R162: entries `((L, j), value)` -/
  kSet : List ((Nat × Nat) × Word)
  /-- MDCT window entries `WM[B][j]` that this block fixes otherwise than by the default of rule R192: entries
  `((B, j), value)`. Any entries are admitted: how far a block's own rounded window must meet the sum condition that rule R192
  gives over the reals is left open. DESIGN CHOICE, notes/assumptions/22.md. -/
  wmSet : List ((Nat × Nat) × Word)
  /-- the processors behind the port -/
  port : InnerProc
deriving DecidableEq, Repr

/-- The ranges table T5 gives the open capacities: `1 <= HMSIZE <= 2^32`, `1 <= NINST <= 256`, `BMAX >= 1` and
`2*BMAX <= 2^31` (rule R5). Nothing is asked of the constants a block fixes itself (`kSet`, `wmSet`), not the sum condition of
rule R192 either: DESIGN CHOICE, notes/assumptions/22.md. -/
def Config.ok (c : Config) : Bool :=
  decide (1 ≤ c.hmsize) && decide (c.hmsize ≤ 2 ^ 32) && decide (1 ≤ c.ninst) && decide (c.ninst ≤ 256) &&
    decide (1 ≤ c.bmax) && decide (2 * c.bmax ≤ 2 ^ 31)

/-- The parameters `State.reset` takes: the largest capacities table T5 admits, the default constants, the platform's own
inner processors. DESIGN CHOICE, notes/assumptions/1.md. -/
def Config.largest : Config :=
  { hmsize := 2 ^ 32, ninst := 256, bmax := 2 ^ 30, kSet := [], wmSet := [], port := .platform }

/-- What a free sample stands for, so that different unspecified words of one command are different free values. -/
inductive FreeUse where
  /-- a word of the data a DCT, MDCT or OLA command writes to HM, or of the block `ola_process` returns on `Err` -/
  | data
  /-- a word of the scratch range of a DCT command (rule R170, U2) -/
  | scratch
  /-- a word of the row of buffer channel `c` -/
  | row (c : Nat)
  /-- an element of `SEG.OVF[c]` -/
  | ovf (c : Nat)
  /-- `SEG.FILL[c]` after an inner error (U3) -/
  | fill (c : Nat)
  /-- an element of `OLA[i].W` -/
  | window (i : Nat)
  /-- an element of `OLA[i].INBUF` -/
  | inBuf (i : Nat)
  /-- an element of `OLA[i].OUTCARRY` -/
  | outCarry (i : Nat)
  /-- an element of `MDCT[i].DCTBUF` -/
  | dctBuf
  /-- an element of `MDCT[i].IDCTBUF` -/
  | idctBuf
  /-- an element of the vector handed to the inner processor at the block's `k`-th invocation -/
  | portIn (k : Nat)
deriving DecidableEq, Repr

/-- FREE VALUE. The sample word that stands at position `j` of an unspecified vector used for `u` in the command number `tick`
(rules R13, R129, R149, R170; U1, U2, U3 of 93_implementation_defined.md). It has no body: nothing can evaluate it.
notes/assumptions/2.md. -/
opaque Config.freeSample (tick : Nat) (u : FreeUse) (j : Nat) : Word

/-- FREE VALUE. Element `j` of the vector the platform's inner processor at site `x`, in state `st`, returns for the vector `v`
and the handle `env` (rule R9). notes/assumptions/3.md. -/
opaque Config.ippOut (x : Site) (st : Nat) (v : List Word) (env : Word) (j : Nat) : Word

/-- FREE VALUE. The result that invocation returns (rule R9). notes/assumptions/3.md. -/
opaque Config.ippRes (x : Site) (st : Nat) (v : List Word) (env : Word) : Reply

/-- FREE VALUE. The state of that inner processor after that invocation (rule R9). notes/assumptions/3.md. -/
opaque Config.ippNext (x : Site) (st : Nat) (v : List Word) (env : Word) : Nat

end Sys2Proof
end

