-- ==== Sys2Proof/Syntax.lean ====
section
/-! DEFINITION. The twelve commands of the block, one constructor for each row of table T84 (rule R84). Operands that are not in
the command word are in the operand registers (rule R86) and so are no arguments here. -/
namespace Sys2Proof

/-- A command of the block (table T84). `inst` is the field `INST`; `pre` and `post` are the flag bits `w[0]` and `w[1]`
(rules R81 and R85). The flag `INNER` is what tells `segCfgExt` from `segCfgOla`. -/
inductive Instr where
  | sysReset
  | dctCfg (inst : InstNo)
  | dctFwd (inst : InstNo)
  | dctInv (inst : InstNo)
  | mdctCfg (inst : InstNo)
  | mdctFwd (inst : InstNo)
  | mdctInv (inst : InstNo)
  | olaCfg (inst : InstNo) (pre post : Bool)
  | olaProc (inst : InstNo)
  | segCfgExt
  | segCfgOla (pre post : Bool)
  | segProc
deriving DecidableEq, Repr

end Sys2Proof
end

