-- ==== Sys2Proof/WellFormed.lean ====
section
/-! DEFINITION. The one condition on a command that its row of table T84 does not express: `INST < NINST` (rule R83). -/
namespace Sys2Proof

/-- Rule R83: a command of the units DCT, MDCT and OLA selects an instance below `NINST`; the commands of SYS and SEG, whose
`INST` is 0 by their rows' masks, are always well-formed. -/
def Instr.wf (ninst : Nat) : Instr → Bool
  | .sysReset => true
  | .dctCfg i => decide (i.toNat < ninst)
  | .dctFwd i => decide (i.toNat < ninst)
  | .dctInv i => decide (i.toNat < ninst)
  | .mdctCfg i => decide (i.toNat < ninst)
  | .mdctFwd i => decide (i.toNat < ninst)
  | .mdctInv i => decide (i.toNat < ninst)
  | .olaCfg i _ _ => decide (i.toNat < ninst)
  | .olaProc i => decide (i.toNat < ninst)
  | .segCfgExt => true
  | .segCfgOla _ _ => true
  | .segProc => true

end Sys2Proof
end

