-- ==== Sys2Proof/Decode.lean ====
section
/-! DEFINITION. From a command word to a command (rules R80 to R88): table T84 as a list of rows, the decoder read from it, the
check of rule R83, and the encoder written from the format of rule R81. -/
namespace Sys2Proof

/-- Why a word is illegal (rule R87). Every reason raises the same error, `ERR_ILLEGAL_CMD`. -/
inductive Reject where
  /-- the word matches no row of table T84: a reserved unit, an operation the unit does not define, a reserved bit, a flag the
  command does not define, or a nonzero `INST` on SYS or SEG -/
  | noRow
  /-- the word matches a row but names an instance at or above `NINST` (rule R83) -/
  | noInst
deriving DecidableEq, Repr

/-- The field `INST` of a command word: `w[23:16]` (rule R81). -/
def instField (w : Word) : InstNo := w.extractLsb' 16 8

/-- The flag `PRE` of a command word: `w[0]` (rule R81). -/
def preFlag (w : Word) : Bool := w.getLsbD 0

/-- The flag `POST` of a command word: `w[1]` (rule R81). -/
def postFlag (w : Word) : Bool := w.getLsbD 1

/-- A row of table T84: a word `w` encodes the row's command when `(w AND mask) = pattern` (rule R84). -/
structure OpRow where
  mask : Word
  pattern : Word
  read : Word → Instr

/-- Table T84, in its order (rule R84). -/
def opTable : List OpRow := [
  ⟨0xFFFFFFFF#32, 0x01000000#32, fun _ => .sysReset⟩,
  ⟨0xFF00FFFF#32, 0x10000000#32, fun w => .dctCfg (instField w)⟩,
  ⟨0xFF00FFFF#32, 0x11000000#32, fun w => .dctFwd (instField w)⟩,
  ⟨0xFF00FFFF#32, 0x12000000#32, fun w => .dctInv (instField w)⟩,
  ⟨0xFF00FFFF#32, 0x20000000#32, fun w => .mdctCfg (instField w)⟩,
  ⟨0xFF00FFFF#32, 0x21000000#32, fun w => .mdctFwd (instField w)⟩,
  ⟨0xFF00FFFF#32, 0x22000000#32, fun w => .mdctInv (instField w)⟩,
  ⟨0xFF00FFFC#32, 0x30000000#32, fun w => .olaCfg (instField w) (preFlag w) (postFlag w)⟩,
  ⟨0xFF00FFFF#32, 0x31000000#32, fun w => .olaProc (instField w)⟩,
  ⟨0xFFFFFFFF#32, 0x40000000#32, fun _ => .segCfgExt⟩,
  ⟨0xFFFFFFFC#32, 0x40000004#32, fun w => .segCfgOla (preFlag w) (postFlag w)⟩,
  ⟨0xFFFFFFFF#32, 0x41000000#32, fun _ => .segProc⟩]

/-- Whether `w` matches the row `r` (rule R84). -/
def OpRow.accepts (r : OpRow) (w : Word) : Bool := w &&& r.mask == r.pattern

/-- The command that the word `w` stands for by table T84, for any number of instances (rules R84 and R87). -/
def decode (w : Word) : Except Reject Instr :=
  match opTable.find? (fun r => r.accepts w) with
  | some r => .ok (r.read w)
  | none => .error .noRow

/-- The block's classification of a command word, which precedes everything else: table T84, then rule R83 (rule R88). -/
def classify (ninst : Nat) (w : Word) : Except Reject Instr :=
  match decode w with
  | .ok i => if i.wf ninst then .ok i else .error .noInst
  | .error e => .error e

/-- The word of format CW with the given fields: `UNIT` in `w[31:28]`, `OP` in `w[27:24]`, `INST` in `w[23:16]`, zeros in
`w[15:3]`, then `INNER`, `POST`, `PRE` (rule R81). -/
def cw (unit op : BitVec 4) (inst : InstNo) (inner post pre : Bool) : Word :=
  unit ++ op ++ inst ++ (0#13) ++ BitVec.ofBool inner ++ BitVec.ofBool post ++ BitVec.ofBool pre

/-- The command word of a command (rules R81, R82 and the columns UNIT, OP and flags of table T84). -/
def encode : Instr → Word
  | .sysReset => cw 0 1 0 false false false
  | .dctCfg i => cw 1 0 i false false false
  | .dctFwd i => cw 1 1 i false false false
  | .dctInv i => cw 1 2 i false false false
  | .mdctCfg i => cw 2 0 i false false false
  | .mdctFwd i => cw 2 1 i false false false
  | .mdctInv i => cw 2 2 i false false false
  | .olaCfg i pre post => cw 3 0 i false post pre
  | .olaProc i => cw 3 1 i false false false
  | .segCfgExt => cw 4 0 0 false false false
  | .segCfgOla pre post => cw 4 0 0 true post pre
  | .segProc => cw 4 1 0 false false false

/-- The command word made of the low `nbits` bits of `w`, the bits above them 0 (rule R80: every command is one 32-bit word). -/
def tableWord (nbits w : Nat) : Word := BitVec.ofNat 32 (w % 2 ^ nbits)

/-- The command the decoder reads from a word of the opcode table: rule R84 without the check of rule R83, whose bound
`NINST` is a parameter of the block and not of the table. -/
def decodeTableWord (nbits w : Nat) : Option Instr := (decode (tableWord nbits w)).toOption

end Sys2Proof
end

