-- ==== Sys2Proof/Machine/Arith.lean ====
section
/-! DEFINITION. Sample arithmetic (rules R12, R13, R61): the three scalar operations `fadd`, `fsub`, `fmul` of IEEE 754 binary32
with round-to-nearest, ties-to-even and gradual underflow, each computed exactly on integers and rounded once; and the record of
operations through which the transforms are written. -/
namespace Sys2Proof.Machine

/-- The sample `+0.0`. -/
def zeroSample : Word := 0x00000000#32

/-- The sample `1.0`. -/
def oneSample : Word := 0x3F800000#32

/-- The exponent field, bits 30:23 (rule R61). -/
def expField (w : Word) : Nat := w.toNat / 2 ^ 23 % 2 ^ 8

/-- The fraction field, bits 22:0 (rule R61). -/
def fracField (w : Word) : Nat := w.toNat % 2 ^ 23

/-- The sign, bit 31 (rule R61). -/
def isNegative (w : Word) : Bool := decide (2 ^ 31 ≤ w.toNat)

/-- Whether a sample is finite: neither an infinity nor a NaN (rule R13). -/
def isFinite (w : Word) : Bool := !(expField w == 255)

/-- Whether every sample of a vector is finite (rule R13). -/
def allFinite (v : List Word) : Bool := v.all isFinite

/-- The magnitude of a finite sample as a multiple of `2^-149`, the smallest positive value of the format. -/
def magnitude (w : Word) : Nat :=
  if expField w = 0 then fracField w else (2 ^ 23 + fracField w) * 2 ^ (expField w - 1)

/-- The exact value of a finite sample as a multiple of `2^-149`. -/
def exactValue (w : Word) : Int := if isNegative w then -(magnitude w : Int) else magnitude w

/-- The low 31 bits of the sample nearest to `m * 2^-sh` units of `2^-149`, ties to even, subnormals kept; the pattern of
infinity when the rounded value overflows (rule R12). A significand that rounds up to `2^24` carries into the exponent. -/
def roundBits (m sh : Nat) : Nat :=
  let drop := max (m.log2 + 1 - 24) sh
  let q := m / 2 ^ drop
  let r := m % 2 ^ drop
  let up := if 2 ^ drop < 2 * r ∨ (2 * r = 2 ^ drop ∧ q % 2 = 1) then 1 else 0
  min ((drop - sh) * 2 ^ 23 + (q + up)) 0x7F800000

/-- A sample from its sign and its low 31 bits. -/
def packSample (negative : Bool) (bits : Nat) : Word := BitVec.ofNat 32 (if negative then 2 ^ 31 + bits else bits)

/-- The pattern an operation gives when an operand is not finite. It only marks that the command is not numerically well-formed
(rule R13): every command that meets a sample that is not finite writes free values, never this pattern. -/
def notFinite : Word := 0x7FC00000#32

/-- The sample with the other sign. -/
def fneg (a : Word) : Word := packSample (!isNegative a) (a.toNat % 2 ^ 31)

/-- `fadd(a, b)`: the exact sum, rounded once; an exact zero is `-0` only when both operands are negative (rule R12). -/
def fadd (a b : Word) : Word :=
  if isFinite a && isFinite b then
    let x := exactValue a + exactValue b
    if x = 0 then packSample (isNegative a && isNegative b) 0 else packSample (decide (x < 0)) (roundBits x.natAbs 0)
  else notFinite

/-- `fsub(a, b)` = a minus b (rule R12). -/
def fsub (a b : Word) : Word := fadd a (fneg b)

/-- `fmul(a, b)`: the exact product, a multiple of `2^-298`, rounded once (rule R12). -/
def fmul (a b : Word) : Word :=
  if isFinite a && isFinite b then
    packSample (xor (isNegative a) (isNegative b)) (roundBits (magnitude a * magnitude b) 149)
  else notFinite

/-- A numerics record: the operations on samples and the constants through which the transforms of 43_transform_dct.md and
44_transform_mdct.md are written (rule R12: "every rule is stated through the three names so that this substitution is
mechanical"). -/
structure Numerics (α : Type) where
  /-- `+0.0` -/
  zero : α
  add : α → α → α
  sub : α → α → α
  mul : α → α → α
  /-- the factor 0.5 of the post-scaling (rule R165) -/
  half : α
  /-- the global multiplier `G(n)` (rule R163) -/
  scale : Nat → α
  /-- the transform constants `K[L][j]` (rule R162) -/
  k : Nat → Nat → α
  /-- the MDCT window `WM[B][j]` (rule R192) -/
  wm : Nat → Nat → α

end Sys2Proof.Machine
end

