-- ==== Sys2Proof/Machine/Consts.lean ====
section
/-! DEFINITION. The transform constants `K` and `G` and the MDCT window `WM` (rules R162, R163, R192): the default values, each
the real value rounded to the nearest sample, and the numerics record of a block. -/
namespace Sys2Proof.Machine

/-- The fraction bits of the fixed-point numbers from which the default constants are rounded. notes/assumptions/4.md. -/
def fixBits : Nat := 192

/-- `pi * 2^192`, truncated. -/
def fixPi : Nat := 0x3243F6A8885A308D313198A2E03707344A4093822299F31D0

/-- `1 - (x2 / ((2k-1)(2k))) * (1 - (x2 / ((2k+1)(2k+2))) * ...)` with `m` factors, in fixed point: for `k = 1` the Taylor sum
of the cosine of the angle whose square is `x2`. -/
def cosTail (x2 : Nat) : (m k : Nat) → Nat
  | 0, _ => 2 ^ fixBits
  | m + 1, k => 2 ^ fixBits - x2 * cosTail x2 m (k + 1) / 2 ^ fixBits / ((2 * k - 1) * (2 * k))

/-- `cos(pi * num / den) * 2^192` for an angle between 0 and `pi/2`, to within a few units. -/
def fixCos (num den : Nat) : Nat :=
  let x := fixPi * num / den
  cosTail (x * x / 2 ^ fixBits) 32 1

/-- The default of `K[L][j]`: `1 / (2 cos((j + 1/2) pi / L))` rounded to the nearest sample (rule R162). -/
def kDefault (l j : Nat) : Word :=
  packSample false (roundBits (2 ^ (fixBits - 1 + 149 + 64) / fixCos (2 * j + 1) (2 * l)) 64)

/-- The default of `WM[B][j]`: `sin^2(pi (j + 1/2) / (2B))` rounded to the nearest sample, by the symmetry
`WM[B][j] = WM[B][2B-1-j]` computed for `j < B`, where the sine is the cosine of the complementary angle (rule R192). -/
def wmDefault (b j : Nat) : Word :=
  let i := if j < b then j else 2 * b - 1 - j
  let c := fixCos (2 * b - 2 * i - 1) (4 * b)
  packSample false (roundBits (c * c / 2 ^ (2 * fixBits - 149 - 64)) 64)

/-- `K[L][j]` of a block: the value its configuration fixes, else the default (rules R5, R162). -/
def kConst (c : Config) (l j : Nat) : Word := (c.kSet.lookup (l, j)).getD (kDefault l j)

/-- `WM[B][j]` of a block: the value its configuration fixes, else the default (rules R5, R192). -/
def wmConst (c : Config) (b j : Nat) : Word := (c.wmSet.lookup (b, j)).getD (wmDefault b j)

/-- The sample 0.5 (rule R165). -/
def halfSample : Word := 0x3F000000#32

/-- `G(n) = 0.5^(log2(n) - 1)` as a sample: exponent field `127 - (log2(n) - 1)`, fraction 0 (rule R163). -/
def gConst (n : Nat) : Word := packSample false ((127 - (n.log2 - 1)) * 2 ^ 23)

/-- The numerics record of a block: binary32 arithmetic and the block's constants (rules R5, R12). -/
def binary32 (c : Config) : Numerics Word :=
  { zero := zeroSample, add := fadd, sub := fsub, mul := fmul, half := halfSample, scale := gConst, k := kConst c,
    wm := wmConst c }

end Sys2Proof.Machine
end

