-- ==== Sys2Proof/Machine/State.lean ====
section
/-! DEFINITION. The state of the block and of what its commands touch (10_state.md; HM, 20_memory.md rule R60; the inner
processors' state, rule R9; the host's pending actions, rule R257), its value after reset (rule R50), and the reasons to stop. -/
namespace Sys2Proof.Machine

/-- A sparse map: pairs of a key and a value, keys rising, no entry for a key that holds the default value. -/
abbrev Cells (α : Type) := List (Nat × α)

/-- An instance slot with its lifecycle field `LIFE` (rule R24): an `UNCONFIGURED` instance has no other field (rule R50); a
`FAULTED` one keeps its fields, its buffers holding unspecified values. -/
inductive Slot (α : Type) where
  | unconfigured
  | configured (x : α)
  | faulted (x : α)
deriving DecidableEq, Repr, Inhabited

/-- A DCT instance: the transform length `n` (rule R25). -/
structure DctInst where
  n : Nat
deriving DecidableEq, Repr

/-- An MDCT instance (rule R27). -/
structure MdctInst where
  /-- `B` -/
  b : Nat
  /-- `DCTBUF[0..B)`, the most recent input block -/
  dctBuf : List Word
  /-- `IDCTBUF[0..B)`, the window-weighted trailing half of the previous `MDCT.INV` result -/
  idctBuf : List Word
  /-- the MODEL's own: `DCTBUF` was written by a command that was not numerically well-formed (U1) -/
  dctTaint : Bool
  /-- the MODEL's own: likewise `IDCTBUF` -/
  idctTaint : Bool
deriving DecidableEq, Repr

/-- An OLA instance (rule R28). -/
structure OlaInst where
  /-- `B` -/
  b : Nat
  /-- `PRE` -/
  pre : Bool
  /-- `POST` -/
  post : Bool
  /-- the window `W[0..2B)` -/
  w : List Word
  /-- `INBUF[0..2B)`: the previous block, then the current block -/
  inBuf : List Word
  /-- `OUTCARRY[0..B)` -/
  outCarry : List Word
  /-- the MODEL's own: the sample buffers were written by a command that was not numerically well-formed (U1) -/
  taint : Bool
deriving DecidableEq, Repr

/-- `SEG.INNER`: what processes a block of channel `c`, the port site `SEG(c)` or the wrapper `OLA[c]` (rule R29). -/
inductive Binding where
  | ext
  | ola
deriving DecidableEq, Repr

/-- One channel of the segmenter (rule R29). -/
structure Chan where
  /-- `OVF[c][0..B)` -/
  ovf : List Word
  /-- `FILL[c]` -/
  fill : Nat
  /-- the MODEL's own: `OVF[c]` was written by a command that was not numerically well-formed (U1) -/
  taint : Bool
deriving DecidableEq, Repr, Inhabited

/-- The segmenter (rule R29). -/
structure SegInst where
  /-- `B` -/
  b : Nat
  /-- `C` -/
  c : Nat
  /-- `INNER` -/
  inner : Binding
  /-- the channels `0` to `C-1` -/
  chans : List Chan
deriving DecidableEq, Repr

/-- The six operand registers (table T40, rule R45). -/
structure OpRegs where
  /-- `OP_PTR0`, offset 0x4 -/
  ptr0 : Word
  /-- `OP_PTR1`, offset 0x5 -/
  ptr1 : Word
  /-- `OP_LEN`, offset 0x6 -/
  len : Word
  /-- `OP_STRIDE`, offset 0x7 -/
  stride : Word
  /-- `OP_NCH`, offset 0x8 -/
  nch : Word
  /-- `OP_ENV`, offset 0x9 -/
  env : Word
deriving DecidableEq, Repr

/-- `IPState`: the inner processors' own state, one component per site (rule R9). -/
structure IPState where
  /-- the component of site `SEG(c)`, by `c`; unlisted is 0 -/
  seg : Cells Nat
  /-- the component of site `OLA(i)`, by `i`; unlisted is 0 -/
  ola : Cells Nat
  /-- the invocations made so far over all sites: the state of the fixture `F_FAIL3` -/
  calls : Nat
deriving DecidableEq, Repr

/-- What the host can do to the block (rules R40, R71, R257): read or write a control register by its word offset (a write of
offset 0x0 issues a command), load or store a word of HM, or apply hardware reset (rule R240). -/
inductive HostAction where
  | regWrite (offset : Nat) (v : Word)
  | regRead (offset : Nat)
  | hmStore (addr : Nat) (v : Word)
  | hmLoad (addr : Nat)
  | hardReset
deriving DecidableEq, Repr

/-- What a word of HM holds: a sample written as such, or a sample that the spec leaves unspecified, which is the free value named
here (U1 to U3; `Config.freeSample`). -/
inductive HmWord where
  | known (w : Word)
  | unspecified (tick : Nat) (u : FreeUse) (j : Nat)
deriving DecidableEq, Repr

/-- Host sample memory: a sparse map from word addresses to words; an unlisted address reads as `+0.0` (rule R60).
notes/assumptions/5.md, notes/assumptions/6.md. -/
abbrev Memory := Cells HmWord

/-- The state. -/
structure State where
  /-- the parameters of rule R5; never changed -/
  cfg : Config
  /-- `STATUS` (rule R42) -/
  status : Word
  /-- `MSG` (rule R43) -/
  msg : Word
  /-- `DIAG` (rule R44) -/
  diag : Word
  /-- the operand registers (rule R45) -/
  ops : OpRegs
  /-- `DCT[i]` by `i`; an unlisted instance is `UNCONFIGURED` (rule R25) -/
  dct : Cells (Slot DctInst)
  /-- `MDCT[i]` by `i` (rule R27) -/
  mdct : Cells (Slot MdctInst)
  /-- `OLA[i]` by `i` (rule R28) -/
  ola : Cells (Slot OlaInst)
  /-- `SEG` (rule R29) -/
  seg : Slot SegInst
  /-- HM (rule R60) -/
  hm : Memory
  /-- `IPState` (rule R9) -/
  ip : IPState
  /-- the host's actions still to come, the next one first (rules R41, R257) -/
  pending : List HostAction
  /-- the MODEL's own: the value the host's last register read or HM load returned -/
  rdata : Word
  /-- the MODEL's own: the number of commands issued, from which every command takes fresh free values -/
  tick : Nat
deriving DecidableEq, Repr

/-- Why the machine stops. No command of the block stops it: every error of a command is a status code (rule R210) and the
block has no stuck state (rule R257). -/
inductive Fault where
  /-- The HOST loads or stores a word of HM at `addr`, at or above `HMSIZE`: no such word exists (rule R60). Raised by the host
  actions `hmLoad` and `hmStore` only. Safe: the spec gives such an access no meaning. -/
  | hostAddress (addr : Nat)
deriving DecidableEq, Repr

/-- Why the machine refuses an instruction. -/
inductive Refusal where
  /-- The instruction has no meaning in this model yet; raised by no arm of `exec` (every command is modelled). Safe. -/
  | notModelled (mnemonic : String)
deriving DecidableEq, Repr

/-- The operand registers after reset: all 0 (rule R50). -/
def OpRegs.zero : OpRegs := { ptr0 := 0, ptr1 := 0, len := 0, stride := 0, nch := 0, env := 0 }

/-- `IPState` at launch: rule R243 makes it part of the launch state; every component 0. DESIGN CHOICE,
notes/assumptions/3.md. -/
def IPState.launch : IPState := { seg := [], ola := [], calls := 0 }

/-- The machine right after hardware reset (rules R50 and R240): control and operand registers 0, every instance
`UNCONFIGURED`, the host having asked nothing yet. The parameters, HM's contents and `IPState` are not given by reset
(rule R50): DESIGN CHOICE, notes/assumptions/1.md, 3.md and 6.md. -/
def State.reset : State :=
  { cfg := Config.largest, status := 0, msg := 0, diag := 0, ops := OpRegs.zero, dct := [], mdct := [], ola := [],
    seg := .unconfigured, hm := [], ip := IPState.launch, pending := [], rdata := 0, tick := 0 }

end Sys2Proof.Machine
end

