-- ==== Sys2Proof/Machine/Flags.lean ====
section
/-! DEFINITION. The block has no condition flags (rule R23); the outcome of a command is the register `STATUS`. This file holds
the status codes of table T211 and the packing of `STATUS` (rule R42). -/
namespace Sys2Proof.Machine

/-- The errors that leave everything but `STATUS` as it was (rules R212 to R215, R217, R219). The sixth, `ERR_INNER`, carries a
channel and a diagnostic and is raised by `State.raiseInner`. -/
inductive Err where
  /-- `ERR_NO_CHANNELS` (rule R212) -/
  | noChannels
  /-- `ERR_CONFIG` (rule R214) -/
  | config
  /-- `ERR_ILLEGAL_CMD` (rule R213) -/
  | illegalCmd
  /-- `ERR_STATE` (rule R217) -/
  | state
  /-- `ERR_OPERAND` (rule R215) -/
  | operand
deriving DecidableEq, Repr

/-- The code of an error (table T211). -/
def Err.code : Err → BitVec 8
  | .noChannels => 1
  | .config => 3
  | .illegalCmd => 4
  | .state => 5
  | .operand => 6

/-- The code `OK` (table T211). -/
def okCode : BitVec 8 := 0

/-- The code `ERR_INNER` (table T211). -/
def innerCode : BitVec 8 := 2

/-- `STATUS` from its fields: `CODE` in bits 7:0, `CHAN` in bits 15:8, bits 31:16 zero (rule R42). -/
def statusWord (code chan : BitVec 8) : Word := (0#16 ++ chan) ++ code

/-- `STATUS.CODE` (rule R42). -/
def statusCode (w : Word) : BitVec 8 := w.extractLsb' 0 8

/-- `STATUS.CHAN` (rule R42). -/
def statusChan (w : Word) : BitVec 8 := w.extractLsb' 8 8

end Sys2Proof.Machine
end

