-- ==== Sys2Proof/Machine/Operands.lean ====
section
/-! DEFINITION. The operands of a command (rule R86): the operand registers as unsigned numbers, the control-register bank as
the host sees it (table T40), and the checks on ranges of HM (rules R63, R64) and on lengths (rule R103). -/
namespace Sys2Proof.Machine

/-- `OP_PTR0` as an HM word address (rule R86: unsigned, without extension, scaling or shifting). -/
def State.ptr0 (s : State) : Nat := s.ops.ptr0.toNat

/-- `OP_PTR1` as an HM word address. -/
def State.ptr1 (s : State) : Nat := s.ops.ptr1.toNat

/-- `OP_LEN` as a number. -/
def State.len (s : State) : Nat := s.ops.len.toNat

/-- `OP_STRIDE` as a number of words. -/
def State.stride (s : State) : Nat := s.ops.stride.toNat

/-- `OP_NCH` as a number of channels. -/
def State.nch (s : State) : Nat := s.ops.nch.toNat

/-- `OP_ENV`, the opaque handle. -/
def State.env (s : State) : Word := s.ops.env

/-- `pow2(x)`: `x = 2^k` for some `k` (rule R103). -/
def isPow2 (x : Nat) : Bool := x == 2 ^ x.log2

/-- A range of HM words: its first address and its length. -/
structure Range where
  addr : Nat
  size : Nat
deriving DecidableEq, Repr

/-- A range is valid when it ends inside HM, in unbounded integers (rules R63, R64). -/
def Range.valid (hmsize : Nat) (r : Range) : Bool := decide (r.addr + r.size ≤ hmsize)

/-- Two ranges are disjoint when one is empty or one ends before the other begins (rule R63). -/
def Range.disjoint (r q : Range) : Bool :=
  decide (r.size = 0) || decide (q.size = 0) || decide (r.addr + r.size ≤ q.addr) || decide (q.addr + q.size ≤ r.addr)

/-- The row of channel `c` of a multi-channel buffer (rule R69). -/
def rowRange (base stride n c : Nat) : Range := { addr := base + c * stride, size := n }

/-- Every row of the channels `c < P` is valid and no two of them overlap (the first two checks of rule R121); "With `N = 0`
every row is valid and disjoint whatever `base` and `stride` are" (notes/assumptions/10.md). -/
def rowsOk (hmsize base stride p n : Nat) : Bool :=
  decide (n = 0) ||
    ((List.range p).all fun c => (rowRange base stride n c).valid hmsize) &&
      ((List.range p).all fun c =>
        (List.range c).all fun e => (rowRange base stride n e).disjoint (rowRange base stride n c))

/-- What the host reads at a word offset of the control-register bank (table T40): `CMD` and the offsets above 0x9 read as 0. -/
def State.readReg (s : State) : (offset : Nat) → Word
  | 1 => s.status
  | 2 => s.msg
  | 3 => s.diag
  | 4 => s.ops.ptr0
  | 5 => s.ops.ptr1
  | 6 => s.ops.len
  | 7 => s.ops.stride
  | 8 => s.ops.nch
  | 9 => s.ops.env
  | _ => 0

/-- What a host write of `v` at a word offset other than that of `CMD` stores (table T40, rule R45): the read-only registers and
the offsets above 0x9 ignore it. -/
def OpRegs.write (o : OpRegs) (offset : Nat) (v : Word) : OpRegs :=
  match offset with
  | 4 => { o with ptr0 := v }
  | 5 => { o with ptr1 := v }
  | 6 => { o with len := v }
  | 7 => { o with stride := v }
  | 8 => { o with nch := v }
  | 9 => { o with env := v }
  | _ => o

end Sys2Proof.Machine
end

