-- ==== Sys2Proof/Machine/Ops.lean ====
section
/-! DEFINITION. The shared operations: sparse maps, the two memory primitives (rule R62), the updates of the state, ending a
command with `OK` or with an error (rules R210 to R217), the reset of the block (rule R101), and the free values that stand for
unspecified samples (U1 to U3). -/
namespace Sys2Proof.Machine

/-! ### Sparse maps -/

/-- The value at a key; `d` for a key that is not listed. -/
def Cells.get {α : Type} (d : α) : Cells α → Nat → α
  | [], _ => d
  | (k, x) :: m, a => if k = a then x else Cells.get d m a

/-- The entries for the values `v` at the keys `a, a+1, ...`, none for a value equal to `d`. -/
def Cells.block {α : Type} [DecidableEq α] (d : α) : (a : Nat) → List α → Cells α
  | _, [] => []
  | a, x :: v => if x = d then Cells.block d (a + 1) v else (a, x) :: Cells.block d (a + 1) v

/-- The map with the values `v` at the keys `a, a+1, ...`, in canonical form when the map is. -/
def Cells.splice {α : Type} [DecidableEq α] (d : α) (m : Cells α) (a : Nat) (v : List α) : Cells α :=
  m.filter (fun p => decide (p.1 < a)) ++ Cells.block d a v ++ m.filter (fun p => decide (a + v.length ≤ p.1))

/-- The map with the value `x` at the key `a`. -/
def Cells.set {α : Type} [DecidableEq α] (d : α) (m : Cells α) (a : Nat) (x : α) : Cells α := Cells.splice d m a [x]

/-- The canonical form: keys strictly rising, no entry that equals the default. -/
abbrev Cells.wf {α : Type} [DecidableEq α] (d : α) (m : Cells α) : Prop :=
  (m.map Prod.fst).Pairwise (· < ·) ∧ ∀ p ∈ m, p.2 ≠ d

/-! ### Host sample memory -/

/-- The sample a word of HM holds. -/
def HmWord.value : HmWord → Word
  | .known w => w
  | .unspecified tick u j => Config.freeSample tick u j

/-- What an unlisted word of HM holds: `+0.0`. notes/assumptions/6.md. -/
def blankWord : HmWord := .known zeroSample

/-- `HM[addr]` (rule R60). -/
def Memory.get (m : Memory) (addr : Nat) : Word := (Cells.get blankWord m addr).value

/-- `MemRead(addr, n)` (rule R62). -/
def Memory.read (m : Memory) (addr n : Nat) : List Word := vec n fun j => m.get (addr + j)

/-- `MemWrite(addr, len(v), v)` (rule R62). -/
def Memory.write (m : Memory) (addr : Nat) (v : List HmWord) : Memory := Cells.splice blankWord m addr v

/-- HM is in canonical form. -/
abbrev Memory.wf (m : Memory) : Prop := Cells.wf blankWord m

/-! ### Updates of the state, one per field -/

def State.setStatus (s : State) (w : Word) : State := { s with status := w }
def State.setMsg (s : State) (w : Word) : State := { s with msg := w }
def State.setDiag (s : State) (w : Word) : State := { s with diag := w }
def State.setOps (s : State) (o : OpRegs) : State := { s with ops := o }
def State.setDct (s : State) (m : Cells (Slot DctInst)) : State := { s with dct := m }
def State.setMdct (s : State) (m : Cells (Slot MdctInst)) : State := { s with mdct := m }
def State.setOla (s : State) (m : Cells (Slot OlaInst)) : State := { s with ola := m }
def State.setSeg (s : State) (x : Slot SegInst) : State := { s with seg := x }
def State.setHm (s : State) (m : Memory) : State := { s with hm := m }
def State.setIp (s : State) (p : IPState) : State := { s with ip := p }
def State.setPending (s : State) (l : List HostAction) : State := { s with pending := l }
def State.setRdata (s : State) (w : Word) : State := { s with rdata := w }
def State.setTick (s : State) (n : Nat) : State := { s with tick := n }

/-! ### Instances -/

/-- `DCT[i]`. -/
def State.dctAt (s : State) (i : InstNo) : Slot DctInst := Cells.get .unconfigured s.dct i.toNat

/-- `MDCT[i]`. -/
def State.mdctAt (s : State) (i : InstNo) : Slot MdctInst := Cells.get .unconfigured s.mdct i.toNat

/-- The wrapper of index `c` in a map of wrappers. -/
def olaSlot (m : Cells (Slot OlaInst)) (c : Nat) : Slot OlaInst := Cells.get .unconfigured m c

/-- The map of wrappers with the slot `x` at index `c`. -/
def putOla (m : Cells (Slot OlaInst)) (c : Nat) (x : Slot OlaInst) : Cells (Slot OlaInst) := Cells.set .unconfigured m c x

/-- `OLA[i]`. -/
def State.olaAt (s : State) (i : InstNo) : Slot OlaInst := olaSlot s.ola i.toNat

/-- The state with `DCT[i]` replaced. -/
def State.putDct (s : State) (i : InstNo) (x : Slot DctInst) : State := s.setDct (Cells.set .unconfigured s.dct i.toNat x)

/-- The state with `MDCT[i]` replaced. -/
def State.putMdct (s : State) (i : InstNo) (x : Slot MdctInst) : State := s.setMdct (Cells.set .unconfigured s.mdct i.toNat x)

/-- The state with `OLA[i]` replaced. -/
def State.putOla (s : State) (i : InstNo) (x : Slot OlaInst) : State := s.setOla (Machine.putOla s.ola i.toNat x)

/-! ### HM through the state -/

/-- `MemRead(addr, n)`. -/
def State.memRead (s : State) (addr n : Nat) : List Word := s.hm.read addr n

/-- `MemWrite(addr, len(v), v)`. -/
def State.memWrite (s : State) (addr : Nat) (v : List HmWord) : State := s.setHm (s.hm.write addr v)

/-! ### The end of a command -/

/-- A command that completes: `STATUS <- OK` (rule R211). -/
def State.complete (s : State) : State := s.setStatus (statusWord okCode 0)

/-- `raise <Error>` for the errors that change only `STATUS`; control goes back to the host, and nothing is saved but the status
(rules R210, R212 to R215, R217, R219, R220). -/
def State.raise (s : State) (e : Err) : State := s.setStatus (statusWord e.code 0)

/-- `raise ERR_INNER(c, diag)`: the status with the channel, and the diagnostic (rules R44, R216). What else the failing command
leaves is said where it raises it. -/
def State.raiseInner (s : State) (c : Nat) (diag : Word) : State :=
  (s.setStatus (statusWord innerCode (BitVec.ofNat 8 c))).setDiag diag

/-- The effect of hardware reset and of `SYS.RESET` (rules R50, R101): the control registers and operand registers 0, every
instance `UNCONFIGURED`; HM and `IPState` as they were. There is no return from an error to model: an error is over when its
command is over (rule R221). -/
def State.resetBlock (s : State) : State :=
  ((((((((s.setStatus 0).setMsg 0).setDiag 0).setOps OpRegs.zero).setDct []).setMdct []).setOla []).setSeg .unconfigured)

/-! ### Unspecified samples -/

/-- A vector of `n` unspecified samples. -/
def freeVec (tick : Nat) (u : FreeUse) (n : Nat) : List Word := vec n fun j => Config.freeSample tick u j

/-- `n` unspecified words for HM. -/
def freeWords (tick : Nat) (u : FreeUse) (n : Nat) : List HmWord := vec n fun j => .unspecified tick u j

/-- The samples a command writes to an instance or hands to an inner processor: the ones its rule gives when the command is
numerically well-formed, unspecified ones otherwise (rule R13, U1). -/
def settle (ok : Bool) (tick : Nat) (u : FreeUse) (v : List Word) : List Word := if ok then v else freeVec tick u v.length

/-- The samples a command writes to HM, likewise (rule R13, U1). -/
def settleWords (ok : Bool) (tick : Nat) (u : FreeUse) (v : List Word) : List HmWord :=
  if ok then v.map .known else freeWords tick u v.length

end Sys2Proof.Machine
end

