-- ==== Sys2Proof/Machine/Transform.lean ====
section
/-! DEFINITION. The butterfly network of the DCT engine (rules R164 to R169), over any numerics record. A transform of length
`L = 2^(d+1)` has recursion depth `d`; the two half-length results that rule R164 leaves in the other buffer are here the values
of two recursive calls (rule R174: the same scalar operations on the same operands; only the use of `scratch` differs). -/
namespace Sys2Proof.Machine

variable {α : Type}

/-- `fwd_rec` on a vector of `2^(d+1)` elements: the unscaled type-II transform (rule R164). -/
def fwdRec (N : Numerics α) : (d : Nat) → List α → List α
  | 0, x =>
    let a := x.getD 0 N.zero
    let b := x.getD 1 N.zero
    [N.add a b, N.mul (N.sub a b) (N.k 2 0)]
  | d + 1, x =>
    let l := 2 ^ (d + 2)
    let h := 2 ^ (d + 1)
    let s := fwdRec N d (vec h fun j => N.add (x.getD j N.zero) (x.getD (l - 1 - j) N.zero))
    let t := fwdRec N d (vec h fun j => N.mul (N.sub (x.getD j N.zero) (x.getD (l - 1 - j) N.zero)) (N.k l j))
    vec l fun i =>
      if i % 2 = 0 then s.getD (i / 2) N.zero
      else if i / 2 + 1 < h then N.add (t.getD (i / 2) N.zero) (t.getD (i / 2 + 1) N.zero)
      else t.getD (i / 2) N.zero

/-- `inv_rec` on a vector of `2^(d+1)` elements: the type-III sum (rule R167). -/
def invRec (N : Numerics α) : (d : Nat) → List α → List α
  | 0, y =>
    let a := y.getD 0 N.zero
    let b := N.mul (y.getD 1 N.zero) (N.k 2 0)
    [N.add a b, N.sub a b]
  | d + 1, y =>
    let l := 2 ^ (d + 2)
    let h := 2 ^ (d + 1)
    let s := invRec N d (vec h fun j => y.getD (2 * j) N.zero)
    let t := invRec N d (vec h fun j =>
      if j = 0 then y.getD 1 N.zero else N.add (y.getD (2 * j - 1) N.zero) (y.getD (2 * j + 1) N.zero))
    vec l fun i =>
      if i < h then N.add (s.getD i N.zero) (N.mul (t.getD i N.zero) (N.k l i))
      else N.sub (s.getD (l - 1 - i) N.zero) (N.mul (t.getD (l - 1 - i) N.zero) (N.k l (l - 1 - i)))

/-- The post-scaling of the forward transform: first the DC term is halved, then every term is multiplied by `G(n)`
(rule R165). -/
def postScale (N : Numerics α) (n : Nat) (x : List α) : List α :=
  vec n fun j =>
    N.mul (if j = 0 then N.mul (x.getD 0 N.zero) N.half else x.getD j N.zero) (N.scale n)

/-- `dct_forward(n, x)` for a power of two `n >= 2` (rule R166). -/
def dctForward (N : Numerics α) (n : Nat) (x : List α) : List α := postScale N n (fwdRec N (n.log2 - 1) x)

/-- `dct_inverse(n, y)` for a power of two `n >= 2` (rule R169; no pre-scaling and no post-scaling, rule R168). -/
def dctInverse (N : Numerics α) (n : Nat) (y : List α) : List α := invRec N (n.log2 - 1) y

end Sys2Proof.Machine
end

