-- ==== Sys2Proof/Machine/Dct.lean ====
section
/-! DEFINITION. The unit DCT: `DCT.CFG` (rule R102), `DCT.FWD` (rule R171), `DCT.INV` (rule R172). -/
namespace Sys2Proof.Machine

/-- The transform lengths `DCT.CFG` accepts: powers of two from 2 to `2*BMAX` (rule R102). -/
def dctLengthOk (c : Config) (n : Nat) : Bool := isPow2 n && decide (2 ≤ n) && decide (n ≤ 2 * c.bmax)

/-- `DCT.CFG` (rule R102). -/
def execDctCfg (i : InstNo) (s : State) : Host.Outcome State Fault Refusal :=
  if dctLengthOk s.cfg s.len then .next (s.putDct i (.configured { n := s.len })).complete
  else .next (s.raise .config)

/-- The operand check of the DCT commands: data and scratch inside HM and disjoint (rules R170, R171). -/
def dctRangesOk (s : State) (n : Nat) : Bool :=
  Range.valid s.cfg.hmsize { addr := s.ptr0, size := n } && Range.valid s.cfg.hmsize { addr := s.ptr1, size := n } &&
    Range.disjoint { addr := s.ptr0, size := n } { addr := s.ptr1, size := n }

/-- The effect of a DCT command on HM: the `n` samples at `OP_PTR0` are replaced by their image under `f`, and the `n` words at
`OP_PTR1` by unspecified ones (rules R170 to R172). The command is numerically well-formed when the samples it reads and the
samples it computes are finite (rule R13; notes/assumptions/7.md). -/
def dctEffect (f : List Word → List Word) (n : Nat) (s : State) : State :=
  let x := s.memRead s.ptr0 n
  let y := f x
  ((s.memWrite s.ptr0 (settleWords (allFinite x && allFinite y) s.tick .data y)).memWrite s.ptr1
    (freeWords s.tick .scratch n)).complete

/-- The checks and the effect that `DCT.FWD` and `DCT.INV` share; `f n` is the transform of length `n`. -/
def dctProcess (f : Nat → List Word → List Word) (i : InstNo) (s : State) : Host.Outcome State Fault Refusal :=
  match s.dctAt i with
  | .configured d => if dctRangesOk s d.n then .next (dctEffect (f d.n) d.n s) else .next (s.raise .operand)
  | _ => .next (s.raise .state)

/-- `DCT.FWD` (rule R171). -/
def execDctFwd (i : InstNo) (s : State) : Host.Outcome State Fault Refusal := dctProcess (dctForward (binary32 s.cfg)) i s

/-- `DCT.INV` (rule R172). -/
def execDctInv (i : InstNo) (s : State) : Host.Outcome State Fault Refusal := dctProcess (dctInverse (binary32 s.cfg)) i s

end Sys2Proof.Machine
end

