-- ==== Sys2Proof/Machine/Mdct.lean ====
section
/-! DEFINITION. The unit MDCT: `MDCT.CFG` (rule R104), `MDCT.FWD` (rule R194), `MDCT.INV` (rule R196). -/
namespace Sys2Proof.Machine

/-- The block sizes of a unit that windows or transforms: powers of two from 1 to `BMAX` (rules R104, R106). -/
def blockSizeOk (c : Config) (b : Nat) : Bool := isPow2 b && decide (1 ≤ b) && decide (b ≤ c.bmax)

/-- A freshly constructed MDCT instance: both buffers `+0.0` (rules R51, R104). -/
def MdctInst.fresh (b : Nat) : MdctInst :=
  { b := b, dctBuf := List.replicate b zeroSample, idctBuf := List.replicate b zeroSample, dctTaint := false,
    idctTaint := false }

/-- `MDCT.CFG` (rule R104). -/
def execMdctCfg (i : InstNo) (s : State) : Host.Outcome State Fault Refusal :=
  if blockSizeOk s.cfg s.len then .next (s.putMdct i (.configured (MdctInst.fresh s.len))).complete
  else .next (s.raise .config)

/-- The operand check of the MDCT commands: an input of `m` words at `OP_PTR0` and an output of `k` words at `OP_PTR1`, inside
HM and disjoint (rules R194, R196). -/
def mdctRangesOk (s : State) (m k : Nat) : Bool :=
  Range.valid s.cfg.hmsize { addr := s.ptr0, size := m } && Range.valid s.cfg.hmsize { addr := s.ptr1, size := k } &&
    Range.disjoint { addr := s.ptr0, size := m } { addr := s.ptr1, size := k }

/-- The effect of `MDCT.FWD` on a configured instance: the new block becomes `DCTBUF`, and the forward DCT of `DCTBUF ++ blk` is
written (rules R191, R194). -/
def mdctFwdEffect (i : InstNo) (m : MdctInst) (s : State) : State :=
  let blk := s.memRead s.ptr0 m.b
  let y := dctForward (binary32 s.cfg) (2 * m.b) (m.dctBuf ++ blk)
  let ok := !m.dctTaint && allFinite m.dctBuf && allFinite blk && allFinite y
  ((s.putMdct i (.configured { m with dctBuf := settle ok s.tick .dctBuf blk, dctTaint := !ok })).memWrite s.ptr1
    (settleWords ok s.tick .data y)).complete

/-- `MDCT.FWD` (rule R194). -/
def execMdctFwd (i : InstNo) (s : State) : Host.Outcome State Fault Refusal :=
  match s.mdctAt i with
  | .configured m => if mdctRangesOk s m.b (2 * m.b) then .next (mdctFwdEffect i m s) else .next (s.raise .operand)
  | _ => .next (s.raise .state)

/-- The output block of `MDCT.INV`: the windowed first half of the inverse DCT `t`, plus the carried trailing half
(rule R196). -/
def mdctOut {α : Type} (N : Numerics α) (b : Nat) (t idct : List α) : List α :=
  vec b fun j => N.add (N.mul (N.wm b j) (t.getD j N.zero)) (idct.getD j N.zero)

/-- The new `IDCTBUF` of `MDCT.INV`: the windowed trailing half of the inverse DCT `t` (rule R196). -/
def mdctCarry {α : Type} (N : Numerics α) (b : Nat) (t : List α) : List α :=
  vec b fun j => N.mul (N.wm b (b + j)) (t.getD (b + j) N.zero)

/-- The effect of `MDCT.INV` on a configured instance (rule R196). -/
def mdctInvEffect (i : InstNo) (m : MdctInst) (s : State) : State :=
  let y := s.memRead s.ptr0 (2 * m.b)
  let t := dctInverse (binary32 s.cfg) (2 * m.b) y
  let out := mdctOut (binary32 s.cfg) m.b t m.idctBuf
  let carry := mdctCarry (binary32 s.cfg) m.b t
  let ok := !m.idctTaint && allFinite m.idctBuf && allFinite y && allFinite out && allFinite carry
  ((s.putMdct i (.configured { m with idctBuf := settle ok s.tick .idctBuf carry, idctTaint := !ok })).memWrite s.ptr1
    (settleWords ok s.tick .data out)).complete

/-- `MDCT.INV` (rule R196). -/
def execMdctInv (i : InstNo) (s : State) : Host.Outcome State Fault Refusal :=
  match s.mdctAt i with
  | .configured m => if mdctRangesOk s (2 * m.b) m.b then .next (mdctInvEffect i m s) else .next (s.raise .operand)
  | _ => .next (s.raise .state)

end Sys2Proof.Machine
end

