-- ==== Sys2Proof/Machine/Port.lean ====
section
/-! DEFINITION. The call through the inner-processor port (rules R9, R11): the platform's own processors, of which only the
contract is known, and the fixtures of 95_test_vectors.md. -/
namespace Sys2Proof.Machine

/-- What one invocation of an inner processor yields: the returned vector, the result, and `IPState` after it (rule R9). -/
structure PortRun where
  out : List Word
  res : Reply
  ip : IPState
deriving DecidableEq, Repr

/-- The state component of a site. -/
def IPState.at (p : IPState) : Site → Nat
  | .seg c => Cells.get 0 p.seg c
  | .ola i => Cells.get 0 p.ola i

/-- `IPState` with the component of a site replaced. -/
def IPState.put (p : IPState) (x : Site) (st : Nat) : IPState :=
  match x with
  | .seg c => { p with seg := Cells.set 0 p.seg c st }
  | .ola i => { p with ola := Cells.set 0 p.ola i st }

/-- One more invocation. -/
def IPState.count (p : IPState) : IPState := { p with calls := p.calls + 1 }

/-- The fixture `F_SPEC`: forward transform of the vector's own length, the last coefficient cleared, inverse transform.
(The fixture is defined for the lengths the DCT has; the vector returned is cut to the length passed, rule R9.) -/
def specProcess (c : Config) (v : List Word) : List Word :=
  let y := dctForward (binary32 c) v.length v
  let z := dctInverse (binary32 c) v.length (y.set (v.length - 1) zeroSample)
  vec v.length fun j => z.getD j zeroSample

/-- `call ipp(site, v, env)` (rules R9, R11). The returned vector always has the length of the one passed. -/
def callPort (c : Config) (x : Site) (v : List Word) (env : Word) (p : IPState) : PortRun :=
  match c.port with
  | .platform =>
    let st := p.at x
    { out := vec v.length fun j => Config.ippOut x st v env j,
      res := Config.ippRes x st v env,
      ip := (p.put x (Config.ippNext x st v env)).count }
  | .fId m => { out := v, res := .ok m, ip := p.count }
  | .fAdd1 => { out := v.map fun a => fadd a oneSample, res := .ok 0, ip := p.count }
  | .fRev100 => { out := v.reverse.map fun a => fadd a 0x42C80000#32, res := .ok 0, ip := p.count }
  | .f2Neg =>
    { out := if x = .seg 0 then v.map fun a => fmul a 0x40000000#32 else v.map fneg, res := .ok 0, ip := p.count }
  | .fNeg m => { out := v.map fneg, res := .ok m, ip := p.count }
  | .fSpec => { out := specProcess c v, res := .ok 1, ip := p.count }
  | .fFail3 =>
    if p.calls = 2 then { out := v, res := .err 0xBAD#32, ip := p.count }
    else { out := v.map fun a => fadd a oneSample, res := .ok 0, ip := p.count }

end Sys2Proof.Machine
end

