-- ==== Sys2Proof/Machine/Ola.lean ====
section
/-! DEFINITION. The unit OLA: `OLA.CFG` (rule R106), `OLA.PROC` (rule R141), and the procedure `ola_process` (rule R142) that the
segmenter runs too. -/
namespace Sys2Proof.Machine

/-- The wrapper with its two sample buffers unspecified: after a command that was not numerically well-formed (U1), or after an
inner error (rule R149, U3). -/
def OlaInst.spoil (tick i : Nat) (o : OlaInst) : OlaInst :=
  { o with inBuf := freeVec tick (.inBuf i) (2 * o.b), outCarry := freeVec tick (.outCarry i) o.b, taint := true }

/-- A freshly constructed wrapper: the window `w`, both buffers `+0.0` (rules R51, R105, R106). When a coefficient is not finite
the constructing command is not numerically well-formed and every sample it writes is unspecified (rule R13). -/
def OlaInst.fresh (tick i b : Nat) (pre post : Bool) (w : List Word) : OlaInst :=
  let o : OlaInst :=
    { b := b, pre := pre, post := post, w := settle (allFinite w) tick (.window i) w,
      inBuf := List.replicate (2 * b) zeroSample, outCarry := List.replicate b zeroSample, taint := false }
  if allFinite w then o else o.spoil tick i

/-- The check of a window range: `2B` words at `OP_PTR0` (rule R106). -/
def windowRangeOk (s : State) (b : Nat) : Bool := Range.valid s.cfg.hmsize { addr := s.ptr0, size := 2 * b }

/-- `OLA.CFG` (rule R106). -/
def execOlaCfg (i : InstNo) (pre post : Bool) (s : State) : Host.Outcome State Fault Refusal :=
  if !blockSizeOk s.cfg s.len then .next (s.raise .config)
  else if !windowRangeOk s s.len then .next (s.raise .operand)
  else
    .next (s.putOla i (.configured
      (OlaInst.fresh s.tick i.toNat s.len pre post (s.memRead s.ptr0 (2 * s.len))))).complete

/-- `apply_window` of the window `w` of a wrapper with block size `b` to a vector of `2B` samples (rule R143). -/
def applyWindow {α : Type} (N : Numerics α) (b : Nat) (w v : List α) : List α :=
  vec (2 * b) fun j => N.mul (v.getD j N.zero) (w.getD j N.zero)

/-- Steps 2 and 4 of `ola_process`: the window is applied when the flag (`PRE` or `POST`) is 1 (rule R142). -/
def windowIf {α : Type} (N : Numerics α) (flag : Bool) (b : Nat) (w v : List α) : List α :=
  if flag then applyWindow N b w v else v

/-- Step 1 of `ola_process`: the sliding window after the block has come in (rule R142). -/
def olaSlide {α : Type} (b : Nat) (inBuf blk : List α) : List α := inBuf.drop b ++ blk

/-- Step 5: the block returned (rule R142). -/
def olaSum {α : Type} (N : Numerics α) (b : Nat) (work carry : List α) : List α :=
  vec b fun j => N.add (work.getD j N.zero) (carry.getD j N.zero)

/-- Step 6: the new carry (rule R142). -/
def olaCarry {α : Type} (N : Numerics α) (b : Nat) (work : List α) : List α := vec b fun j => work.getD (b + j) N.zero

/-- What `ola_process` yields: the wrapper after it, the block returned, the result, `IPState`, and whether everything so far was
numerically well-formed. -/
structure OlaRun where
  o : OlaInst
  out : List Word
  res : Reply
  ip : IPState
  ok : Bool
deriving DecidableEq, Repr

/-- `ola_process(O, blk, env)` for the wrapper of index `i` (rule R142). `ok` says whether the command was numerically
well-formed so far; if it was not, the vector handed to the inner processor is unspecified (U1). On `Err` steps 4 to 6 do not run
and the buffers are unspecified (rule R149); the block returned, which rule R142 calls unspecified, is a vector of free values that
no caller reads (DESIGN CHOICE of form, notes/assumptions/2.md). -/
def olaProcess (c : Config) (tick i : Nat) (env : Word) (o : OlaInst) (blk : List Word) (ok : Bool) (ip : IPState) : OlaRun :=
  let N := binary32 c
  let x := olaSlide o.b o.inBuf blk
  let work := windowIf N o.pre o.b o.w x
  let okIn := ok && !o.taint && allFinite x && allFinite work
  let p := callPort c (.ola i) (settle okIn tick (.portIn ip.calls) work) env ip
  match p.res with
  | .err _ => { o := o.spoil tick i, out := freeVec tick .data o.b, res := p.res, ip := p.ip, ok := okIn }
  | .ok _ =>
    let v := windowIf N o.post o.b o.w p.out
    let out := olaSum N o.b v o.outCarry
    { o := { o with inBuf := x, outCarry := olaCarry N o.b v }, out := out, res := p.res, ip := p.ip,
      ok := okIn && allFinite p.out && allFinite v && allFinite o.outCarry && allFinite out }

/-- The wrapper as a command that ends with `OK` leaves it: unspecified buffers when the command was not numerically
well-formed (U1). -/
def OlaInst.settled (ok : Bool) (tick i : Nat) (o : OlaInst) : OlaInst := if ok then o else o.spoil tick i

/-- What `OLA.PROC` does once its operands are checked (rules R141, R148, R149). -/
def olaEffect (i : InstNo) (o : OlaInst) (s : State) : State :=
  let r := olaProcess s.cfg s.tick i.toNat s.env o (s.memRead s.ptr0 o.b) true s.ip
  match r.res with
  | .err diag => ((s.putOla i (.faulted r.o)).setIp r.ip).raiseInner 0 diag
  | .ok msg =>
    ((((s.putOla i (.configured (r.o.settled r.ok s.tick i.toNat))).setIp r.ip).memWrite s.ptr0
      (settleWords r.ok s.tick .data r.out)).setMsg msg).complete

/-- `OLA.PROC` (rule R141). -/
def execOlaProc (i : InstNo) (s : State) : Host.Outcome State Fault Refusal :=
  match s.olaAt i with
  | .configured o =>
    if Range.valid s.cfg.hmsize { addr := s.ptr0, size := o.b } then .next (olaEffect i o s) else .next (s.raise .operand)
  | _ => .next (s.raise .state)

end Sys2Proof.Machine
end

