-- ==== Sys2Proof/Machine/Seg.lean ====
section
/-! DEFINITION. The unit SEG: `SEG.CFG.EXT` (rule R107), `SEG.CFG.OLA` (rule R108), `SEG.PROC` (rule R120). -/
namespace Sys2Proof.Machine

/-! ### Construction -/

/-- The capacities a segmenter may have (rule R107). -/
def segSizeOk (c : Config) (b n : Nat) : Bool :=
  decide (1 ≤ b) && decide (b ≤ c.bmax) && decide (1 ≤ n) && decide (n ≤ c.ninst)

/-- A freshly constructed channel: overflow buffer all `+0.0`, fill 0 (rule R51). When the constructing command is not
numerically well-formed its samples are unspecified (rule R13). -/
def Chan.fresh (ok : Bool) (tick c b : Nat) : Chan :=
  { ovf := settle ok tick (.ovf c) (List.replicate b zeroSample), fill := 0, taint := !ok }

/-- A freshly constructed segmenter of `n` channels (rules R107, R108). -/
def SegInst.fresh (ok : Bool) (tick b n : Nat) (inner : Binding) : SegInst :=
  { b := b, c := n, inner := inner, chans := vec n fun c => Chan.fresh ok tick c b }

/-- `SEG.CFG.EXT` (rule R107). -/
def execSegCfgExt (s : State) : Host.Outcome State Fault Refusal :=
  if segSizeOk s.cfg s.len s.nch then
    .next (s.setSeg (.configured (SegInst.fresh true s.tick s.len s.nch .ext))).complete
  else .next (s.raise .config)

/-- The wrappers `OLA[0]` to `OLA[n-1]` constructed alike, the others as they were (rule R108). -/
def bindWrappers (tick b n : Nat) (pre post : Bool) (w : List Word) (m : Cells (Slot OlaInst)) : Cells (Slot OlaInst) :=
  Cells.splice .unconfigured m 0 (vec n fun c => .configured (OlaInst.fresh tick c b pre post w))

/-- What `SEG.CFG.OLA` does once its configuration and its window range are checked (rule R108). -/
def segCfgOlaEffect (pre post : Bool) (s : State) : State :=
  let w := s.memRead s.ptr0 (2 * s.len)
  ((s.setSeg (.configured (SegInst.fresh (allFinite w) s.tick s.len s.nch .ola))).setOla
    (bindWrappers s.tick s.len s.nch pre post w s.ola)).complete

/-- `SEG.CFG.OLA` (rule R108). -/
def execSegCfgOla (pre post : Bool) (s : State) : Host.Outcome State Fault Refusal :=
  if !(segSizeOk s.cfg s.len s.nch && isPow2 s.len) then .next (s.raise .config)
  else if !windowRangeOk s s.len then .next (s.raise .operand)
  else .next (segCfgOlaEffect pre post s)

/-! ### One channel -/

/-- A channel while `SEG.PROC` runs over its row (rules R124, R126): the samples given back so far, `OVF[c]`, `FILL[c]`, the
bound wrapper (none when `INNER` is `EXT`), `IPState`, whether the command is numerically well-formed so far, and the
diagnostic of an inner error. -/
structure ChanRun where
  out : List Word
  ovf : List Word
  fill : Nat
  wrapper : Option OlaInst
  ip : IPState
  ok : Bool
  err : Option Word
deriving DecidableEq, Repr

/-- What the commands of one `SEG.PROC` keep fixed while a channel is processed. -/
structure SegEnv where
  cfg : Config
  tick : Nat
  /-- `OP_ENV` -/
  env : Word
  /-- `SEG.B` -/
  b : Nat
deriving DecidableEq, Repr

/-- `seg_inner(c, env)`: the complete block in `OVF[c]` is processed in place; the message is discarded (rules R125, R128). -/
def segInner (e : SegEnv) (c : Nat) (r : ChanRun) : ChanRun :=
  match r.wrapper with
  | none =>
    let p := callPort e.cfg (.seg c) (settle r.ok e.tick (.portIn r.ip.calls) r.ovf) e.env r.ip
    match p.res with
    | .err diag => { r with ip := p.ip, err := some diag }
    | .ok _ => { r with ovf := p.out, ip := p.ip, ok := r.ok && allFinite p.out }
  | some o =>
    let q := olaProcess e.cfg e.tick c e.env o r.ovf r.ok r.ip
    match q.res with
    | .err diag => { r with wrapper := some q.o, ip := q.ip, ok := q.ok, err := some diag }
    | .ok _ => { r with ovf := q.out, wrapper := some q.o, ip := q.ip, ok := q.ok }

/-- One sample of the row (rule R126): it is exchanged with the overflow-buffer element at the fill position, and the block is
processed at the moment it becomes full. After an inner error nothing more happens (rule R129). -/
def segSample (e : SegEnv) (c : Nat) (r : ChanRun) (x : Word) : ChanRun :=
  match r.err with
  | some _ => r
  | none =>
    let y := r.ovf.getD r.fill zeroSample
    let r1 : ChanRun :=
      { r with out := r.out ++ [y], ovf := r.ovf.set r.fill x, fill := r.fill + 1,
               ok := r.ok && isFinite x && isFinite y }
    if r1.fill = e.b then { segInner e c r1 with fill := 0 } else r1

/-- `seg_channel` on the samples of a row, in the per-sample form of rule R126. -/
def segRow (e : SegEnv) (c : Nat) (row : List Word) (r : ChanRun) : ChanRun := row.foldl (segSample e c) r

/-! ### The command -/

/-- What `SEG.PROC` changes while it runs: HM, the channels, the wrappers, `IPState`; whether it is numerically well-formed so
far; and the channel and diagnostic of an inner error. -/
structure SegRun where
  hm : Memory
  chans : List Chan
  ola : Cells (Slot OlaInst)
  ip : IPState
  ok : Bool
  err : Option (Nat × Word)
deriving DecidableEq, Repr

/-- The operands of one `SEG.PROC`: base, stride, samples per channel (rule R120). -/
structure SegOps where
  base : Nat
  stride : Nat
  n : Nat
deriving DecidableEq, Repr

/-- HM address of sample 0 of channel `c` (rule R69). -/
def SegOps.addr (k : SegOps) (c : Nat) : Nat := k.base + c * k.stride

/-- The wrapper bound to channel `c`, when the segmenter is bound to wrappers; `seg_check` has made sure that it is
`CONFIGURED` (rule R121). -/
def boundWrapper (inner : Binding) (m : Cells (Slot OlaInst)) (c : Nat) : Option OlaInst :=
  match inner, olaSlot m c with
  | .ola, .configured o => some o
  | _, _ => none

/-- The start of `seg_channel` for channel `c`: a channel whose overflow buffer is under U1 makes the command so when it is
read. -/
def chanStart (inner : Binding) (n c : Nat) (r : SegRun) : ChanRun :=
  let ch := r.chans.getD c default
  { out := [], ovf := ch.ovf, fill := ch.fill, wrapper := boundWrapper inner r.ola c, ip := r.ip,
    ok := r.ok && !(ch.taint && decide (0 < n)), err := none }

/-- The end of `seg_channel` for channel `c`: the row, the channel and its wrapper as the run over the row left them. -/
def chanEnd (tick : Nat) (k : SegOps) (c : Nat) (r : SegRun) (q : ChanRun) : SegRun :=
  { hm := r.hm.write (k.addr c) (settleWords q.ok tick (.row c) q.out),
    chans := r.chans.set c { ovf := q.ovf, fill := q.fill, taint := (r.chans.getD c default).taint },
    ola := match q.wrapper with
      | some o => putOla r.ola c (if q.err.isSome then .faulted o else .configured o)
      | none => r.ola,
    ip := q.ip, ok := q.ok, err := q.err.map fun d => (c, d) }

/-- `seg_channel(c, base + c*stride, N, env)` (rules R120, R124): channel `c` of the row buffer, unless an earlier channel ended
in an inner error. -/
def segChannel (e : SegEnv) (inner : Binding) (k : SegOps) (r : SegRun) (c : Nat) : SegRun :=
  match r.err with
  | some _ => r
  | none => chanEnd e.tick k c r (segRow e c (r.hm.read (k.addr c) k.n) (chanStart inner k.n c r))

/-- The channels `0` to `P-1`, one after another in ascending order (rule R123). -/
def segChannels (e : SegEnv) (inner : Binding) (k : SegOps) (p : Nat) (r : SegRun) : SegRun :=
  (List.range p).foldl (segChannel e inner k) r

/-- The rows `0` to `P-1` with unspecified samples (U1, U3). -/
def spoilRows (tick : Nat) (k : SegOps) (p : Nat) (m : Memory) : Memory :=
  (List.range p).foldl (fun m c => m.write (k.addr c) (freeWords tick (.row c) k.n)) m

/-- The wrapper of channel `c` with unspecified buffers when it is `CONFIGURED` and was invoked (U1); `chans` are the channels
before the command, from whose fill pointers the number of blocks follows. -/
def spoilWrapper (tick b n : Nat) (chans : List Chan) (m : Cells (Slot OlaInst)) (c : Nat) : Cells (Slot OlaInst) :=
  match olaSlot m c with
  | .configured o => if b ≤ (chans.getD c default).fill + n then putOla m c (.configured (o.spoil tick c)) else m
  | _ => m

/-- Likewise the wrappers of the channels `c < P` (U1). -/
def spoilWrappers (tick b n p : Nat) (chans : List Chan) (m : Cells (Slot OlaInst)) : Cells (Slot OlaInst) :=
  (List.range p).foldl (spoilWrapper tick b n chans) m

/-- The wrappers as `SEG.PROC` leaves them. -/
def settleWrappers (ok : Bool) (tick b n p : Nat) (inner : Binding) (chans : List Chan) (m : Cells (Slot OlaInst)) :
    Cells (Slot OlaInst) :=
  if !ok && inner = .ola then spoilWrappers tick b n p chans m else m

/-- A channel with an unspecified overflow buffer (U1). -/
def Chan.spoil (tick b c : Nat) (ch : Chan) : Chan := { ch with ovf := freeVec tick (.ovf c) b, taint := true }

/-- The channels as a `SEG.PROC` that ends with `OK` leaves them: when it was not numerically well-formed, the overflow
buffers of the processed channels are unspecified, their fill pointers as the rules say (U1). -/
def settleChans (ok : Bool) (tick b p : Nat) (chans : List Chan) : List Chan :=
  if ok then chans
  else vec chans.length fun c =>
    if c < p then (chans.getD c default).spoil tick b c else chans.getD c default

/-- A channel after an inner error: overflow buffer unspecified, fill pointer unspecified below `B` (U3). -/
def Chan.lost (tick b c : Nat) : Chan :=
  { ovf := freeVec tick (.ovf c) b, fill := (Config.freeSample tick (.fill c) 0).toNat % b, taint := true }

/-- The end of `SEG.PROC` without an inner error. -/
def segOk (k : SegOps) (p : Nat) (g : SegInst) (r : SegRun) (s : State) : State :=
  ((((s.setHm (if r.ok then r.hm else spoilRows s.tick k p r.hm)).setSeg
    (.configured { g with chans := settleChans r.ok s.tick g.b p r.chans })).setOla
    (settleWrappers r.ok s.tick g.b k.n p g.inner g.chans r.ola)).setIp r.ip).complete

/-- The end of `SEG.PROC` with an inner error `diag` on channel `c` (rule R129): every word of the processed rows, every
overflow buffer and every fill pointer unspecified, the segmenter (and its failing wrapper) `FAULTED`; the wrappers of earlier
channels and `IPState` as the completed invocations left them (U3). -/
def segErr (k : SegOps) (p : Nat) (g : SegInst) (r : SegRun) (c : Nat) (diag : Word) (s : State) : State :=
  ((((s.setHm (spoilRows s.tick k p r.hm)).setSeg
    (.faulted { g with chans := vec g.c fun j => Chan.lost s.tick g.b j })).setOla
    (settleWrappers r.ok s.tick g.b k.n c g.inner g.chans r.ola)).setIp r.ip).raiseInner c diag

/-- The third check of `seg_check`: every bound wrapper of a processed channel is `CONFIGURED` with the segmenter's `B`
(rule R121). -/
def wrappersOk (g : SegInst) (p : Nat) (m : Cells (Slot OlaInst)) : Bool :=
  match g.inner with
  | .ext => true
  | .ola => (List.range p).all fun c =>
    match olaSlot m c with
    | .configured o => o.b == g.b
    | _ => false

/-- The operands of `SEG.PROC` in the operand registers (rule R120). -/
def State.segOps (s : State) : SegOps := { base := s.ptr0, stride := s.stride, n := s.len }

/-- What is fixed while a `SEG.PROC` of segmenter `g` runs. -/
def State.segEnv (s : State) (g : SegInst) : SegEnv := { cfg := s.cfg, tick := s.tick, env := s.env, b := g.b }

/-- `SEG.PROC` up to its end: the channels `0` to `P-1` processed (rule R120). -/
def segRun (g : SegInst) (p : Nat) (s : State) : SegRun :=
  segChannels (s.segEnv g) g.inner s.segOps p
    { hm := s.hm, chans := g.chans, ola := s.ola, ip := s.ip, ok := true, err := none }

/-- What `SEG.PROC` does once its operands are checked (rules R120, R129). -/
def segEffect (g : SegInst) (p : Nat) (s : State) : State :=
  let r := segRun g p s
  match r.err with
  | none => segOk s.segOps p g r s
  | some (c, diag) => segErr s.segOps p g r c diag s

/-- The channels a `SEG.PROC` processes: `P = min(NCH, C)` (rules R120, R130). -/
def State.procChans (s : State) (g : SegInst) : Nat := min s.nch g.c

/-- `SEG.PROC` (rules R120, R121; the order of the checks is that of rule R218). -/
def execSegProc (s : State) : Host.Outcome State Fault Refusal :=
  match s.seg with
  | .configured g =>
    if s.nch = 0 then .next (s.raise .noChannels)
    else if !rowsOk s.cfg.hmsize s.ptr0 s.stride (s.procChans g) s.len then .next (s.raise .operand)
    else if !wrappersOk g (s.procChans g) s.ola then .next (s.raise .state)
    else .next (segEffect g (s.procChans g) s)
  | _ => .next (s.raise .state)

end Sys2Proof.Machine
end

