-- ==== Sys2Proof/Machine/System.lean ====
section
/-! DEFINITION. The unit SYS: `SYS.RESET` (rule R101), and the error of an illegal command word (rule R213). -/
namespace Sys2Proof.Machine

/-- `SYS.RESET` (rule R101): the state of rule R50; HM, `IPState` and the parameters untouched; always ends with `OK`. -/
def execSysReset (s : State) : Host.Outcome State Fault Refusal := .next s.resetBlock

/-- A command word that is illegal by rule R87: `STATUS <- ERR_ILLEGAL_CMD` and nothing else (rule R213). -/
def illegalCommand (s : State) : Host.Outcome State Fault Refusal := .next (s.raise .illegalCmd)

end Sys2Proof.Machine
end

