-- ==== Sys2Proof/Machine/Dispatch.lean ====
section
/-! DEFINITION. One arm for each command (table T84). -/
namespace Sys2Proof.Machine

def exec (i : Instr) (s : State) : Host.Outcome State Fault Refusal :=
  match i with
  | .sysReset => Sys2Proof.Machine.execSysReset s
  | .dctCfg inst => Sys2Proof.Machine.execDctCfg inst s
  | .dctFwd inst => Sys2Proof.Machine.execDctFwd inst s
  | .dctInv inst => Sys2Proof.Machine.execDctInv inst s
  | .mdctCfg inst => Sys2Proof.Machine.execMdctCfg inst s
  | .mdctFwd inst => Sys2Proof.Machine.execMdctFwd inst s
  | .mdctInv inst => Sys2Proof.Machine.execMdctInv inst s
  | .olaCfg inst pre post => Sys2Proof.Machine.execOlaCfg inst pre post s
  | .olaProc inst => Sys2Proof.Machine.execOlaProc inst s
  | .segCfgExt => Sys2Proof.Machine.execSegCfgExt s
  | .segCfgOla pre post => Sys2Proof.Machine.execSegCfgOla pre post s
  | .segProc => Sys2Proof.Machine.execSegProc s

end Sys2Proof.Machine
end

