-- ==== Sys2Proof/Machine/HostPort.lean ====
section
/-! DEFINITION. The host side of a step (rules R40, R41, R45, R60, R71, R257): taking the host's next action, carrying out those
that are not commands, and handing a command word to the sequencer. -/
namespace Sys2Proof.Machine

/-- The word offset of `CMD` (table T40). -/
def cmdOffset : Nat := 0

/-- What the host's next action asks of the block: a command word, to be executed in the given state, or something that is over
at once. -/
inductive Fetched where
  | command (w : Word) (s : State)
  | done (o : Host.Outcome State Fault Refusal)

/-- A host load of HM (rule R71): the value goes to the host. -/
def hostLoad (addr : Nat) (s : State) : Host.Outcome State Fault Refusal :=
  if addr < s.cfg.hmsize then .next (s.setRdata (s.hm.get addr)) else .fault (.hostAddress addr)

/-- A host store to HM (rule R71). -/
def hostStore (addr : Nat) (v : Word) (s : State) : Host.Outcome State Fault Refusal :=
  if addr < s.cfg.hmsize then .next (s.memWrite addr [.known v]) else .fault (.hostAddress addr)

/-- One host action. A write of `CMD` issues a command, which counts for the free values it may take (rule R41); every other
register access reads or writes the bank of table T40; hardware reset is rule R240. -/
def hostAct (a : HostAction) (s : State) : Fetched :=
  match a with
  | .regWrite offset v =>
    if offset = cmdOffset then .command v (s.setTick (s.tick + 1)) else .done (.next (s.setOps (s.ops.write offset v)))
  | .regRead offset => .done (.next (s.setRdata (s.readReg offset)))
  | .hmStore addr v => .done (hostStore addr v s)
  | .hmLoad addr => .done (hostLoad addr s)
  | .hardReset => .done (.next s.resetBlock)

/-- The host's next action. When there is none the block idles: nothing changes, for any length of time (rules R232, R241). -/
def fetch (s : State) : Fetched :=
  match s.pending with
  | [] => .done (.next s)
  | a :: rest => hostAct a (s.setPending rest)

/-- The state in which the command issued by the first pending action executes. -/
def State.issued (s : State) : State := (s.setPending s.pending.tail).setTick (s.tick + 1)

/-- The host's action that issues the command word `w`. -/
def issue (w : Word) : HostAction := .regWrite cmdOffset w

end Sys2Proof.Machine
end

