-- ==== Sys2Proof/Machine/Step.lean ====
section
/-! DEFINITION. One step: the host's next action; a command word is classified first and executed to its end (rules R7, R41,
R88). -/
namespace Sys2Proof.Machine

/-- One step of the machine (rules R7 and R257). -/
def step (s : State) : Host.Outcome State Fault Refusal :=
  match fetch s with
  | .done o => o
  | .command w t =>
    match classify t.cfg.ninst w with
    | .ok i => exec i t
    | .error _ => illegalCommand t

/-- The state whose next step runs the command word made of the low `nbits` bits of `w`: the block fetches no commands, so the
command is the host's next action (rules R22 and R41). notes/assumptions/8.md. -/
def State.withFetchWord (s : State) (nbits w : Nat) : State := s.setPending (issue (tableWord nbits w) :: s.pending)

end Sys2Proof.Machine
end

