-- ==== Sys2Proof/Safety.lean ====
section
/-! DEFINITION. What holds of the state of a block at any time: the canonical form of the sparse maps, the ranges that
construction enforces and no processing command re-checks (rule R100), the fixed lengths of the buffers (rule R110), the fields of
`STATUS` (rules R42, R211), and that only commands that were not numerically well-formed leave samples that are not finite in the
buffers of an instance (rule R13). -/
namespace Sys2Proof.Machine

/-- A condition on the fields of an instance, met by a slot that has none. -/
def Slot.all {α : Type} (p : α → Bool) : Slot α → Bool
  | .unconfigured => true
  | .configured x => p x
  | .faulted x => p x

/-- Whether an instance is `FAULTED`. -/
def Slot.isFaulted {α : Type} : Slot α → Bool
  | .faulted _ => true
  | _ => false

/-- A DCT instance as rules R25 and R102 allow it. -/
def DctInst.ok (c : Config) (d : DctInst) : Bool := dctLengthOk c d.n

/-- An MDCT instance as rules R27 and R104 allow it; a buffer that is not under U1 holds finite samples. -/
def MdctInst.ok (c : Config) (m : MdctInst) : Bool :=
  blockSizeOk c m.b && m.dctBuf.length == m.b && m.idctBuf.length == m.b && (m.dctTaint || allFinite m.dctBuf) &&
    (m.idctTaint || allFinite m.idctBuf)

/-- A wrapper as rules R28 and R106 allow it; buffers that are not under U1 hold finite samples. -/
def OlaInst.ok (c : Config) (o : OlaInst) : Bool :=
  blockSizeOk c o.b && o.w.length == 2 * o.b && o.inBuf.length == 2 * o.b && o.outCarry.length == o.b &&
    (o.taint || (allFinite o.w && allFinite o.inBuf && allFinite o.outCarry))

/-- A channel of a segmenter with block size `b` (rule R29: `0 <= FILL[c] < B`). -/
def Chan.ok (b : Nat) (ch : Chan) : Bool :=
  ch.ovf.length == b && decide (ch.fill < b) && (ch.taint || allFinite ch.ovf)

/-- A segmenter as rules R29, R107 and R108 allow it. -/
def SegInst.ok (c : Config) (g : SegInst) : Bool :=
  segSizeOk c g.b g.c && g.chans.length == g.c && g.chans.all (Chan.ok g.b) && (g.inner == .ext || isPow2 g.b)

/-- Every listed instance exists (`i < NINST`) and is as its rules allow it. -/
def slotsOk {α : Type} (ninst : Nat) (p : α → Bool) (m : Cells (Slot α)) : Bool :=
  m.all fun e => decide (e.1 < ninst) && e.2.all p

/-- The fields of `STATUS`: bits 31:16 zero, a code of table T211, and a channel only with `ERR_INNER` (rules R42, R211). -/
def statusOk (w : Word) : Bool :=
  w.extractLsb' 16 16 == 0#16 && decide ((statusCode w).toNat ≤ 6) && (statusChan w == 0 || statusCode w == innerCode)

/-- What holds of the state at any time. -/
structure State.Inv (s : State) : Prop where
  cfg : s.cfg.ok = true
  status : statusOk s.status = true
  hm : Memory.wf s.hm
  hmRange : ∀ p ∈ s.hm, p.1 < s.cfg.hmsize
  dct : Cells.wf .unconfigured s.dct
  dctOk : slotsOk s.cfg.ninst (DctInst.ok s.cfg) s.dct = true
  /-- only `ERR_INNER` faults an instance, and no inner processor runs in the transform units (rule R216) -/
  dctLive : s.dct.all (fun e => !e.2.isFaulted) = true
  mdct : Cells.wf .unconfigured s.mdct
  mdctOk : slotsOk s.cfg.ninst (MdctInst.ok s.cfg) s.mdct = true
  mdctLive : s.mdct.all (fun e => !e.2.isFaulted) = true
  ola : Cells.wf .unconfigured s.ola
  olaOk : slotsOk s.cfg.ninst (OlaInst.ok s.cfg) s.ola = true
  seg : s.seg.all (SegInst.ok s.cfg) = true
  ipSeg : Cells.wf 0 s.ip.seg
  ipOla : Cells.wf 0 s.ip.ola

end Sys2Proof.Machine
end

