-- ==== Sys2Proof/Certificates/Slice0/Obligations.lean ====
section
/-! DEFINITION. The statements for the provers, and what they are stated with: the conditions of the rules written out, the
procedures of the rules whose model has another form, and the operations of the real numbers. -/
open Sys2Proof Sys2Proof.Machine

/-! ## What the statements are stated with -/

namespace Sys2Proof.Stated

/-- Every field the rule R50 gives a value for has it. -/
def BlockReset (t : State) : Prop :=
  t.status = 0#32 ∧ t.msg = 0#32 ∧ t.diag = 0#32 ∧
    t.ops = { ptr0 := 0#32, ptr1 := 0#32, len := 0#32, stride := 0#32, nch := 0#32, env := 0#32 } ∧
    (∀ i, t.dctAt i = .unconfigured) ∧ (∀ i, t.mdctAt i = .unconfigured) ∧ (∀ i, t.olaAt i = .unconfigured) ∧
    t.seg = .unconfigured

/-- The parameters, the host's pending actions, its last read and the count of commands are as before. -/
def SameOutside (s t : State) : Prop :=
  t.cfg = s.cfg ∧ t.pending = s.pending ∧ t.rdata = s.rdata ∧ t.tick = s.tick

/-- The control registers other than `STATUS` are as before. -/
def SameControl (s t : State) : Prop := t.msg = s.msg ∧ t.diag = s.diag ∧ t.ops = s.ops

/-- A power of two (rule R103). -/
def PowerOfTwo (x : Nat) : Prop := ∃ k, x = 2 ^ k

/-- The operands of a command with two ranges: `m` words at `OP_PTR0` and `k` words at `OP_PTR1` end inside HM and do not
overlap (rule R63). -/
def RangesGood (s : State) (m k : Nat) : Prop :=
  s.ptr0 + m ≤ s.cfg.hmsize ∧ s.ptr1 + k ≤ s.cfg.hmsize ∧
    (m = 0 ∨ k = 0 ∨ s.ptr0 + m ≤ s.ptr1 ∨ s.ptr1 + k ≤ s.ptr0)

/-- Every word of HM outside the range `(addr, n)` reads as before. -/
def SameOutsideRange (s t : State) (addr n : Nat) : Prop := ∀ a, a < addr ∨ addr + n ≤ a → t.hm.get a = s.hm.get a

/-- The rows `0` to `p-1` of the buffer of a `SEG.PROC` end inside HM and no two of them overlap, or they are empty (rules R69,
R121). -/
def RowsGood (s : State) (p : Nat) : Prop :=
  s.len = 0 ∨
    (∀ c < p, s.ptr0 + c * s.stride + s.len ≤ s.cfg.hmsize) ∧
      ∀ c < p, ∀ e < c, s.ptr0 + e * s.stride + s.len ≤ s.ptr0 + c * s.stride ∨
        s.ptr0 + c * s.stride + s.len ≤ s.ptr0 + e * s.stride

/-- Every bound wrapper of a processed channel is `CONFIGURED` with the segmenter's `B` (rule R121). -/
def WrappersGood (s : State) (g : SegInst) (p : Nat) : Prop :=
  g.inner = .ola → ∀ c < p, ∃ o, olaSlot s.ola c = .configured o ∧ o.b = g.b

/-- The error of a command whose word is legal, by the order of checks of rule R218; none when the command executes. -/
noncomputable def firstError (i : Instr) (s : State) : Option (BitVec 8) :=
  open Classical in
  match i with
  | .sysReset => none
  | .dctCfg _ => if PowerOfTwo s.len ∧ 2 ≤ s.len ∧ s.len ≤ 2 * s.cfg.bmax then none else some 3
  | .dctFwd i | .dctInv i =>
    match s.dctAt i with
    | .configured d => if RangesGood s d.n d.n then none else some 6
    | _ => some 5
  | .mdctCfg _ => if PowerOfTwo s.len ∧ 1 ≤ s.len ∧ s.len ≤ s.cfg.bmax then none else some 3
  | .mdctFwd i =>
    match s.mdctAt i with
    | .configured m => if RangesGood s m.b (2 * m.b) then none else some 6
    | _ => some 5
  | .mdctInv i =>
    match s.mdctAt i with
    | .configured m => if RangesGood s (2 * m.b) m.b then none else some 6
    | _ => some 5
  | .olaCfg _ _ _ =>
    if ¬ (PowerOfTwo s.len ∧ 1 ≤ s.len ∧ s.len ≤ s.cfg.bmax) then some 3
    else if s.ptr0 + 2 * s.len ≤ s.cfg.hmsize then none else some 6
  | .olaProc i =>
    match s.olaAt i with
    | .configured o => if s.ptr0 + o.b ≤ s.cfg.hmsize then none else some 6
    | _ => some 5
  | .segCfgExt =>
    if 1 ≤ s.len ∧ s.len ≤ s.cfg.bmax ∧ 1 ≤ s.nch ∧ s.nch ≤ s.cfg.ninst then none else some 3
  | .segCfgOla _ _ =>
    if ¬ (PowerOfTwo s.len ∧ 1 ≤ s.len ∧ s.len ≤ s.cfg.bmax ∧ 1 ≤ s.nch ∧ s.nch ≤ s.cfg.ninst) then some 3
    else if s.ptr0 + 2 * s.len ≤ s.cfg.hmsize then none else some 6
  | .segProc =>
    match s.seg with
    | .configured g =>
      if s.nch = 0 then some 1
      else if ¬ RowsGood s (min s.nch g.c) then some 6
      else if ¬ WrappersGood s g (min s.nch g.c) then some 5
      else none
    | _ => some 5

/-- The ranges of HM that a command may write (table T86); `a` is a word address. -/
def Writes (i : Instr) (s : State) (a : Nat) : Prop :=
  match i with
  | .dctFwd i | .dctInv i =>
    ∃ d, s.dctAt i = .configured d ∧
      ((s.ptr0 ≤ a ∧ a < s.ptr0 + d.n) ∨ (s.ptr1 ≤ a ∧ a < s.ptr1 + d.n))
  | .mdctFwd i => ∃ m, s.mdctAt i = .configured m ∧ s.ptr1 ≤ a ∧ a < s.ptr1 + 2 * m.b
  | .mdctInv i => ∃ m, s.mdctAt i = .configured m ∧ s.ptr1 ≤ a ∧ a < s.ptr1 + m.b
  | .olaProc i => ∃ o, s.olaAt i = .configured o ∧ s.ptr0 ≤ a ∧ a < s.ptr0 + o.b
  | .segProc =>
    ∃ g, s.seg = .configured g ∧
      ∃ c < min s.nch g.c, s.ptr0 + c * s.stride ≤ a ∧ a < s.ptr0 + c * s.stride + s.len
  | _ => False

/-- Whether a command is one of the construction commands or `SYS.RESET`. -/
def Constructs : Instr → Prop
  | .sysReset | .dctCfg _ | .mdctCfg _ | .olaCfg _ _ _ | .segCfgExt | .segCfgOla _ _ => True
  | _ => False

/-- What construction fixes of a wrapper: `B`, `PRE`, `POST`, `W` (rule R28). -/
def olaFixed (x : Slot OlaInst) : Option (Nat × Bool × Bool × List Word) :=
  match x with
  | .unconfigured => none
  | .configured o => some (o.b, o.pre, o.post, o.w)
  | .faulted o => some (o.b, o.pre, o.post, o.w)

/-- What construction fixes of an MDCT instance. -/
def mdctFixed (x : Slot MdctInst) : Option Nat :=
  match x with
  | .unconfigured => none
  | .configured m => some m.b
  | .faulted m => some m.b

/-- What construction fixes of the segmenter: `B`, `C`, `INNER` (rule R29). -/
def segFixed (x : Slot SegInst) : Option (Nat × Nat × Binding) :=
  match x with
  | .unconfigured => none
  | .configured g => some (g.b, g.c, g.inner)
  | .faulted g => some (g.b, g.c, g.inner)

/-! ### The two-buffer procedures of rules R164 and R167 -/

variable {α : Type}

/-- The array `D` with the value `x` at index `a`. -/
def put (D : Nat → α) (a : Nat) (x : α) : Nat → α := fun i => if i = a then x else D i

/-- `for j in 0..n-1: D <- body j D`. -/
def loop {β : Type} (n : Nat) (body : Nat → β → β) (D : β) : β := (List.range n).foldl (fun D j => body j D) D

/-- `fwd_rec(D, S, off, L)` of rule R164 with `L = 2^(d+1)`, on two arrays that swap roles; the result is the two arrays. -/
def fwdInPlace (N : Numerics α) : (d : Nat) → (D S : Nat → α) → (off : Nat) → (Nat → α) × (Nat → α)
  | 0, D, S, off =>
    let a := D off
    let b := D (off + 1)
    (put (put D off (N.add a b)) (off + 1) (N.mul (N.sub a b) (N.k 2 0)), S)
  | d + 1, D, S, off =>
    let l := 2 ^ (d + 2)
    let h := 2 ^ (d + 1)
    let S1 := loop h (fun j S =>
      put (put S (off + j) (N.add (D (off + j)) (D (off + l - 1 - j)))) (off + h + j)
        (N.mul (N.sub (D (off + j)) (D (off + l - 1 - j))) (N.k l j))) S
    let (S2, D2) := fwdInPlace N d S1 D off
    let (S3, D3) := fwdInPlace N d S2 D2 (off + h)
    let D4 := loop (h - 1) (fun j D =>
      put (put D (off + 2 * j) (S3 (off + j))) (off + 2 * j + 1) (N.add (S3 (off + h + j)) (S3 (off + h + j + 1)))) D3
    (put (put D4 (off + l - 2) (S3 (off + h - 1))) (off + l - 1) (S3 (off + l - 1)), S3)

/-- `inv_rec(D, S, off, L)` of rule R167 with `L = 2^(d+1)`. -/
def invInPlace (N : Numerics α) : (d : Nat) → (D S : Nat → α) → (off : Nat) → (Nat → α) × (Nat → α)
  | 0, D, S, off =>
    let a := D off
    let b := N.mul (D (off + 1)) (N.k 2 0)
    (put (put D off (N.add a b)) (off + 1) (N.sub a b), S)
  | d + 1, D, S, off =>
    let l := 2 ^ (d + 2)
    let h := 2 ^ (d + 1)
    let S0 := put (put S off (D off)) (off + h) (D (off + 1))
    let S1 := loop (h - 1) (fun i S =>
      let j := i + 1
      put (put S (off + j) (D (off + 2 * j))) (off + h + j) (N.add (D (off + 2 * j - 1)) (D (off + 2 * j + 1)))) S0
    let (S2, D2) := invInPlace N d S1 D off
    let (S3, D3) := invInPlace N d S2 D2 (off + h)
    let D4 := loop h (fun j D =>
      let a := S3 (off + j)
      let b := N.mul (S3 (off + h + j)) (N.k l j)
      put (put D (off + j) (N.add a b)) (off + l - 1 - j) (N.sub a b)) D3
    (D4, S3)

/-! ### The block-wise procedure of rule R124 -/

/-- `swap(addr, k, lo)` of rule R124, the `k` samples `xs` of the row being exchanged with `OVF[lo .. lo+k)`. -/
def swapBlock (xs : List Word) (lo : Nat) (r : ChanRun) : ChanRun :=
  { r with out := r.out ++ (r.ovf.drop lo).take xs.length,
           ovf := r.ovf.take lo ++ xs ++ r.ovf.drop (lo + xs.length),
           ok := r.ok && allFinite xs && allFinite ((r.ovf.drop lo).take xs.length) }

/-- The loop over the complete chunks of a row and the trailing samples after them (source steps 2 and 3 of rule R124). -/
def chunkLoop (e : SegEnv) (c : Nat) : (fuel : Nat) → List Word → ChanRun → ChanRun
  | 0, _, r => r
  | fuel + 1, xs, r =>
    match r.err with
    | some _ => r
    | none =>
      if e.b ≤ xs.length then chunkLoop e c fuel (xs.drop e.b) (segInner e c (swapBlock (xs.take e.b) 0 r))
      else { swapBlock xs 0 r with fill := xs.length }

/-- `seg_channel` as rule R124 writes it, on the samples of a row. -/
def channelByBlocks (e : SegEnv) (c : Nat) (row : List Word) (r : ChanRun) : ChanRun :=
  if 0 < r.fill then
    let index := e.b - r.fill
    if row.length < index then { swapBlock row r.fill r with fill := r.fill + row.length }
    else chunkLoop e c (row.length + 1) (row.drop index)
      (segInner e c { swapBlock (row.take index) r.fill r with fill := 0 })
  else chunkLoop e c (row.length + 1) row r

/-! ### The procedure of rule R142 on samples that rule R13 does not except -/

/-- `INBUF` after step 1 for the block `blk`. -/
def slid (o : OlaInst) (blk : List Word) : List Word := o.inBuf.drop o.b ++ blk

/-- `apply_window` (rule R143). -/
def windowed (o : OlaInst) (v : List Word) : List Word :=
  (List.range (2 * o.b)).map fun j => fmul (v.getD j 0#32) (o.w.getD j 0#32)

/-- The vector `work` that steps 1 and 2 hand over to the inner processor. -/
def handedOver (o : OlaInst) (blk : List Word) : List Word := if o.pre then windowed o (slid o blk) else slid o blk

/-- The vector `work` after step 4, `v` being what the inner processor returned. -/
def reweighted (o : OlaInst) (v : List Word) : List Word := if o.post then windowed o v else v

/-- The vector `out` of step 5. -/
def summed (o : OlaInst) (v : List Word) : List Word :=
  (List.range o.b).map fun j => fadd ((reweighted o v).getD j 0#32) (o.outCarry.getD j 0#32)

/-- The wrapper after steps 1 and 6. -/
def advanced (o : OlaInst) (blk v : List Word) : OlaInst :=
  { o with inBuf := slid o blk, outCarry := (List.range o.b).map fun j => (reweighted o v).getD (o.b + j) 0#32 }

/-! ### The invocations of a channel (rules R125, R127) -/

/-- The site, and the vector handed over to the inner processor there, when channel `c` processes the complete block in its
overflow buffer. Under U1 the vector is unspecified (notes/assumptions/2.md, 7.md). -/
def handed (e : SegEnv) (c : Nat) (r : ChanRun) : Site × List Word :=
  match r.wrapper with
  | none => (.seg c, settle r.ok e.tick (.portIn r.ip.calls) r.ovf)
  | some o =>
    let work := handedOver o r.ovf
    (.ola c, settle (r.ok && !o.taint && allFinite (slid o r.ovf) && allFinite work) e.tick (.portIn r.ip.calls) work)

/-- What is handed over, one entry for each invocation, while channel `c` takes in the samples of a row. -/
def invocations (e : SegEnv) (c : Nat) : List Word → ChanRun → List (Site × List Word)
  | [], _ => []
  | x :: row, r =>
    (if r.err = none ∧ r.fill + 1 = e.b then [handed e c (swapBlock [x] r.fill r)] else []) ++
      invocations e c row (segSample e c r x)

/-- The first `m` blocks of the stream `x` through the inner processor of channel `c`, the port or the wrapper: the
concatenation of the vectors `seg_inner` returns (`Y` of rule R127), and the wrapper and `IPState` after them. -/
def streamRun (e : SegEnv) (c : Nat) :
    (m : Nat) → (x : List Word) → Option OlaInst → IPState → List Word × Option OlaInst × IPState
  | 0, _, w, ip => ([], w, ip)
  | m + 1, x, none, ip =>
    let p := callPort e.cfg (.seg c) (x.take e.b) e.env ip
    let y := streamRun e c m (x.drop e.b) none p.ip
    (p.out ++ y.1, y.2)
  | m + 1, x, some o, ip =>
    let blk := x.take e.b
    let p := callPort e.cfg (.ola c) (handedOver o blk) e.env ip
    let y := streamRun e c m (x.drop e.b) (some (advanced o blk p.out)) p.ip
    (summed o p.out ++ y.1, y.2)

/-- A channel of a freshly configured segmenter of block size `b`, bound to the port (`wrapper` is none) or to a wrapper. -/
def freshChannel (b : Nat) (wrapper : Option OlaInst) (ip : IPState) : ChanRun :=
  { out := [], ovf := List.replicate b zeroSample, fill := 0, wrapper := wrapper, ip := ip, ok := true, err := none }

/-! ### The vectors inside a transform -/

/-- The inputs and the results of a forward recursion and of all the recursions nested in it (rule R164). -/
def fwdValues (N : Numerics α) : (d : Nat) → List α → List (List α)
  | 0, x => [x, fwdRec N 0 x]
  | d + 1, x =>
    let l := 2 ^ (d + 2)
    let sums := (List.range (2 ^ (d + 1))).map fun j => N.add (x.getD j N.zero) (x.getD (l - 1 - j) N.zero)
    let differences := (List.range (2 ^ (d + 1))).map fun j =>
      N.mul (N.sub (x.getD j N.zero) (x.getD (l - 1 - j) N.zero)) (N.k l j)
    x :: fwdRec N (d + 1) x :: (fwdValues N d sums ++ fwdValues N d differences)

/-- The inputs and the results of an inverse recursion and of all the recursions nested in it (rule R167). -/
def invValues (N : Numerics α) : (d : Nat) → List α → List (List α)
  | 0, y => [y, invRec N 0 y]
  | d + 1, y =>
    let evens := (List.range (2 ^ (d + 1))).map fun j => y.getD (2 * j) N.zero
    let odds := (List.range (2 ^ (d + 1))).map fun j =>
      if j = 0 then y.getD 1 N.zero else N.add (y.getD (2 * j - 1) N.zero) (y.getD (2 * j + 1) N.zero)
    y :: invRec N (d + 1) y :: (invValues N d evens ++ invValues N d odds)

/-! ### The real numbers -/

/-- The operations and constants of the real numbers, with an MDCT window `wm` (rules R160 to R163, R192). -/
noncomputable def realNumerics (wm : Nat → Nat → ℝ) : Numerics ℝ :=
  { zero := 0, add := fun a b => a + b, sub := fun a b => a - b, mul := fun a b => a * b, half := 1 / 2,
    scale := fun n => 2 / n, k := fun l j => 1 / (2 * Real.cos ((j + 1 / 2) * Real.pi / l)), wm := wm }

/-- The sum of rule R160. -/
noncomputable def dct2 (n : Nat) (x : Nat → ℝ) (k : Nat) : ℝ :=
  2 / n * (if k = 0 then 1 / 2 else 1) *
    ∑ j ∈ Finset.range n, x j * Real.cos (Real.pi * (2 * j + 1) * k / (2 * n))

/-- The sum of rule R161. -/
noncomputable def dct3 (n : Nat) (y : Nat → ℝ) (j : Nat) : ℝ :=
  ∑ k ∈ Finset.range n, y k * Real.cos (Real.pi * (2 * j + 1) * k / (2 * n))

end Sys2Proof.Stated

open Sys2Proof.Stated

/-! ## Encoding -/

/-- Decoding the word of a command gives the command back, and every command with `INST < NINST` is classified as itself. -/
def Obligations.DecodeAfterEncode : Prop :=
  ∀ i : Instr, decode (encode i) = .ok i ∧ ∀ ninst, i.wf ninst = true → classify ninst (encode i) = .ok i

/-- A word that decodes is the word of the command it decodes to: no two words mean one command, and no bit is ignored. -/
def Obligations.EncodeAfterDecode : Prop := ∀ (w : Word) (i : Instr), decode w = .ok i → encode i = w

/-- The patterns of table T84 are pairwise exclusive: no word matches two of its rows. -/
def Obligations.TableRowsExclusive : Prop :=
  opTable.Pairwise fun r q => ∀ w : Word, ¬ (r.accepts w = true ∧ q.accepts w = true)

/-- The illegal words are those of rule R87, field by field: a reserved unit, an operation the unit does not define, a
reserved bit, a flag the command does not define, or an instance number out of range. -/
def Obligations.IllegalWordsAreThose : Prop :=
  ∀ (ninst : Nat) (w : Word),
    let unit := (w.extractLsb' 28 4).toNat
    let op := (w.extractLsb' 24 4).toNat
    let inst := (w.extractLsb' 16 8).toNat
    let inner := w.getLsbD 2
    let flags := w.getLsbD 1 || w.getLsbD 0
    (∃ e, classify ninst w = .error e) ↔
      (5 ≤ unit ∨
        (unit = 0 ∧ op ≠ 1) ∨ ((unit = 1 ∨ unit = 2) ∧ 3 ≤ op) ∨ ((unit = 3 ∨ unit = 4) ∧ 2 ≤ op) ∨
        w.extractLsb' 3 13 ≠ 0#13 ∨
        (inner = true ∧ ¬ (unit = 4 ∧ op = 0)) ∨
        (flags = true ∧ ¬ (unit = 3 ∧ op = 0) ∧ ¬ (unit = 4 ∧ op = 0 ∧ inner = true)) ∨
        ((unit = 1 ∨ unit = 2 ∨ unit = 3) ∧ ninst ≤ inst) ∨ ((unit = 0 ∨ unit = 4) ∧ inst ≠ 0))

/-- The words of vector V18 decode to the commands they stand for; the all-zero word is illegal. -/
def Obligations.WordsOfTheVectorsDecode : Prop :=
  decode 0x01000000#32 = .ok .sysReset ∧ decode 0x10000000#32 = .ok (.dctCfg 0) ∧ decode 0x11030000#32 = .ok (.dctFwd 3) ∧
    decode 0x20010000#32 = .ok (.mdctCfg 1) ∧ decode 0x22010000#32 = .ok (.mdctInv 1) ∧
    decode 0x30000001#32 = .ok (.olaCfg 0 true false) ∧ decode 0x30020003#32 = .ok (.olaCfg 2 true true) ∧
    decode 0x31030000#32 = .ok (.olaProc 3) ∧ decode 0x40000000#32 = .ok .segCfgExt ∧
    decode 0x40000007#32 = .ok (.segCfgOla true true) ∧ decode 0x41000000#32 = .ok .segProc ∧
    decode 0x00000000#32 = .error .noRow

/-! ## The step and the host -/

/-- When the host's next action writes a legal command word to `CMD`, a step is the execution of that command with the operand
registers as they are. (The queue of host actions and the count of commands are the model's own: notes/assumptions/8.md,
2.md.) -/
def Obligations.StepRunsDecodedCommand : Prop :=
  ∀ (s : State) (w : Word) (rest : List HostAction) (i : Instr),
    s.pending = .regWrite 0 w :: rest → classify s.cfg.ninst w = .ok i →
      step s = exec i { s with pending := rest, tick := s.tick + 1 }

/-- An illegal command word changes `STATUS`, to 4, and nothing else of the block. (The queue of host actions and the count of
commands: notes/assumptions/8.md, 2.md.) -/
def Obligations.IllegalWordSetsStatusOnly : Prop :=
  ∀ (s : State) (w : Word) (rest : List HostAction) (e : Reject),
    s.pending = .regWrite 0 w :: rest → classify s.cfg.ninst w = .error e →
      step s = .next { s with pending := rest, tick := s.tick + 1, status := 4#32 }

/-- A host write of a control register other than `CMD`, then a host read: an operand register returns what was written, the
other operand registers, `STATUS`, `MSG` and `DIAG` return what they held, `CMD` and the offsets above 0x9 return 0; the write
changes only operand registers, the read changes nothing of the block. (The queue of host actions and the place of the value
read are the model's own: notes/assumptions/8.md, 11.md.) -/
def Obligations.RegisterBankReadsBack : Prop :=
  ∀ (s : State) (a b : Nat) (v : Word) (rest : List HostAction), a ≠ 0 →
    s.pending = .regWrite a v :: .regRead b :: rest →
      ∃ t u, step s = .next t ∧ step t = .next u ∧
        u.rdata =
          (if b = a ∧ 4 ≤ a ∧ a ≤ 9 then v
          else if b = 1 then s.status else if b = 2 then s.msg else if b = 3 then s.diag
          else if b = 4 then s.ops.ptr0 else if b = 5 then s.ops.ptr1 else if b = 6 then s.ops.len
          else if b = 7 then s.ops.stride else if b = 8 then s.ops.nch else if b = 9 then s.ops.env else 0#32) ∧
        (a < 4 ∨ 9 < a → u.ops = s.ops) ∧
        { u with ops := s.ops, rdata := s.rdata, pending := s.pending } = s

/-- A host store of a word of HM is seen by the host's later load and changes no other word; an access at or above `HMSIZE`
stops the machine (the model's choice, notes/assumptions/9.md). -/
def Obligations.HostMemoryReadsBack : Prop :=
  ∀ (s : State) (a b : Nat) (v : Word) (rest : List HostAction),
    s.pending = .hmStore a v :: .hmLoad b :: rest →
      (a < s.cfg.hmsize → ∃ t, step s = .next t ∧ { t with hm := s.hm, pending := s.pending } = s ∧
        (∀ k, t.hm.get k = if k = a then v else s.hm.get k) ∧
        (b < s.cfg.hmsize → ∃ u, step t = .next u ∧ u.rdata = (if b = a then v else s.hm.get b) ∧ u.hm = t.hm) ∧
        (s.cfg.hmsize ≤ b → step t = .fault (.hostAddress b))) ∧
      (s.cfg.hmsize ≤ a → step s = .fault (.hostAddress a))

/-- With no host action pending the block idles: nothing changes. (The queue: notes/assumptions/8.md.) -/
def Obligations.IdleChangesNothing : Prop := ∀ s : State, s.pending = [] → step s = .next s

/-! ## Reset -/

/-- The state after reset has the values rule R50 gives, and so has the state after `SYS.RESET`, the word `0x01000000`, which
always ends with `OK`, leaves HM, the parameters and the host's side as they were, and issued twice is the same as once. -/
def Obligations.ResetGivesSpecifiedState : Prop :=
  BlockReset State.reset ∧ decode 0x01000000#32 = .ok .sysReset ∧
    ∀ s : State, ∃ t, exec .sysReset s = .next t ∧ BlockReset t ∧ t.hm = s.hm ∧ SameOutside s t ∧ exec .sysReset t = .next t

/-- Hardware reset, as an action of the host between two commands, gives those values too; it and `SYS.RESET` leave the inner
processors' state as it was. (The action and `IPState` across reset are the model's choice: notes/assumptions/8.md, 12.md.) -/
def Obligations.HardwareResetGivesSpecifiedState : Prop :=
  (∀ (s : State) (rest : List HostAction), s.pending = .hardReset :: rest →
    ∃ t, step s = .next t ∧ BlockReset t ∧ t.hm = s.hm ∧ t.ip = s.ip ∧ SameOutside { s with pending := rest } t) ∧
  ∀ s t : State, exec .sysReset s = .next t → t.ip = s.ip

/-! ## Construction -/

/-- `DCT.CFG`, the word `0x10ii0000`: a power of two from 2 to `2*BMAX` in `OP_LEN` makes `DCT[i]` a transform of that length,
whatever its state, and changes nothing else but `STATUS`; any other length ends with `ERR_CONFIG`. -/
def Obligations.DctCfgConstructs : Prop :=
  (∀ i : InstNo, decode (0x10#8 ++ i ++ 0x0000#16) = .ok (.dctCfg i)) ∧ ∀ (i : InstNo) (s : State),
    (PowerOfTwo s.len ∧ 2 ≤ s.len ∧ s.len ≤ 2 * s.cfg.bmax →
      ∃ t, exec (.dctCfg i) s = .next t ∧ t.status = 0#32 ∧ t.dctAt i = .configured { n := s.len } ∧
        (∀ j, j ≠ i → t.dctAt j = s.dctAt j) ∧ { t with dct := s.dct, status := s.status } = s) ∧
    (¬ (PowerOfTwo s.len ∧ 2 ≤ s.len ∧ s.len ≤ 2 * s.cfg.bmax) → exec (.dctCfg i) s = .next { s with status := 3#32 })

/-- `MDCT.CFG`, the word `0x20ii0000`: a power of two from 1 to `BMAX` in `OP_LEN` makes `MDCT[i]` a fresh instance with zero
buffers, whatever its state, and changes nothing else but `STATUS`; any other size ends with `ERR_CONFIG`. (The flags that
mark buffers under U1 are the model's own: notes/assumptions/2.md.) -/
def Obligations.MdctCfgConstructs : Prop :=
  (∀ i : InstNo, decode (0x20#8 ++ i ++ 0x0000#16) = .ok (.mdctCfg i)) ∧ ∀ (i : InstNo) (s : State),
    (PowerOfTwo s.len ∧ 1 ≤ s.len ∧ s.len ≤ s.cfg.bmax →
      ∃ t, exec (.mdctCfg i) s = .next t ∧ t.status = 0#32 ∧
        t.mdctAt i = .configured
          { b := s.len, dctBuf := List.replicate s.len 0#32, idctBuf := List.replicate s.len 0#32, dctTaint := false,
            idctTaint := false } ∧
        (∀ j, j ≠ i → t.mdctAt j = s.mdctAt j) ∧ { t with mdct := s.mdct, status := s.status } = s) ∧
    (¬ (PowerOfTwo s.len ∧ 1 ≤ s.len ∧ s.len ≤ s.cfg.bmax) → exec (.mdctCfg i) s = .next { s with status := 3#32 })

/-- `OLA.CFG`, the word `0x30ii0000 + 2*POST + PRE`: a bad block size ends with `ERR_CONFIG`, then a window range outside HM
with `ERR_OPERAND`; otherwise `OLA[i]` is a fresh wrapper with the command's flags and, for a finite window, the window read
from HM and zero buffers; nothing else changes but `STATUS`. (The flags that mark buffers under U1 are the model's own:
notes/assumptions/2.md.) -/
def Obligations.OlaCfgConstructs : Prop :=
  (∀ (i : InstNo) (pre post : Bool),
    decode (0x30#8 ++ i ++ (0#14 ++ BitVec.ofBool post ++ BitVec.ofBool pre)) = .ok (.olaCfg i pre post)) ∧
  ∀ (i : InstNo) (pre post : Bool) (s : State),
    let good := PowerOfTwo s.len ∧ 1 ≤ s.len ∧ s.len ≤ s.cfg.bmax
    (¬ good → exec (.olaCfg i pre post) s = .next { s with status := 3#32 }) ∧
    (good → s.cfg.hmsize < s.ptr0 + 2 * s.len → exec (.olaCfg i pre post) s = .next { s with status := 6#32 }) ∧
    (good → s.ptr0 + 2 * s.len ≤ s.cfg.hmsize →
      ∃ t o, exec (.olaCfg i pre post) s = .next t ∧ t.status = 0#32 ∧ t.olaAt i = .configured o ∧
        o.b = s.len ∧ o.pre = pre ∧ o.post = post ∧
        (∀ j, j ≠ i → t.olaAt j = s.olaAt j) ∧ { t with ola := s.ola, status := s.status } = s ∧
        (allFinite (s.memRead s.ptr0 (2 * s.len)) = true →
          o.w = s.memRead s.ptr0 (2 * s.len) ∧ o.inBuf = List.replicate (2 * s.len) 0#32 ∧
            o.outCarry = List.replicate s.len 0#32 ∧ o.taint = false))

/-- `SEG.CFG.EXT`, the word `0x40000000`: with `1 <= B <= BMAX` and `1 <= C <= NINST` the segmenter is fresh, bound to the
port, with `C` channels of zeros and fill 0, whatever its state, and nothing else changes but `STATUS`; otherwise
`ERR_CONFIG`. (The flags that mark buffers under U1 are the model's own: notes/assumptions/2.md.) -/
def Obligations.SegCfgExtConstructs : Prop :=
  decode 0x40000000#32 = .ok .segCfgExt ∧ ∀ s : State,
    (1 ≤ s.len ∧ s.len ≤ s.cfg.bmax ∧ 1 ≤ s.nch ∧ s.nch ≤ s.cfg.ninst →
      ∃ t, exec .segCfgExt s = .next t ∧ t.status = 0#32 ∧
        t.seg = .configured
          { b := s.len, c := s.nch, inner := .ext,
            chans := List.replicate s.nch { ovf := List.replicate s.len 0#32, fill := 0, taint := false } } ∧
        { t with seg := s.seg, status := s.status } = s) ∧
    (¬ (1 ≤ s.len ∧ s.len ≤ s.cfg.bmax ∧ 1 ≤ s.nch ∧ s.nch ≤ s.cfg.ninst) →
      exec .segCfgExt s = .next { s with status := 3#32 })

/-- `SEG.CFG.OLA`, the word `0x40000004 + 2*POST + PRE`: the checks of `SEG.CFG.EXT`, and a power of two, and a window inside
HM; otherwise the segmenter is bound to the wrappers, and each `OLA[c]`, `c < C`, is what `OLA.CFG` would make of it; the
other wrappers and everything else but `STATUS` are as before. (The flags that mark buffers under U1 are the model's own:
notes/assumptions/2.md.) -/
def Obligations.SegCfgOlaConstructs : Prop :=
  (∀ pre post : Bool,
    decode (0x4000000#28 ++ 1#2 ++ BitVec.ofBool post ++ BitVec.ofBool pre) = .ok (.segCfgOla pre post)) ∧
  ∀ (pre post : Bool) (s : State),
    let good := PowerOfTwo s.len ∧ 1 ≤ s.len ∧ s.len ≤ s.cfg.bmax ∧ 1 ≤ s.nch ∧ s.nch ≤ s.cfg.ninst
    (¬ good → exec (.segCfgOla pre post) s = .next { s with status := 3#32 }) ∧
    (good → s.cfg.hmsize < s.ptr0 + 2 * s.len → exec (.segCfgOla pre post) s = .next { s with status := 6#32 }) ∧
    (good → s.ptr0 + 2 * s.len ≤ s.cfg.hmsize →
      ∃ t g, exec (.segCfgOla pre post) s = .next t ∧ t.status = 0#32 ∧ t.seg = .configured g ∧
        g.b = s.len ∧ g.c = s.nch ∧ g.inner = .ola ∧
        (allFinite (s.memRead s.ptr0 (2 * s.len)) = true →
          g.chans = List.replicate s.nch { ovf := List.replicate s.len 0#32, fill := 0, taint := false }) ∧
        (∀ (c : InstNo) (u : State), c.toNat < s.nch → exec (.olaCfg c pre post) s = .next u → t.olaAt c = u.olaAt c) ∧
        (∀ c, s.nch ≤ c → olaSlot t.ola c = olaSlot s.ola c) ∧
        { t with seg := s.seg, ola := s.ola, status := s.status } = s)

/-! ## The transform commands -/

/-- What `DCT.FWD` and `DCT.INV` share, for the first eight bits `op` of the word and the transform `f`: `ERR_STATE` without a
configured instance, `ERR_OPERAND` for bad ranges, and otherwise the `n` samples at `OP_PTR0` are replaced by their transform
(when samples and results are finite), the `n` words at `OP_PTR1` are overwritten, and nothing else changes but `STATUS`. -/
def Sys2Proof.Stated.DctCommand (op : BitVec 8) (command : InstNo → Instr) (f : Config → Nat → List Word → List Word) :
    Prop :=
  (∀ i : InstNo, decode (op ++ i ++ 0x0000#16) = .ok (command i)) ∧ ∀ (i : InstNo) (s : State),
    ((∀ d, s.dctAt i ≠ .configured d) → exec (command i) s = .next { s with status := 5#32 }) ∧
    ∀ d, s.dctAt i = .configured d → PowerOfTwo d.n → 2 ≤ d.n →
      (¬ RangesGood s d.n d.n → exec (command i) s = .next { s with status := 6#32 }) ∧
      (RangesGood s d.n d.n →
        ∃ t, exec (command i) s = .next t ∧ t.status = 0#32 ∧ { t with hm := s.hm, status := s.status } = s ∧
          (∀ a, a < s.ptr0 ∨ s.ptr0 + d.n ≤ a → a < s.ptr1 ∨ s.ptr1 + d.n ≤ a → t.hm.get a = s.hm.get a) ∧
          (allFinite (s.memRead s.ptr0 d.n) = true → allFinite (f s.cfg d.n (s.memRead s.ptr0 d.n)) = true →
            t.memRead s.ptr0 d.n = f s.cfg d.n (s.memRead s.ptr0 d.n)))

/-- `DCT.FWD`, the word `0x11ii0000`: `ERR_STATE` without a configured instance, `ERR_OPERAND` for bad ranges, and otherwise
the `n` samples at `OP_PTR0` are replaced by `dct_forward(n, x)` (when samples and results are finite), the `n` words at
`OP_PTR1` are overwritten, and nothing else changes but `STATUS`. -/
def Obligations.DctFwdTransformsInPlace : Prop := DctCommand 0x11 .dctFwd fun c n x => dctForward (binary32 c) n x

/-- `DCT.INV`, the word `0x12ii0000`: likewise with `dct_inverse(n, y)`: `ERR_STATE` without a configured instance,
`ERR_OPERAND` for bad ranges, and otherwise the samples replaced, the scratch words overwritten, and nothing else changed but
`STATUS`. -/
def Obligations.DctInvTransformsInPlace : Prop := DctCommand 0x12 .dctInv fun c n y => dctInverse (binary32 c) n y

/-- `MDCT.FWD`, the word `0x21ii0000`: the errors; otherwise the `2B` words at `OP_PTR1` are written with the forward DCT of
`DCTBUF ++ blk`, `DCTBUF` becomes `blk` (for finite samples), and nothing else changes: neither the input block, nor
`IDCTBUF`, nor another instance. (The flags that mark buffers under U1 are the model's own: notes/assumptions/2.md.) -/
def Obligations.MdctFwdTransformsLapped : Prop :=
  (∀ i : InstNo, decode (0x21#8 ++ i ++ 0x0000#16) = .ok (.mdctFwd i)) ∧ ∀ (i : InstNo) (s : State),
    ((∀ m, s.mdctAt i ≠ .configured m) → exec (.mdctFwd i) s = .next { s with status := 5#32 }) ∧
    ∀ m, s.mdctAt i = .configured m → PowerOfTwo m.b →
      (¬ RangesGood s m.b (2 * m.b) → exec (.mdctFwd i) s = .next { s with status := 6#32 }) ∧
      (RangesGood s m.b (2 * m.b) →
        ∃ t p, exec (.mdctFwd i) s = .next t ∧ t.status = 0#32 ∧
          { t with hm := s.hm, mdct := s.mdct, status := s.status } = s ∧
          SameOutsideRange s t s.ptr1 (2 * m.b) ∧ (∀ j, j ≠ i → t.mdctAt j = s.mdctAt j) ∧
          t.mdctAt i = .configured p ∧ p.b = m.b ∧ p.idctBuf = m.idctBuf ∧ p.idctTaint = m.idctTaint ∧
          (let blk := s.memRead s.ptr0 m.b
          let y := dctForward (binary32 s.cfg) (2 * m.b) (m.dctBuf ++ blk)
          m.dctTaint = false → allFinite m.dctBuf = true → allFinite blk = true → allFinite y = true →
            t.memRead s.ptr1 (2 * m.b) = y ∧ p.dctBuf = blk ∧ p.dctTaint = false))

/-- `MDCT.INV`, the word `0x22ii0000`: the errors; otherwise the `B` words at `OP_PTR1` are the windowed first half of the
inverse DCT plus `IDCTBUF`, `IDCTBUF` becomes the windowed trailing half (for finite samples), and nothing else changes. (The
flags that mark buffers under U1 are the model's own: notes/assumptions/2.md.) -/
def Obligations.MdctInvOverlapAdds : Prop :=
  (∀ i : InstNo, decode (0x22#8 ++ i ++ 0x0000#16) = .ok (.mdctInv i)) ∧ ∀ (i : InstNo) (s : State),
    ((∀ m, s.mdctAt i ≠ .configured m) → exec (.mdctInv i) s = .next { s with status := 5#32 }) ∧
    ∀ m, s.mdctAt i = .configured m → PowerOfTwo m.b →
      (¬ RangesGood s (2 * m.b) m.b → exec (.mdctInv i) s = .next { s with status := 6#32 }) ∧
      (RangesGood s (2 * m.b) m.b →
        ∃ t p, exec (.mdctInv i) s = .next t ∧ t.status = 0#32 ∧
          { t with hm := s.hm, mdct := s.mdct, status := s.status } = s ∧
          SameOutsideRange s t s.ptr1 m.b ∧ (∀ j, j ≠ i → t.mdctAt j = s.mdctAt j) ∧
          t.mdctAt i = .configured p ∧ p.b = m.b ∧ p.dctBuf = m.dctBuf ∧ p.dctTaint = m.dctTaint ∧
          (let y := s.memRead s.ptr0 (2 * m.b)
          let x := dctInverse (binary32 s.cfg) (2 * m.b) y
          let out := (List.range m.b).map fun j =>
            fadd (fmul (wmConst s.cfg m.b j) (x.getD j 0#32)) (m.idctBuf.getD j 0#32)
          let carry := (List.range m.b).map fun j => fmul (wmConst s.cfg m.b (m.b + j)) (x.getD (m.b + j) 0#32)
          m.idctTaint = false → allFinite m.idctBuf = true → allFinite y = true → allFinite out = true →
            allFinite carry = true → t.memRead s.ptr1 m.b = out ∧ p.idctBuf = carry ∧ p.idctTaint = false))

/-! ## The overlap-add command -/

/-- `OLA.PROC`, the word `0x31ii0000`: the errors; otherwise the procedure of rule R142 with the inner processor at `OLA(i)`.
It is handed the `work` of steps 1 and 2 (when the samples are finite and the wrapper is not under U1; another vector of that
length otherwise). On `Ok` the status is `OK` and `MSG` the message, the wrapper stays `CONFIGURED`, and (when every sample is
finite too) the block at `OP_PTR0` is the sum of step 5 and `INBUF` and `OUTCARRY` are those of steps 1 and 6; on `Err` HM and
`MSG` are as before, `DIAG` is the diagnostic and the wrapper is `FAULTED`. Nothing else changes. (The flags that mark buffers
under U1 are the model's own, and finiteness of the samples at hand is its reading of rule R13: notes/assumptions/2.md, 3.md,
7.md.) -/
def Obligations.OlaProcRunsProcedure : Prop :=
  (∀ i : InstNo, decode (0x31#8 ++ i ++ 0x0000#16) = .ok (.olaProc i)) ∧ ∀ (i : InstNo) (s : State),
    ((∀ o, s.olaAt i ≠ .configured o) → exec (.olaProc i) s = .next { s with status := 5#32 }) ∧
    ∀ o, s.olaAt i = .configured o →
      (s.cfg.hmsize < s.ptr0 + o.b → exec (.olaProc i) s = .next { s with status := 6#32 }) ∧
      (s.ptr0 + o.b ≤ s.cfg.hmsize →
        ∃ t u, exec (.olaProc i) s = .next t ∧
          { t with hm := s.hm, ola := s.ola, ip := s.ip, msg := s.msg, diag := s.diag, status := s.status } = s ∧
          SameOutsideRange s t s.ptr0 o.b ∧ (∀ j, j ≠ i → t.olaAt j = s.olaAt j) ∧
          olaFixed (t.olaAt i) = olaFixed (s.olaAt i) ∧
          (let blk := s.memRead s.ptr0 o.b
          let work := handedOver o blk
          let specified := o.taint = false ∧ allFinite (slid o blk) = true ∧ allFinite work = true
          let r := callPort s.cfg (.ola i.toNat) u s.ops.env s.ip
          u.length = work.length ∧ (specified → u = work) ∧ t.ip = r.ip ∧
            (∀ msg, r.res = .ok msg →
              t.status = 0#32 ∧ t.msg = msg ∧ t.diag = s.diag ∧ ∃ p, t.olaAt i = .configured p ∧
                (specified → allFinite r.out = true → allFinite (reweighted o r.out) = true →
                  allFinite o.outCarry = true → allFinite (summed o r.out) = true →
                    t.memRead s.ptr0 o.b = summed o r.out ∧ p = advanced o blk r.out)) ∧
            (∀ d, r.res = .err d →
              t.status = 2#32 ∧ t.msg = s.msg ∧ t.diag = d ∧ t.hm = s.hm ∧ ∃ p, t.olaAt i = .faulted p)))

/-! ## The segmenter -/

/-- The run of channel `c` of a `SEG.PROC` from the state before the command, given `IPState` and the well-formedness flag it
starts with. -/
def Sys2Proof.Stated.channelRun (s : State) (g : SegInst) (c : Nat) (ip : IPState) (ok : Bool) : ChanRun :=
  let ch := g.chans.getD c default
  channelByBlocks (s.segEnv g) c (s.memRead (s.ptr0 + c * s.stride) s.len)
    { out := [], ovf := ch.ovf, fill := ch.fill, wrapper := boundWrapper g.inner s.ola c, ip := ip,
      ok := ok && !(ch.taint && decide (0 < s.len)), err := none }

/-- The runs of the channels one after another, each from what the one before left of `IPState` and of the flag (rule R123). (No
statement says anything of the runs after one that ends in an inner error.) -/
def Sys2Proof.Stated.channelRuns (s : State) (g : SegInst) : (c : Nat) → ChanRun
  | 0 => channelRun s g 0 s.ip true
  | c + 1 => channelRun s g (c + 1) (channelRuns s g c).ip (channelRuns s g c).ok

/-- What every `SEG.PROC` that is executed, from `s` to `t`, leaves as it was: everything but HM, the segmenter, the wrappers,
`IPState`, `DIAG` and `STATUS`; every word of HM outside the rows of the `p` processed channels; the wrappers from `p` on. -/
def Sys2Proof.Stated.SegProcFrame (s t : State) (p : Nat) : Prop :=
  { t with hm := s.hm, seg := s.seg, ola := s.ola, ip := s.ip, diag := s.diag, status := s.status } = s ∧
    (∀ a, (∀ c < p, a < s.ptr0 + c * s.stride ∨ s.ptr0 + c * s.stride + s.len ≤ a) → t.hm.get a = s.hm.get a) ∧
    ∀ c, p ≤ c → olaSlot t.ola c = olaSlot s.ola c

/-- `SEG.PROC` refuses, in this order, a segmenter that is not `CONFIGURED`, a buffer without channels, rows outside HM or
overlapping, and an unusable bound wrapper; it then changes nothing but `STATUS`. (Empty rows are always good:
notes/assumptions/10.md.) -/
def Obligations.SegProcRefusesInOrder : Prop :=
  ∀ s : State,
    ((∀ g, s.seg ≠ .configured g) → exec .segProc s = .next { s with status := 5#32 }) ∧
    ∀ g, s.seg = .configured g →
      let p := min s.nch g.c
      (s.nch = 0 → exec .segProc s = .next { s with status := 1#32 }) ∧
      (s.nch ≠ 0 → ¬ RowsGood s p → exec .segProc s = .next { s with status := 6#32 }) ∧
      (s.nch ≠ 0 → RowsGood s p → ¬ WrappersGood s g p → exec .segProc s = .next { s with status := 5#32 })

/-- `SEG.PROC` whose checks pass and whose channels `0` to `P-1`, run one after another by rule R124, end without an inner
error: the status is `OK`; each processed channel's fill pointer, and (when the command is numerically well-formed) its row,
its overflow buffer and its wrapper, are what its run gives; the channels that are not processed are as before. (Rows as in
`SegProcRefusesInOrder`; numerically well-formed as in notes/assumptions/2.md, 7.md.) -/
def Obligations.SegProcRunsChannelsInOrder : Prop :=
  ∀ (s : State) (g : SegInst), s.seg = .configured g → g.ok s.cfg = true →
    let p := min s.nch g.c
    let q := channelRuns s g
    s.nch ≠ 0 → RowsGood s p → WrappersGood s g p → (∀ c < p, (q c).err = none) →
      ∃ t h, exec .segProc s = .next t ∧ SegProcFrame s t p ∧
        t.status = 0#32 ∧ t.diag = s.diag ∧ t.ip = (q (p - 1)).ip ∧
        t.seg = .configured h ∧ h.b = g.b ∧ h.c = g.c ∧ h.inner = g.inner ∧
        (∀ c, p ≤ c → h.chans.getD c default = g.chans.getD c default) ∧
        (∀ c < p, (h.chans.getD c default).fill = (q c).fill) ∧
        ((q (p - 1)).ok = true → ∀ c < p,
          t.memRead (s.ptr0 + c * s.stride) s.len = (q c).out ∧
          (h.chans.getD c default).ovf = (q c).ovf ∧
          (∀ o, (q c).wrapper = some o → olaSlot t.ola c = .configured o) ∧
          ((q c).wrapper = none → olaSlot t.ola c = olaSlot s.ola c))

/-- `SEG.PROC` whose channel `c` ends in an inner error, the channels before it having ended well: the status is `ERR_INNER`
with the channel, `DIAG` holds the diagnostic, the segmenter and the failing wrapper are `FAULTED`; the invocations that
completed stand: a bound wrapper of a channel before `c` is `CONFIGURED`, and (when the command is numerically well-formed) as
that channel's run left it, and `IPState` is what the invocations made left; the channels after `c` are not processed. A
segmenter bound to the port changes no wrapper. (Rows as in notes/assumptions/10.md; numerically well-formed as in
notes/assumptions/2.md, 7.md.) -/
def Obligations.SegProcInnerErrorAborts : Prop :=
  ∀ (s : State) (g : SegInst), s.seg = .configured g → g.ok s.cfg = true →
    let p := min s.nch g.c
    let q := channelRuns s g
    s.nch ≠ 0 → RowsGood s p → WrappersGood s g p →
      ∀ c < p, ∀ d, (∀ e < c, (q e).err = none) → (q c).err = some d →
        ∃ t h, exec .segProc s = .next t ∧ SegProcFrame s t p ∧
          t.status = statusWord 2 (BitVec.ofNat 8 c) ∧ t.diag = d ∧ t.ip = (q c).ip ∧
          t.seg = .faulted h ∧ h.b = g.b ∧ h.c = g.c ∧ h.inner = g.inner ∧
          (g.inner = .ola → (∃ o, olaSlot t.ola c = .faulted o) ∧ ∀ e < c, ∃ o, olaSlot t.ola e = .configured o) ∧
          (g.inner = .ext → ∀ e, olaSlot t.ola e = olaSlot s.ola e) ∧
          ((q c).ok = true → ∀ e < c, ∀ o, (q e).wrapper = some o → olaSlot t.ola e = .configured o) ∧
          ∀ e, c < e → olaSlot t.ola e = olaSlot s.ola e

/-- The per-sample form of `seg_channel` and the block-wise procedure of rule R124 have the same effect, on every row and from
every channel between commands. -/
def Obligations.PerSampleEqualsBlockwise : Prop :=
  ∀ (e : SegEnv) (c : Nat) (row : List Word) (r : ChanRun),
    1 ≤ e.b → r.ovf.length = e.b → r.fill < e.b → r.err = none →
      (∀ o, r.wrapper = some o → o.b = e.b) →
      segRow e c row r = channelByBlocks e c row r

/-- `seg_inner` runs what the channel is bound to. Bound to the port, the block in `OVF` is handed over as it is, and `OVF`
becomes the vector returned; bound to a wrapper, it goes through the procedure of rule R142: steps 1 and 2 give the vector
handed over, `OVF` becomes the sum of step 5, and the wrapper is that of steps 1 and 6. The message is discarded; an error
leaves `OVF`, is reported, and a bound wrapper keeps what its construction fixed. The first clause holds of every block, the
last two of specified samples: on a wrapper not under U1 and finite samples handed over. (Those conditions are the model's own
form of U1, and the processors and `IPState` are of its own form too: notes/assumptions/2.md, 3.md, 7.md.) -/
def Obligations.SegInnerRunsItsBinding : Prop :=
  ∀ (e : SegEnv) (c : Nat) (r : ChanRun),
    let q := segInner e c r
    (let v := handed e c r
    let p := callPort e.cfg v.1 v.2 e.env r.ip
    q.ip = p.ip ∧ q.out = r.out ∧ q.fill = r.fill ∧ (r.wrapper = none → q.wrapper = none) ∧
      (∀ o, r.wrapper = some o → ∃ w, q.wrapper = some w ∧ olaFixed (.configured w) = olaFixed (.configured o)) ∧
      (∀ m, p.res = .ok m → q.err = r.err) ∧ ∀ d, p.res = .err d → q.err = some d ∧ q.ovf = r.ovf) ∧
    (r.ok = true → r.wrapper = none →
      let p := callPort e.cfg (.seg c) r.ovf e.env r.ip
      (∀ m, p.res = .ok m → q = { r with ovf := p.out, ip := p.ip, ok := allFinite p.out }) ∧
      ∀ d, p.res = .err d → q = { r with ip := p.ip, err := some d }) ∧
    (r.ok = true → ∀ o, r.wrapper = some o → o.taint = false → allFinite (slid o r.ovf) = true →
      allFinite (handedOver o r.ovf) = true →
        let p := callPort e.cfg (.ola c) (handedOver o r.ovf) e.env r.ip
        (∀ m, p.res = .ok m →
          q =
            { r with
              ovf := summed o p.out, wrapper := some (advanced o r.ovf p.out), ip := p.ip,
              ok := allFinite p.out && allFinite (reweighted o p.out) && allFinite o.outCarry && allFinite (summed o p.out) }) ∧
        ∀ d, p.res = .err d → ∃ w, q = { r with wrapper := some w, ip := p.ip, err := some d })

/-- The stream law, at the level of the runs of one channel over its rows: however a stream is cut into calls, a freshly
configured channel, bound to the port or to a wrapper of its block size, gives back `B` samples `+0.0` followed by the outputs of
its inner processor, block by block, cut to the stream's length; the fill pointer is the remainder, and the wrapper and
`IPState` are as those blocks left them. (For a numerically well-formed stream, as in
notes/assumptions/2.md, 7.md; the processors' state as in 3.md.) -/
def Obligations.SegmenterDelaysStreamByBlock : Prop :=
  ∀ (e : SegEnv) (c : Nat) (parts : List (List Word)) (w : Option OlaInst) (ip : IPState), 1 ≤ e.b →
    (∀ o, w = some o → o.b = e.b) →
      let x := parts.flatten
      let r := parts.foldl (fun r part => segRow e c part r) (freshChannel e.b w ip)
      let y := streamRun e c (x.length / e.b) x w ip
      r.err = none → r.ok = true →
        r.out = (List.replicate e.b 0#32 ++ y.1).take x.length ∧ r.fill = x.length % e.b ∧ r.wrapper = y.2.1 ∧ r.ip = y.2.2

/-- The invocations a channel makes over a row: each is made at the channel's own site, with a vector of exactly `B` samples at
the port, `2B` at a wrapper; `IPState` is as they left it, one after another; and a row of `N` samples that ends without an
inner error makes `(FILL + N) / B` of them, one for each completed block. (The count of invocations kept in `IPState`, and what
is handed over under U1, are the model's own: notes/assumptions/3.md, 2.md, 7.md.) -/
def Obligations.OneInvocationPerCompletedBlock : Prop :=
  ∀ (e : SegEnv) (c : Nat) (row : List Word) (r : ChanRun),
    1 ≤ e.b → r.ovf.length = e.b → r.fill < e.b → r.err = none →
      (∀ o, r.wrapper = some o → o.b = e.b ∧ o.inBuf.length = 2 * e.b) →
      let q := segRow e c row r
      let v := invocations e c row r
      q.ip = v.foldl (fun ip x => (callPort e.cfg x.1 x.2 e.env ip).ip) r.ip ∧
        (r.wrapper = none → ∀ x ∈ v, x.1 = .seg c ∧ x.2.length = e.b) ∧
        (r.wrapper ≠ none → ∀ x ∈ v, x.1 = .ola c ∧ x.2.length = 2 * e.b) ∧
        (q.err = none →
          v.length = (r.fill + row.length) / e.b ∧ q.ip.calls = r.ip.calls + v.length ∧
            q.fill = (r.fill + row.length) % e.b ∧ q.ovf.length = e.b ∧ q.out.length = r.out.length + row.length)

/-- `SEG.PROC` with `N = 0` and at least one channel, on a block whose maps are in canonical form, ends with `OK`, whatever base
and stride are (notes/assumptions/10.md), and changes nothing but `STATUS`. -/
def Obligations.SegProcOfNothingChangesNothing : Prop :=
  ∀ (s : State) (g : SegInst), s.Inv → s.seg = .configured g → s.nch ≠ 0 → s.len = 0 → WrappersGood s g (min s.nch g.c) →
    exec .segProc s = .next { s with status := 0#32 }

/-- The step of one channel writes only that channel's row, its overflow buffer and fill pointer, its wrapper, and of `IPState`
only the components of its own two sites and the count of invocations (the model's own: notes/assumptions/3.md). What it reads
is said by `ChannelDependsOnlyOnItsOwn`. -/
def Obligations.ChannelTouchesOnlyItsOwn : Prop :=
  ∀ (e : SegEnv) (inner : Binding) (k : SegOps) (r : SegRun) (c : Nat),
    let t := segChannel e inner k r c
    (∀ a, a < k.base + c * k.stride ∨ k.base + c * k.stride + k.n ≤ a → t.hm.get a = r.hm.get a) ∧
    (∀ j, j ≠ c → t.chans.getD j default = r.chans.getD j default ∧ olaSlot t.ola j = olaSlot r.ola j ∧
      t.ip.at (.seg j) = r.ip.at (.seg j) ∧ t.ip.at (.ola j) = r.ip.at (.ola j))

/-- What a channel's step gives depends only on its own row, overflow buffer, fill pointer and wrapper, on the components of
`IPState` of its own two sites, on the count of invocations made so far and on whether the command is numerically well-formed so
far: two runs that agree on those agree on its results, whatever the other channels, their wrappers and their processors' states
are. (The count and the flag are the model's own: notes/assumptions/3.md, 2.md.) -/
def Obligations.ChannelDependsOnlyOnItsOwn : Prop :=
  ∀ (e : SegEnv) (inner : Binding) (k : SegOps) (r u : SegRun) (c : Nat),
    r.err = none → u.err = none → c < r.chans.length → c < u.chans.length →
    (∀ j < k.n, r.hm.get (k.base + c * k.stride + j) = u.hm.get (k.base + c * k.stride + j)) →
    r.chans.getD c default = u.chans.getD c default → olaSlot r.ola c = olaSlot u.ola c →
    r.ip.at (.seg c) = u.ip.at (.seg c) → r.ip.at (.ola c) = u.ip.at (.ola c) → r.ip.calls = u.ip.calls → r.ok = u.ok →
      let t := segChannel e inner k r c
      let v := segChannel e inner k u c
      t.err = v.err ∧ t.ok = v.ok ∧ t.ip.calls = v.ip.calls ∧ t.ip.at (.seg c) = v.ip.at (.seg c) ∧
        t.ip.at (.ola c) = v.ip.at (.ola c) ∧ t.chans.getD c default = v.chans.getD c default ∧
        olaSlot t.ola c = olaSlot v.ola c ∧
        ∀ j < k.n, t.hm.get (k.base + c * k.stride + j) = v.hm.get (k.base + c * k.stride + j)

/-! ## Rules about all commands -/

/-- Every command ends, in every state, with a status word of rule R42 whose code is one of table T211; `CHAN` is nonzero only
after a `SEG.PROC` that ends with `ERR_INNER`. -/
def Obligations.EveryCommandEndsWithStatus : Prop :=
  ∀ (i : Instr) (s : State), ∃ t, exec i s = .next t ∧ t.status.extractLsb' 16 16 = 0#16 ∧
    (statusCode t.status).toNat ≤ 6 ∧ (statusChan t.status ≠ 0#8 → statusCode t.status = 2#8 ∧ i = .segProc)

/-- The status a command ends with is that of the first check that fails, in the order of rule R218; a command whose checks all
pass ends with `OK`, or with `ERR_INNER` if it is `OLA.PROC` or `SEG.PROC`. -/
def Obligations.ChecksAreInOrder : Prop :=
  ∀ (i : Instr) (s : State), ∃ t, exec i s = .next t ∧
    match firstError i s with
    | some code => statusCode t.status = code
    | none => statusCode t.status = 0#8 ∨
      (statusCode t.status = 2#8 ∧ (i = .segProc ∨ ∃ j, i = .olaProc j))

/-- A command that ends with an error other than `ERR_INNER` has changed nothing but `STATUS`. -/
def Obligations.ErrorsBeforeExecutionArePrecise : Prop :=
  ∀ (i : Instr) (s t : State), exec i s = .next t → statusCode t.status ≠ 0#8 → statusCode t.status ≠ 2#8 →
    t = { s with status := t.status }

/-- No command changes the parameters, the host's pending actions or the value the host last read; only `SYS.RESET` changes an
operand register; `MSG` changes only by `SYS.RESET` and by an `OLA.PROC` that ends with `OK`, `DIAG` only by `SYS.RESET` and by
a command that ends with `ERR_INNER`; `IPState` only by `OLA.PROC` and `SEG.PROC`. -/
def Obligations.ControlRegistersAreKept : Prop :=
  ∀ (i : Instr) (s t : State), exec i s = .next t →
    SameOutside s t ∧ (i ≠ .sysReset → t.ops = s.ops) ∧
      (t.msg ≠ s.msg → i = .sysReset ∨ ((∃ j, i = .olaProc j) ∧ t.status = 0#32)) ∧
      (t.diag ≠ s.diag → i = .sysReset ∨ statusCode t.status = 2#8) ∧
      (t.ip ≠ s.ip → i = .segProc ∨ ∃ j, i = .olaProc j)

/-- A command writes no word of HM outside the ranges table T86 marks as written (in a state that meets the invariant). -/
def Obligations.CommandsWriteOnlyTheirRanges : Prop :=
  ∀ (i : Instr) (s t : State) (a : Nat), s.Inv → exec i s = .next t → t.hm.get a ≠ s.hm.get a → Writes i s a

/-- A command on one instance changes no other instance: an instance changes only by `SYS.RESET`, by a command that names it,
or, for a wrapper, by a segmenter command that is bound to it. -/
def Obligations.InstancesAreNotShared : Prop :=
  ∀ (i : Instr) (s t : State) (j : InstNo), exec i s = .next t → i ≠ .sysReset →
    (t.dctAt j ≠ s.dctAt j → i = .dctCfg j) ∧
    (t.mdctAt j ≠ s.mdctAt j → i = .mdctCfg j ∨ i = .mdctFwd j ∨ i = .mdctInv j) ∧
    (t.olaAt j ≠ s.olaAt j → (∃ pre post, i = .olaCfg j pre post) ∨ i = .olaProc j ∨
      ((∃ pre post, i = .segCfgOla pre post) ∧ j.toNat < s.nch) ∨
      (i = .segProc ∧ ∃ g, s.seg = .configured g ∧ g.inner = .ola ∧ j.toNat < min s.nch g.c)) ∧
    (t.seg ≠ s.seg → i = .segCfgExt ∨ (∃ pre post, i = .segCfgOla pre post) ∨ i = .segProc)

/-- What construction fixes of an instance, no processing command changes: the transform length, the block sizes, the window and
its flags, the channel count and the binding. -/
def Obligations.ConstructionValuesAreKept : Prop :=
  ∀ (i : Instr) (s t : State), exec i s = .next t → ¬ Constructs i →
    t.dct = s.dct ∧ (∀ j, mdctFixed (t.mdctAt j) = mdctFixed (s.mdctAt j)) ∧
      (∀ c, olaFixed (olaSlot t.ola c) = olaFixed (olaSlot s.ola c)) ∧ segFixed t.seg = segFixed s.seg

/-- An instance becomes `FAULTED` only by a command that ends with `ERR_INNER`; a `FAULTED` instance leaves that state only by
`SYS.RESET` or its own construction command: the `*.CFG` that names it, for a wrapper also a `SEG.CFG.OLA` that binds it; no DCT
or MDCT instance is ever faulted by a command. -/
def Obligations.FaultedComesAndGoesAsSpecified : Prop :=
  ∀ (i : Instr) (s t : State), exec i s = .next t →
    (∀ c, (olaSlot s.ola c).isFaulted = false → (olaSlot t.ola c).isFaulted = true →
      statusCode t.status = 2#8 ∧ ((∃ j : InstNo, i = .olaProc j ∧ j.toNat = c) ∨ i = .segProc)) ∧
    (s.seg.isFaulted = false → t.seg.isFaulted = true → statusCode t.status = 2#8 ∧ i = .segProc) ∧
    (∀ c, (olaSlot s.ola c).isFaulted = true → (olaSlot t.ola c).isFaulted = false →
      i = .sysReset ∨ (∃ (j : InstNo) (pre post : Bool), i = .olaCfg j pre post ∧ j.toNat = c) ∨
        ((∃ pre post, i = .segCfgOla pre post) ∧ c < s.nch)) ∧
    (s.seg.isFaulted = true → t.seg.isFaulted = false →
      i = .sysReset ∨ i = .segCfgExt ∨ ∃ pre post, i = .segCfgOla pre post) ∧
    ∀ j,
      ((s.dctAt j).isFaulted = false → (t.dctAt j).isFaulted = false) ∧
      ((s.mdctAt j).isFaulted = false → (t.mdctAt j).isFaulted = false) ∧
      ((s.dctAt j).isFaulted = true → (t.dctAt j).isFaulted = false → i = .sysReset ∨ i = .dctCfg j) ∧
      ((s.mdctAt j).isFaulted = true → (t.mdctAt j).isFaulted = false → i = .sysReset ∨ i = .mdctCfg j)

/-! ## The invariant -/

/-- The state after reset meets the invariant. (Its parameters, HM contents and `IPState` are the model's choice:
notes/assumptions/1.md, 6.md, 3.md.) -/
def Obligations.InvariantAtReset : Prop := State.reset.Inv

/-- Every step keeps the invariant: the canonical form of the maps, the ranges and lengths that construction fixed, the fields
of `STATUS`, and finite samples in every buffer that is not under U1 (the flags that say so are the model's own:
notes/assumptions/2.md, 7.md). -/
def Obligations.StepKeepsInvariant : Prop := ∀ s t : State, s.Inv → step s = .next t → t.Inv

/-! ## Sample arithmetic -/

/-- `fadd` of finite samples is correctly rounded: it is finite exactly when the exact sum rounds below the overflow
threshold, no finite sample is nearer to the exact sum, an equally near one with another value has an odd fraction, and an
exact zero has the sign rule of round-to-nearest. (Values in units of `2^-149`.) -/
def Obligations.FaddIsCorrectlyRounded : Prop :=
  ∀ a b : Word, isFinite a = true → isFinite b = true →
    let x := exactValue a + exactValue b
    let r := fadd a b
    (isFinite r = true ↔ x.natAbs < 2 ^ 277 - 2 ^ 252) ∧
    (x = 0 → r = if isNegative a && isNegative b then 0x80000000#32 else 0#32) ∧
    (x ≠ 0 → (isNegative r = true ↔ x < 0)) ∧
    (isFinite r = true → ∀ c : Word, isFinite c = true →
      (exactValue r - x).natAbs ≤ (exactValue c - x).natAbs ∧
      ((exactValue r - x).natAbs = (exactValue c - x).natAbs → exactValue c ≠ exactValue r → fracField r % 2 = 0))

/-- `fmul` of finite samples is correctly rounded, likewise, with the sign the exclusive or of the signs. (The product is in
units of `2^-298`, the result in units of `2^-149`.) -/
def Obligations.FmulIsCorrectlyRounded : Prop :=
  ∀ a b : Word, isFinite a = true → isFinite b = true →
    let x := exactValue a * exactValue b
    let r := fmul a b
    (isFinite r = true ↔ x.natAbs < (2 ^ 277 - 2 ^ 252) * 2 ^ 149) ∧
    isNegative r = xor (isNegative a) (isNegative b) ∧
    (isFinite r = true → ∀ c : Word, isFinite c = true →
      (exactValue r * 2 ^ 149 - x).natAbs ≤ (exactValue c * 2 ^ 149 - x).natAbs ∧
      ((exactValue r * 2 ^ 149 - x).natAbs = (exactValue c * 2 ^ 149 - x).natAbs → exactValue c ≠ exactValue r →
        fracField r % 2 = 0))

/-- `fsub(a, b)` of finite samples is the sum of `a` and the sample of the opposite value, and an operation on a sample that is
not finite is not finite: so a transform is numerically well-formed when its inputs and outputs are finite
(notes/assumptions/7.md). -/
def Obligations.OperationsPropagateNonFinite : Prop :=
  (∀ a b : Word, isFinite b = true → fsub a b = fadd a (fneg b) ∧ exactValue (fneg b) = -exactValue b ∧
    isFinite (fneg b) = true ∧ isNegative (fneg b) = !isNegative b) ∧
  ∀ a b : Word, isFinite a = false ∨ isFinite b = false →
    isFinite (fadd a b) = false ∧ isFinite (fsub a b) = false ∧ isFinite (fmul a b) = false

/-- A sample that is not finite in the input of a recursion of the forward or the inverse transform reaches the result of that
recursion; one in the input or the result of any nested recursion, at any depth, reaches the result of the whole transform; and
one in the result of the forward recursion reaches the scaled output (notes/assumptions/7.md). -/
def Obligations.NonFiniteReachesTheOutput : Prop :=
  ∀ (c : Config) (d : Nat) (x : List Word), x.length = 2 ^ (d + 1) →
    let N := binary32 c
    let n := 2 ^ (d + 1)
    (allFinite x = false → allFinite (fwdRec N d x) = false ∧ allFinite (invRec N d x) = false) ∧
    (allFinite (fwdRec N d x) = false → allFinite (postScale N n (fwdRec N d x)) = false) ∧
    (∀ v ∈ fwdValues N d x, allFinite v = false → allFinite (dctForward N n x) = false) ∧
    ∀ v ∈ invValues N d x, allFinite v = false → allFinite (dctInverse N n x) = false

/-! ## The constants -/

/-- The default constants are those the rules print: `K[2]`, `K[4]`, `K[8]`, `WM[1]`, `WM[2]`, `WM[4]`, bit for bit. -/
def Obligations.ConstantsArePrintedOnes : Prop :=
  kDefault 2 0 = 0x3F3504F3#32 ∧ (List.range 2).map (kDefault 4) = [0x3F0A8BD4#32, 0x3FA73D75#32] ∧
    (List.range 4).map (kDefault 8) = [0x3F0281F7#32, 0x3F19F1BD#32, 0x3F6664D7#32, 0x402406CF#32] ∧
    (List.range 2).map (wmDefault 1) = [0x3F000000#32, 0x3F000000#32] ∧
    (List.range 4).map (wmDefault 2) = [0x3E15F61A#32, 0x3F5A827A#32, 0x3F5A827A#32, 0x3E15F61A#32] ∧
    (List.range 8).map (wmDefault 4) = [0x3D1BE50C#32, 0x3E9E0875#32, 0x3F30FBC5#32, 0x3F7641AF#32, 0x3F7641AF#32,
      0x3F30FBC5#32, 0x3E9E0875#32, 0x3D1BE50C#32]

/-- `G(n) = 2/n` exactly, for every length a DCT may have. (The unit of values is `2^-149`.) -/
def Obligations.GlobalMultiplierIsTwoOverN : Prop :=
  ∀ k, 1 ≤ k → k ≤ 31 → isFinite (gConst (2 ^ k)) = true ∧ exactValue (gConst (2 ^ k)) * 2 ^ k = 2 * 2 ^ 149

/-! ## The transforms -/

/-- The two-buffer procedure of rule R164, post-scaled by rule R165, gives `dct_forward` in `D`, whatever `S` holds, and touches
nothing outside the sub-range; for any numerics record. -/
def Obligations.ForwardRefinesTwoBuffers : Prop :=
  ∀ (α : Type) (N : Numerics α) (d : Nat) (D S : Nat → α) (off : Nat),
    let n := 2 ^ (d + 1)
    let x := (List.range n).map fun j => D (off + j)
    let r := fwdInPlace N d D S off
    ((List.range n).map fun j => r.1 (off + j)) = fwdRec N d x ∧
      (∀ i, i < off ∨ off + n ≤ i → r.1 i = D i ∧ r.2 i = S i) ∧
      dctForward N n x = (List.range n).map fun j =>
        N.mul (if j = 0 then N.mul (r.1 off) N.half else r.1 (off + j)) (N.scale n)

/-- The two-buffer procedure of rule R167 gives `dct_inverse` in `D`, whatever `S` holds, likewise. -/
def Obligations.InverseRefinesTwoBuffers : Prop :=
  ∀ (α : Type) (N : Numerics α) (d : Nat) (D S : Nat → α) (off : Nat),
    let n := 2 ^ (d + 1)
    let y := (List.range n).map fun j => D (off + j)
    let r := invInPlace N d D S off
    ((List.range n).map fun j => r.1 (off + j)) = dctInverse N n y ∧
      ∀ i, i < off ∨ off + n ≤ i → r.1 i = D i ∧ r.2 i = S i

/-- Over the real numbers the forward dataflow computes the sum of rule R160. -/
def Obligations.RealForwardIsDctTwo : Prop :=
  ∀ (wm : Nat → Nat → ℝ) (d : Nat) (x : Nat → ℝ),
    let n := 2 ^ (d + 1)
    dctForward (realNumerics wm) n ((List.range n).map x) = (List.range n).map (dct2 n x)

/-- Over the real numbers the inverse dataflow computes the sum of rule R161. -/
def Obligations.RealInverseIsDctThree : Prop :=
  ∀ (wm : Nat → Nat → ℝ) (d : Nat) (y : Nat → ℝ),
    let n := 2 ^ (d + 1)
    dctInverse (realNumerics wm) n ((List.range n).map y) = (List.range n).map (dct3 n y)

/-- Over the real numbers the inverse dataflow undoes the forward dataflow. -/
def Obligations.RealInverseUndoesForward : Prop :=
  ∀ (wm : Nat → Nat → ℝ) (d : Nat) (x : List ℝ), x.length = 2 ^ (d + 1) →
    dctInverse (realNumerics wm) (2 ^ (d + 1)) (dctForward (realNumerics wm) (2 ^ (d + 1)) x) = x

/-- The MDCT reconstruction law over the real numbers: with a window whose halves sum to 1, the inverse operation on the
coefficients of the blocks `x0 ++ x1`, with the carry left by those of `w ++ x0`, gives back `x0`. -/
def Obligations.RealMdctReconstructs : Prop :=
  ∀ (wm : Nat → Nat → ℝ) (d : Nat) (w x0 x1 : List ℝ),
    let b := 2 ^ d
    let N := realNumerics wm
    w.length = b → x0.length = b → x1.length = b → (∀ j < b, wm b j + wm b (b + j) = 1) →
      let carry := mdctCarry N b (dctInverse N (2 * b) (dctForward N (2 * b) (w ++ x0)))
      mdctOut N b (dctInverse N (2 * b) (dctForward N (2 * b) (x0 ++ x1))) carry = x0

/-- The overlap-add condition over the real numbers: with an identity inner processor, the block returned is the previous block
weighted by `e[j] + e[B+j]`, where `e` is the window to the power of the number of times it is applied. -/
def Obligations.RealOverlapAddGain : Prop :=
  ∀ (wm : Nat → Nat → ℝ) (b : Nat) (pre post : Bool) (w x0 x1 x2 : List ℝ),
    let N := realNumerics wm
    x0.length = b → x1.length = b → x2.length = b →
      let e := fun j => w.getD j 0 ^ (pre.toNat + post.toNat)
      let call := fun u : List ℝ => windowIf N post b w (windowIf N pre b w u)
      olaSum N b (call (olaSlide b (x0 ++ x1) x2)) (olaCarry N b (call (x0 ++ x1))) =
        (List.range b).map fun j => (e j + e (b + j)) * x1.getD j 0
end

