-- ==== Sys2Proof/Laws/Cells.lean ====
section
/-! SUPPORT. The laws of sparse maps and of HM: what is read after a write, and that every write keeps the canonical form. -/
namespace Sys2Proof.Machine

@[simp] theorem length_vec {α : Type} (n : Nat) (f : Nat → α) : (vec n f).length = n := by simp [vec]

@[simp] theorem getD_vec {α : Type} (n : Nat) (f : Nat → α) (j : Nat) (d : α) :
    (vec n f).getD j d = if j < n then f j else d := by
  by_cases h : j < n <;> simp [vec, List.getD_eq_getElem?_getD, h]

@[simp] theorem getElem_vec {α : Type} (n : Nat) (f : Nat → α) (j : Nat) (h : j < (vec n f).length) : (vec n f)[j] = f j := by
  simp [vec]

theorem mem_vec {α : Type} {n : Nat} {f : Nat → α} {x : α} : x ∈ vec n f ↔ ∃ j < n, f j = x := by
  simp [vec]

/-- Two vectors of one length that agree at every index are equal. -/
theorem eq_vec {α : Type} (v : List α) (d : α) : v = vec v.length fun j => v.getD j d := by
  apply List.ext_getElem
  · simp
  · intro i h _
    simp [h]

theorem vec_congr {α : Type} {n : Nat} {f g : Nat → α} (h : ∀ j < n, f j = g j) : vec n f = vec n g := by
  simp only [vec, List.map_inj_left, List.mem_range]
  exact h

namespace Cells

variable {α : Type} [DecidableEq α]

omit [DecidableEq α] in
theorem get_of_absent (d : α) (m : Cells α) (a : Nat) (h : ∀ p ∈ m, p.1 ≠ a) : get d m a = d := by
  induction m with
  | nil => rfl
  | cons p m ih =>
    simp only [get]
    rw [if_neg (h p (by simp)), ih fun q hq => h q (by simp [hq])]

omit [DecidableEq α] in
theorem get_append_left (d : α) (m n : Cells α) (a : Nat) (h : ∀ p ∈ m, p.1 ≠ a) : get d (m ++ n) a = get d n a := by
  induction m with
  | nil => rfl
  | cons p m ih =>
    simp only [List.cons_append, get]
    rw [if_neg (h p (by simp)), ih fun q hq => h q (by simp [hq])]

omit [DecidableEq α] in
theorem get_append_right (d : α) (m n : Cells α) (a : Nat) (h : ∀ p ∈ n, p.1 ≠ a) : get d (m ++ n) a = get d m a := by
  induction m with
  | nil => exact get_of_absent d n a h
  | cons p m ih => simp only [List.cons_append, get, ih]

omit [DecidableEq α] in
theorem get_filter (d : α) (q : Nat → Bool) (m : Cells α) (a : Nat) :
    get d (m.filter fun p => q p.1) a = if q a then get d m a else d := by
  induction m with
  | nil => simp [get]
  | cons p m ih =>
    by_cases hp : p.1 = a
    · subst hp
      by_cases hq : q p.1 <;> simp [get, hq, ih]
    · by_cases hq : q p.1 <;> simp [get, hq, hp, ih]

theorem key_block {d : α} {a : Nat} {v : List α} {p : Nat × α} (h : p ∈ block d a v) : a ≤ p.1 ∧ p.1 < a + v.length := by
  induction v generalizing a with
  | nil => simp [block] at h
  | cons x v ih =>
    simp only [block] at h
    have step : p ∈ block d (a + 1) v → a ≤ p.1 ∧ p.1 < a + (x :: v).length := fun h => by
      have := ih h
      simp only [List.length_cons]
      omega
    by_cases hx : x = d
    · exact step (by simpa [hx] using h)
    · rcases (by simpa [hx] using h : p = (a, x) ∨ p ∈ block d (a + 1) v) with rfl | h
      · simp
      · exact step h

theorem get_block (d : α) (a : Nat) (v : List α) (k : Nat) :
    get d (block d a v) k = if a ≤ k ∧ k < a + v.length then v.getD (k - a) d else d := by
  induction v generalizing a with
  | nil => simp [block, get]
  | cons x v ih =>
    have hlen : (x :: v).length = v.length + 1 := rfl
    by_cases hk : k = a
    · subst hk
      have hout : get d (block d (k + 1) v) k = d :=
        get_of_absent _ _ _ fun p hp => by have := key_block hp; omega
      by_cases hx : x = d
      · simp [block, hx, hout]
      · simp [block, hx, get]
    · have hrec : get d (block d a (x :: v)) k = get d (block d (a + 1) v) k := by
        by_cases hx : x = d
        · simp [block, hx]
        · simp [block, hx, get, Ne.symm hk]
      rw [hrec, ih]
      by_cases h : a + 1 ≤ k ∧ k < a + 1 + v.length
      · rw [if_pos h, if_pos (by omega)]
        obtain ⟨j, rfl⟩ : ∃ j, k = a + 1 + j := ⟨k - (a + 1), by omega⟩
        have e1 : a + 1 + j - (a + 1) = j := by omega
        have e2 : a + 1 + j - a = j + 1 := by omega
        simp [e1, e2]
      · rw [if_neg h, if_neg (by omega)]

/-- READ AFTER WRITE: the written keys hold the written values, every other key holds what it held. -/
theorem get_splice (d : α) (m : Cells α) (a : Nat) (v : List α) (k : Nat) :
    get d (splice d m a v) k = if a ≤ k ∧ k < a + v.length then v.getD (k - a) d else get d m k := by
  have low : ∀ p ∈ m.filter (fun p => decide (p.1 < a)), p.1 < a := fun p hp => by
    simpa using List.of_mem_filter hp
  have high : ∀ p ∈ m.filter (fun p => decide (a + v.length ≤ p.1)), a + v.length ≤ p.1 := fun p hp => by
    simpa using List.of_mem_filter hp
  unfold splice
  by_cases h1 : k < a
  · rw [get_append_right _ _ _ _ fun p hp hk => by have := high p hp; omega,
      get_append_right _ _ _ _ fun p hp hk => by have := key_block hp; omega,
      get_filter d (fun x => decide (x < a)), if_pos (by simpa using h1), if_neg (by omega)]
  · rw [List.append_assoc, get_append_left _ _ _ _ fun p hp hk => by have := low p hp; omega]
    by_cases h2 : k < a + v.length
    · rw [get_append_right _ _ _ _ fun p hp hk => by have := high p hp; omega, get_block,
        if_pos (by omega), if_pos (by omega)]
    · rw [get_append_left _ _ _ _ fun p hp hk => by have := key_block hp; omega,
        get_filter d (fun x => decide (a + v.length ≤ x)), if_pos (by simp; omega), if_neg (by omega)]

@[simp] theorem get_set_same (d : α) (m : Cells α) (a : Nat) (x : α) : get d (set d m a x) a = x := by
  simp [set, get_splice]

theorem get_set_other (d : α) (m : Cells α) {a k : Nat} (x : α) (h : k ≠ a) : get d (set d m a x) k = get d m k := by
  simp only [set, get_splice, List.length_singleton]
  rw [if_neg (by omega)]

theorem block_wf (d : α) (a : Nat) (v : List α) : wf d (block d a v) := by
  induction v generalizing a with
  | nil => simp [block, wf]
  | cons x v ih =>
    by_cases hx : x = d
    · simpa [block, hx] using ih (a + 1)
    · refine ⟨?_, ?_⟩
      · simp only [block, hx, if_false, List.map_cons, List.pairwise_cons]
        refine ⟨fun k hk => ?_, (ih (a + 1)).1⟩
        obtain ⟨p, hp, rfl⟩ := List.mem_map.1 hk
        have := key_block hp
        omega
      · intro p hp
        rcases (by simpa [block, hx] using hp : p = (a, x) ∨ p ∈ block d (a + 1) v) with rfl | h
        · exact hx
        · exact (ih (a + 1)).2 p h

omit [DecidableEq α] in
theorem filter_keys (q : Nat → Bool) (m : Cells α) :
    (m.filter fun p => q p.1).map Prod.fst = (m.map Prod.fst).filter q := by
  induction m with
  | nil => rfl
  | cons p m ih => by_cases h : q p.1 <;> simp [h, ih]

/-- Every write keeps the canonical form. -/
theorem splice_wf {d : α} {m : Cells α} (a : Nat) (v : List α) (h : wf d m) : wf d (splice d m a v) := by
  refine ⟨?_, ?_⟩
  · simp only [splice, List.map_append]
    rw [filter_keys (fun k => decide (k < a)), filter_keys (fun k => decide (a + v.length ≤ k))]
    rw [List.pairwise_append, List.pairwise_append]
    refine ⟨⟨h.1.filter _, (block_wf d a v).1, ?_⟩, h.1.filter _, ?_⟩
    · intro x hx y hy
      obtain ⟨p, hp, rfl⟩ := List.mem_map.1 hy
      have := key_block hp
      have := List.of_mem_filter hx
      simp only [decide_eq_true_eq] at this
      omega
    · intro x hx y hy
      have hy := List.of_mem_filter hy
      simp only [decide_eq_true_eq] at hy
      rcases List.mem_append.1 hx with hx | hx
      · have := List.of_mem_filter hx
        simp only [decide_eq_true_eq] at this
        omega
      · obtain ⟨p, hp, rfl⟩ := List.mem_map.1 hx
        have := key_block hp
        omega
  · intro p hp
    simp only [splice, List.append_assoc, List.mem_append] at hp
    rcases hp with hp | hp | hp
    · exact h.2 p (List.mem_of_mem_filter hp)
    · exact (block_wf d a v).2 p hp
    · exact h.2 p (List.mem_of_mem_filter hp)

theorem set_wf {d : α} {m : Cells α} (a : Nat) (x : α) (h : wf d m) : wf d (set d m a x) := splice_wf a [x] h

/-- An entry of a written map is one of the written ones or an entry of the map. -/
theorem mem_splice {d : α} {m : Cells α} {a : Nat} {v : List α} {p : Nat × α} (h : p ∈ splice d m a v) :
    p ∈ m ∨ (a ≤ p.1 ∧ p.1 < a + v.length ∧ p.2 ∈ v) := by
  have hval : ∀ (v : List α) (a : Nat), p ∈ block d a v → p.2 ∈ v := by
    intro v
    induction v with
    | nil => simp [block]
    | cons x v ih =>
      intro a hb
      by_cases hx : x = d
      · exact List.mem_cons_of_mem _ (ih (a + 1) (by simpa [block, hx] using hb))
      · rcases (by simpa [block, hx] using hb : p = (a, x) ∨ p ∈ block d (a + 1) v) with rfl | hb
        · simp
        · exact List.mem_cons_of_mem _ (ih (a + 1) hb)
  simp only [splice, List.append_assoc, List.mem_append] at h
  rcases h with h | h | h
  · exact .inl (List.mem_of_mem_filter h)
  · exact .inr ⟨(key_block h).1, (key_block h).2, hval _ _ h⟩
  · exact .inl (List.mem_of_mem_filter h)

end Cells

/-! ### HM -/

/-- Two maps in canonical form that hold the same value at every key are equal. -/
theorem Cells.ext_wf {α : Type} [DecidableEq α] {d : α} {m n : Cells α} (hm : Cells.wf d m) (hn : Cells.wf d n)
    (h : ∀ k, Cells.get d m k = Cells.get d n k) : m = n := by
  induction m generalizing n with
  | nil =>
    cases n with
    | nil => rfl
    | cons q n =>
      have := h q.1
      simp only [Cells.get, if_true] at this
      exact absurd this.symm (hn.2 q (by simp))
  | cons p m ih =>
    have hp : Cells.get d (p :: m) p.1 = p.2 := by simp [Cells.get]
    cases n with
    | nil => exact absurd ((hp.symm.trans (h p.1)).trans rfl) (hm.2 p (by simp))
    | cons q n =>
      have hq : Cells.get d (q :: n) q.1 = q.2 := by simp [Cells.get]
      have hmlt : ∀ e ∈ m, p.1 < e.1 := fun e he =>
        (List.pairwise_cons.1 hm.1).1 e.1 (List.mem_map.2 ⟨e, he, rfl⟩)
      have hnlt : ∀ e ∈ n, q.1 < e.1 := fun e he =>
        (List.pairwise_cons.1 hn.1).1 e.1 (List.mem_map.2 ⟨e, he, rfl⟩)
      have hkey : p.1 = q.1 := by
        rcases Nat.lt_trichotomy p.1 q.1 with hlt | heq | hgt
        · have : Cells.get d (q :: n) p.1 = d := Cells.get_of_absent _ _ _ fun e he => by
            rcases List.mem_cons.1 he with rfl | he
            · omega
            · have := hnlt e he; omega
          exact absurd (hp.symm.trans ((h p.1).trans this)) (hm.2 p (by simp))
        · exact heq
        · have : Cells.get d (p :: m) q.1 = d := Cells.get_of_absent _ _ _ fun e he => by
            rcases List.mem_cons.1 he with rfl | he
            · omega
            · have := hmlt e he; omega
          exact absurd (hq.symm.trans ((h q.1).symm.trans this)) (hn.2 q (by simp))
      have hval : p.2 = q.2 := by rw [← hp, ← hq, ← hkey]; exact h p.1
      have hpq : p = q := Prod.ext hkey hval
      subst hpq
      congr 1
      refine ih ⟨(List.pairwise_cons.1 hm.1).2, fun e he => hm.2 e (by simp [he])⟩
        ⟨(List.pairwise_cons.1 hn.1).2, fun e he => hn.2 e (by simp [he])⟩ fun k => ?_
      by_cases hk : p.1 = k
      · subst hk
        rw [Cells.get_of_absent _ _ _ fun e he => Nat.ne_of_gt (hmlt e he),
          Cells.get_of_absent _ _ _ fun e he => Nat.ne_of_gt (hnlt e he)]
      · have := h k
        simpa [Cells.get, hk] using this

@[simp] theorem Memory.length_read (m : Memory) (addr n : Nat) : (m.read addr n).length = n := by simp [Memory.read]

theorem Memory.getD_read (m : Memory) (addr n j : Nat) (d : Word) :
    (m.read addr n).getD j d = if j < n then m.get (addr + j) else d := getD_vec n _ j d

/-- READ AFTER WRITE on HM (rule R62): the written words hold the written samples, every other word is as it was. -/
theorem Memory.get_write (m : Memory) (addr : Nat) (v : List HmWord) (a : Nat) :
    (m.write addr v).get a =
      if addr ≤ a ∧ a < addr + v.length then (v.getD (a - addr) blankWord).value else m.get a := by
  simp only [Memory.get, Memory.write, Cells.get_splice]
  split <;> rfl

theorem Memory.get_write_outside (m : Memory) (addr : Nat) (v : List HmWord) (a : Nat)
    (h : a < addr ∨ addr + v.length ≤ a) : (m.write addr v).get a = m.get a := by
  rw [Memory.get_write, if_neg (by omega)]

/-- Reading a range right after it was written. -/
theorem Memory.read_write_same (m : Memory) (addr : Nat) (v : List HmWord) :
    (m.write addr v).read addr v.length = v.map HmWord.value := by
  apply List.ext_getElem
  · simp
  · intro i h _
    simp only [Memory.length_read] at h
    simp [Memory.read, Memory.get_write, h]

/-- Reading a range that a write does not touch. -/
theorem Memory.read_write_disjoint (m : Memory) (addr a n : Nat) (v : List HmWord)
    (h : a + n ≤ addr ∨ addr + v.length ≤ a) : (m.write addr v).read a n = m.read a n := by
  refine vec_congr fun j hj => Memory.get_write_outside m addr v (a + j) ?_
  omega

theorem Memory.write_wf {m : Memory} (addr : Nat) (v : List HmWord) (h : m.wf) : (m.write addr v).wf :=
  Cells.splice_wf addr v h

/-! ### Unspecified samples -/

@[simp] theorem length_freeVec (tick : Nat) (u : FreeUse) (n : Nat) : (freeVec tick u n).length = n := by simp [freeVec]

@[simp] theorem length_freeWords (tick : Nat) (u : FreeUse) (n : Nat) : (freeWords tick u n).length = n := by
  simp [freeWords]

@[simp] theorem length_settle (ok : Bool) (tick : Nat) (u : FreeUse) (v : List Word) :
    (settle ok tick u v).length = v.length := by cases ok <;> simp [settle]

@[simp] theorem length_settleWords (ok : Bool) (tick : Nat) (u : FreeUse) (v : List Word) :
    (settleWords ok tick u v).length = v.length := by cases ok <;> simp [settleWords]

@[simp] theorem settle_true (tick : Nat) (u : FreeUse) (v : List Word) : settle true tick u v = v := rfl

@[simp] theorem settleWords_true (tick : Nat) (u : FreeUse) (v : List Word) :
    settleWords true tick u v = v.map .known := rfl

@[simp] theorem value_known (w : Word) : (HmWord.known w).value = w := rfl

@[simp] theorem map_value_known (v : List Word) : (v.map HmWord.known).map HmWord.value = v := by
  simp [List.map_map, Function.comp_def]

end Sys2Proof.Machine
end

