-- ==== Sys2Proof/Laws/Operands.lean ====
section
/-! SUPPORT. What the checks on operands decide, as propositions: powers of two (rule R103), ranges (rule R63), rows (rule R121),
capacities (rules R102 to R108) and bound wrappers (rule R121). -/
namespace Sys2Proof.Machine

theorem isPow2_iff (x : Nat) : isPow2 x = true ↔ ∃ k, x = 2 ^ k := by
  simp only [isPow2, beq_iff_eq]
  refine ⟨fun h => ⟨_, h⟩, ?_⟩
  rintro ⟨k, rfl⟩
  rw [Nat.log2_two_pow]

theorem isPow2_two_pow (k : Nat) : isPow2 (2 ^ k) = true := (isPow2_iff _).2 ⟨k, rfl⟩

theorem isPow2_pos {x : Nat} (h : isPow2 x = true) : 1 ≤ x := by
  obtain ⟨k, rfl⟩ := (isPow2_iff x).1 h
  exact Nat.one_le_two_pow

/-- A power of two of at least 2 is `2^(d+1)` for the recursion depth `d` of its transform. -/
theorem isPow2_succ {n : Nat} (h : isPow2 n = true) (h2 : 2 ≤ n) : ∃ d, n = 2 ^ (d + 1) := by
  obtain ⟨k, rfl⟩ := (isPow2_iff n).1 h
  cases k with
  | zero => simp at h2
  | succ d => exact ⟨d, rfl⟩

theorem Range.valid_iff (hmsize : Nat) (r : Range) : r.valid hmsize = true ↔ r.addr + r.size ≤ hmsize := by
  simp [Range.valid]

theorem Range.disjoint_iff (r q : Range) :
    r.disjoint q = true ↔ r.size = 0 ∨ q.size = 0 ∨ r.addr + r.size ≤ q.addr ∨ q.addr + q.size ≤ r.addr := by
  simp [Range.disjoint, or_assoc]

/-- The operand check of a command with two ranges. -/
theorem mdctRangesOk_iff (s : State) (m k : Nat) :
    mdctRangesOk s m k = true ↔ s.ptr0 + m ≤ s.cfg.hmsize ∧ s.ptr1 + k ≤ s.cfg.hmsize ∧
      (m = 0 ∨ k = 0 ∨ s.ptr0 + m ≤ s.ptr1 ∨ s.ptr1 + k ≤ s.ptr0) := by
  simp [mdctRangesOk, Range.valid_iff, Range.disjoint_iff, and_assoc]

theorem dctRangesOk_eq (s : State) (n : Nat) : dctRangesOk s n = mdctRangesOk s n n := rfl

/-- The row checks of `seg_check`. -/
theorem rowsOk_iff (hmsize base stride p n : Nat) :
    rowsOk hmsize base stride p n = true ↔
      n = 0 ∨ (∀ c < p, base + c * stride + n ≤ hmsize) ∧
        ∀ c < p, ∀ e < c, base + e * stride + n ≤ base + c * stride ∨ base + c * stride + n ≤ base + e * stride := by
  by_cases h : n = 0
  · simp [rowsOk, h]
  · simp [rowsOk, h, Range.valid_iff, Range.disjoint_iff, rowRange]

theorem dctLengthOk_iff (c : Config) (n : Nat) :
    dctLengthOk c n = true ↔ (∃ k, n = 2 ^ k) ∧ 2 ≤ n ∧ n ≤ 2 * c.bmax := by
  simp [dctLengthOk, isPow2_iff, and_assoc]

theorem blockSizeOk_iff (c : Config) (b : Nat) : blockSizeOk c b = true ↔ (∃ k, b = 2 ^ k) ∧ 1 ≤ b ∧ b ≤ c.bmax := by
  simp [blockSizeOk, isPow2_iff, and_assoc]

theorem segSizeOk_iff (c : Config) (b n : Nat) :
    segSizeOk c b n = true ↔ 1 ≤ b ∧ b ≤ c.bmax ∧ 1 ≤ n ∧ n ≤ c.ninst := by
  simp [segSizeOk, and_assoc]

theorem windowRangeOk_iff (s : State) (b : Nat) : windowRangeOk s b = true ↔ s.ptr0 + 2 * b ≤ s.cfg.hmsize := by
  simp [windowRangeOk, Range.valid_iff]

theorem wrappersOk_iff (g : SegInst) (p : Nat) (m : Cells (Slot OlaInst)) :
    wrappersOk g p m = true ↔ (g.inner = .ola → ∀ c < p, ∃ o, olaSlot m c = .configured o ∧ o.b = g.b) := by
  unfold wrappersOk
  cases g.inner with
  | ext => simp
  | ola =>
    simp only [List.all_eq_true, List.mem_range, forall_const]
    refine forall₂_congr fun c _ => ?_
    cases olaSlot m c <;> simp

end Sys2Proof.Machine
end

