-- ==== Sys2Proof/Laws/State.lean ====
section
/-! SUPPORT. One law per field per update of the state, each true by unfolding; and what the shared ends of a command (`complete`,
`raise`, `raiseInner`, `resetBlock`) leave in each field. -/
namespace Sys2Proof.Machine

/-! ### setStatus -/

@[simp] theorem State.setStatus_cfg (s : State) (x : Word) : (s.setStatus x).cfg = s.cfg := rfl
@[simp] theorem State.setStatus_status (s : State) (x : Word) : (s.setStatus x).status = x := rfl
@[simp] theorem State.setStatus_msg (s : State) (x : Word) : (s.setStatus x).msg = s.msg := rfl
@[simp] theorem State.setStatus_diag (s : State) (x : Word) : (s.setStatus x).diag = s.diag := rfl
@[simp] theorem State.setStatus_ops (s : State) (x : Word) : (s.setStatus x).ops = s.ops := rfl
@[simp] theorem State.setStatus_dct (s : State) (x : Word) : (s.setStatus x).dct = s.dct := rfl
@[simp] theorem State.setStatus_mdct (s : State) (x : Word) : (s.setStatus x).mdct = s.mdct := rfl
@[simp] theorem State.setStatus_ola (s : State) (x : Word) : (s.setStatus x).ola = s.ola := rfl
@[simp] theorem State.setStatus_seg (s : State) (x : Word) : (s.setStatus x).seg = s.seg := rfl
@[simp] theorem State.setStatus_hm (s : State) (x : Word) : (s.setStatus x).hm = s.hm := rfl
@[simp] theorem State.setStatus_ip (s : State) (x : Word) : (s.setStatus x).ip = s.ip := rfl
@[simp] theorem State.setStatus_pending (s : State) (x : Word) : (s.setStatus x).pending = s.pending := rfl
@[simp] theorem State.setStatus_rdata (s : State) (x : Word) : (s.setStatus x).rdata = s.rdata := rfl
@[simp] theorem State.setStatus_tick (s : State) (x : Word) : (s.setStatus x).tick = s.tick := rfl

/-! ### setMsg -/

@[simp] theorem State.setMsg_cfg (s : State) (x : Word) : (s.setMsg x).cfg = s.cfg := rfl
@[simp] theorem State.setMsg_status (s : State) (x : Word) : (s.setMsg x).status = s.status := rfl
@[simp] theorem State.setMsg_msg (s : State) (x : Word) : (s.setMsg x).msg = x := rfl
@[simp] theorem State.setMsg_diag (s : State) (x : Word) : (s.setMsg x).diag = s.diag := rfl
@[simp] theorem State.setMsg_ops (s : State) (x : Word) : (s.setMsg x).ops = s.ops := rfl
@[simp] theorem State.setMsg_dct (s : State) (x : Word) : (s.setMsg x).dct = s.dct := rfl
@[simp] theorem State.setMsg_mdct (s : State) (x : Word) : (s.setMsg x).mdct = s.mdct := rfl
@[simp] theorem State.setMsg_ola (s : State) (x : Word) : (s.setMsg x).ola = s.ola := rfl
@[simp] theorem State.setMsg_seg (s : State) (x : Word) : (s.setMsg x).seg = s.seg := rfl
@[simp] theorem State.setMsg_hm (s : State) (x : Word) : (s.setMsg x).hm = s.hm := rfl
@[simp] theorem State.setMsg_ip (s : State) (x : Word) : (s.setMsg x).ip = s.ip := rfl
@[simp] theorem State.setMsg_pending (s : State) (x : Word) : (s.setMsg x).pending = s.pending := rfl
@[simp] theorem State.setMsg_rdata (s : State) (x : Word) : (s.setMsg x).rdata = s.rdata := rfl
@[simp] theorem State.setMsg_tick (s : State) (x : Word) : (s.setMsg x).tick = s.tick := rfl

/-! ### setDiag -/

@[simp] theorem State.setDiag_cfg (s : State) (x : Word) : (s.setDiag x).cfg = s.cfg := rfl
@[simp] theorem State.setDiag_status (s : State) (x : Word) : (s.setDiag x).status = s.status := rfl
@[simp] theorem State.setDiag_msg (s : State) (x : Word) : (s.setDiag x).msg = s.msg := rfl
@[simp] theorem State.setDiag_diag (s : State) (x : Word) : (s.setDiag x).diag = x := rfl
@[simp] theorem State.setDiag_ops (s : State) (x : Word) : (s.setDiag x).ops = s.ops := rfl
@[simp] theorem State.setDiag_dct (s : State) (x : Word) : (s.setDiag x).dct = s.dct := rfl
@[simp] theorem State.setDiag_mdct (s : State) (x : Word) : (s.setDiag x).mdct = s.mdct := rfl
@[simp] theorem State.setDiag_ola (s : State) (x : Word) : (s.setDiag x).ola = s.ola := rfl
@[simp] theorem State.setDiag_seg (s : State) (x : Word) : (s.setDiag x).seg = s.seg := rfl
@[simp] theorem State.setDiag_hm (s : State) (x : Word) : (s.setDiag x).hm = s.hm := rfl
@[simp] theorem State.setDiag_ip (s : State) (x : Word) : (s.setDiag x).ip = s.ip := rfl
@[simp] theorem State.setDiag_pending (s : State) (x : Word) : (s.setDiag x).pending = s.pending := rfl
@[simp] theorem State.setDiag_rdata (s : State) (x : Word) : (s.setDiag x).rdata = s.rdata := rfl
@[simp] theorem State.setDiag_tick (s : State) (x : Word) : (s.setDiag x).tick = s.tick := rfl

/-! ### setOps -/

@[simp] theorem State.setOps_cfg (s : State) (x : OpRegs) : (s.setOps x).cfg = s.cfg := rfl
@[simp] theorem State.setOps_status (s : State) (x : OpRegs) : (s.setOps x).status = s.status := rfl
@[simp] theorem State.setOps_msg (s : State) (x : OpRegs) : (s.setOps x).msg = s.msg := rfl
@[simp] theorem State.setOps_diag (s : State) (x : OpRegs) : (s.setOps x).diag = s.diag := rfl
@[simp] theorem State.setOps_ops (s : State) (x : OpRegs) : (s.setOps x).ops = x := rfl
@[simp] theorem State.setOps_dct (s : State) (x : OpRegs) : (s.setOps x).dct = s.dct := rfl
@[simp] theorem State.setOps_mdct (s : State) (x : OpRegs) : (s.setOps x).mdct = s.mdct := rfl
@[simp] theorem State.setOps_ola (s : State) (x : OpRegs) : (s.setOps x).ola = s.ola := rfl
@[simp] theorem State.setOps_seg (s : State) (x : OpRegs) : (s.setOps x).seg = s.seg := rfl
@[simp] theorem State.setOps_hm (s : State) (x : OpRegs) : (s.setOps x).hm = s.hm := rfl
@[simp] theorem State.setOps_ip (s : State) (x : OpRegs) : (s.setOps x).ip = s.ip := rfl
@[simp] theorem State.setOps_pending (s : State) (x : OpRegs) : (s.setOps x).pending = s.pending := rfl
@[simp] theorem State.setOps_rdata (s : State) (x : OpRegs) : (s.setOps x).rdata = s.rdata := rfl
@[simp] theorem State.setOps_tick (s : State) (x : OpRegs) : (s.setOps x).tick = s.tick := rfl

/-! ### setDct -/

@[simp] theorem State.setDct_cfg (s : State) (x : Cells (Slot DctInst)) : (s.setDct x).cfg = s.cfg := rfl
@[simp] theorem State.setDct_status (s : State) (x : Cells (Slot DctInst)) : (s.setDct x).status = s.status := rfl
@[simp] theorem State.setDct_msg (s : State) (x : Cells (Slot DctInst)) : (s.setDct x).msg = s.msg := rfl
@[simp] theorem State.setDct_diag (s : State) (x : Cells (Slot DctInst)) : (s.setDct x).diag = s.diag := rfl
@[simp] theorem State.setDct_ops (s : State) (x : Cells (Slot DctInst)) : (s.setDct x).ops = s.ops := rfl
@[simp] theorem State.setDct_dct (s : State) (x : Cells (Slot DctInst)) : (s.setDct x).dct = x := rfl
@[simp] theorem State.setDct_mdct (s : State) (x : Cells (Slot DctInst)) : (s.setDct x).mdct = s.mdct := rfl
@[simp] theorem State.setDct_ola (s : State) (x : Cells (Slot DctInst)) : (s.setDct x).ola = s.ola := rfl
@[simp] theorem State.setDct_seg (s : State) (x : Cells (Slot DctInst)) : (s.setDct x).seg = s.seg := rfl
@[simp] theorem State.setDct_hm (s : State) (x : Cells (Slot DctInst)) : (s.setDct x).hm = s.hm := rfl
@[simp] theorem State.setDct_ip (s : State) (x : Cells (Slot DctInst)) : (s.setDct x).ip = s.ip := rfl
@[simp] theorem State.setDct_pending (s : State) (x : Cells (Slot DctInst)) : (s.setDct x).pending = s.pending := rfl
@[simp] theorem State.setDct_rdata (s : State) (x : Cells (Slot DctInst)) : (s.setDct x).rdata = s.rdata := rfl
@[simp] theorem State.setDct_tick (s : State) (x : Cells (Slot DctInst)) : (s.setDct x).tick = s.tick := rfl

/-! ### setMdct -/

@[simp] theorem State.setMdct_cfg (s : State) (x : Cells (Slot MdctInst)) : (s.setMdct x).cfg = s.cfg := rfl
@[simp] theorem State.setMdct_status (s : State) (x : Cells (Slot MdctInst)) : (s.setMdct x).status = s.status := rfl
@[simp] theorem State.setMdct_msg (s : State) (x : Cells (Slot MdctInst)) : (s.setMdct x).msg = s.msg := rfl
@[simp] theorem State.setMdct_diag (s : State) (x : Cells (Slot MdctInst)) : (s.setMdct x).diag = s.diag := rfl
@[simp] theorem State.setMdct_ops (s : State) (x : Cells (Slot MdctInst)) : (s.setMdct x).ops = s.ops := rfl
@[simp] theorem State.setMdct_dct (s : State) (x : Cells (Slot MdctInst)) : (s.setMdct x).dct = s.dct := rfl
@[simp] theorem State.setMdct_mdct (s : State) (x : Cells (Slot MdctInst)) : (s.setMdct x).mdct = x := rfl
@[simp] theorem State.setMdct_ola (s : State) (x : Cells (Slot MdctInst)) : (s.setMdct x).ola = s.ola := rfl
@[simp] theorem State.setMdct_seg (s : State) (x : Cells (Slot MdctInst)) : (s.setMdct x).seg = s.seg := rfl
@[simp] theorem State.setMdct_hm (s : State) (x : Cells (Slot MdctInst)) : (s.setMdct x).hm = s.hm := rfl
@[simp] theorem State.setMdct_ip (s : State) (x : Cells (Slot MdctInst)) : (s.setMdct x).ip = s.ip := rfl
@[simp] theorem State.setMdct_pending (s : State) (x : Cells (Slot MdctInst)) : (s.setMdct x).pending = s.pending := rfl
@[simp] theorem State.setMdct_rdata (s : State) (x : Cells (Slot MdctInst)) : (s.setMdct x).rdata = s.rdata := rfl
@[simp] theorem State.setMdct_tick (s : State) (x : Cells (Slot MdctInst)) : (s.setMdct x).tick = s.tick := rfl

/-! ### setOla -/

@[simp] theorem State.setOla_cfg (s : State) (x : Cells (Slot OlaInst)) : (s.setOla x).cfg = s.cfg := rfl
@[simp] theorem State.setOla_status (s : State) (x : Cells (Slot OlaInst)) : (s.setOla x).status = s.status := rfl
@[simp] theorem State.setOla_msg (s : State) (x : Cells (Slot OlaInst)) : (s.setOla x).msg = s.msg := rfl
@[simp] theorem State.setOla_diag (s : State) (x : Cells (Slot OlaInst)) : (s.setOla x).diag = s.diag := rfl
@[simp] theorem State.setOla_ops (s : State) (x : Cells (Slot OlaInst)) : (s.setOla x).ops = s.ops := rfl
@[simp] theorem State.setOla_dct (s : State) (x : Cells (Slot OlaInst)) : (s.setOla x).dct = s.dct := rfl
@[simp] theorem State.setOla_mdct (s : State) (x : Cells (Slot OlaInst)) : (s.setOla x).mdct = s.mdct := rfl
@[simp] theorem State.setOla_ola (s : State) (x : Cells (Slot OlaInst)) : (s.setOla x).ola = x := rfl
@[simp] theorem State.setOla_seg (s : State) (x : Cells (Slot OlaInst)) : (s.setOla x).seg = s.seg := rfl
@[simp] theorem State.setOla_hm (s : State) (x : Cells (Slot OlaInst)) : (s.setOla x).hm = s.hm := rfl
@[simp] theorem State.setOla_ip (s : State) (x : Cells (Slot OlaInst)) : (s.setOla x).ip = s.ip := rfl
@[simp] theorem State.setOla_pending (s : State) (x : Cells (Slot OlaInst)) : (s.setOla x).pending = s.pending := rfl
@[simp] theorem State.setOla_rdata (s : State) (x : Cells (Slot OlaInst)) : (s.setOla x).rdata = s.rdata := rfl
@[simp] theorem State.setOla_tick (s : State) (x : Cells (Slot OlaInst)) : (s.setOla x).tick = s.tick := rfl

/-! ### setSeg -/

@[simp] theorem State.setSeg_cfg (s : State) (x : Slot SegInst) : (s.setSeg x).cfg = s.cfg := rfl
@[simp] theorem State.setSeg_status (s : State) (x : Slot SegInst) : (s.setSeg x).status = s.status := rfl
@[simp] theorem State.setSeg_msg (s : State) (x : Slot SegInst) : (s.setSeg x).msg = s.msg := rfl
@[simp] theorem State.setSeg_diag (s : State) (x : Slot SegInst) : (s.setSeg x).diag = s.diag := rfl
@[simp] theorem State.setSeg_ops (s : State) (x : Slot SegInst) : (s.setSeg x).ops = s.ops := rfl
@[simp] theorem State.setSeg_dct (s : State) (x : Slot SegInst) : (s.setSeg x).dct = s.dct := rfl
@[simp] theorem State.setSeg_mdct (s : State) (x : Slot SegInst) : (s.setSeg x).mdct = s.mdct := rfl
@[simp] theorem State.setSeg_ola (s : State) (x : Slot SegInst) : (s.setSeg x).ola = s.ola := rfl
@[simp] theorem State.setSeg_seg (s : State) (x : Slot SegInst) : (s.setSeg x).seg = x := rfl
@[simp] theorem State.setSeg_hm (s : State) (x : Slot SegInst) : (s.setSeg x).hm = s.hm := rfl
@[simp] theorem State.setSeg_ip (s : State) (x : Slot SegInst) : (s.setSeg x).ip = s.ip := rfl
@[simp] theorem State.setSeg_pending (s : State) (x : Slot SegInst) : (s.setSeg x).pending = s.pending := rfl
@[simp] theorem State.setSeg_rdata (s : State) (x : Slot SegInst) : (s.setSeg x).rdata = s.rdata := rfl
@[simp] theorem State.setSeg_tick (s : State) (x : Slot SegInst) : (s.setSeg x).tick = s.tick := rfl

/-! ### setHm -/

@[simp] theorem State.setHm_cfg (s : State) (x : Memory) : (s.setHm x).cfg = s.cfg := rfl
@[simp] theorem State.setHm_status (s : State) (x : Memory) : (s.setHm x).status = s.status := rfl
@[simp] theorem State.setHm_msg (s : State) (x : Memory) : (s.setHm x).msg = s.msg := rfl
@[simp] theorem State.setHm_diag (s : State) (x : Memory) : (s.setHm x).diag = s.diag := rfl
@[simp] theorem State.setHm_ops (s : State) (x : Memory) : (s.setHm x).ops = s.ops := rfl
@[simp] theorem State.setHm_dct (s : State) (x : Memory) : (s.setHm x).dct = s.dct := rfl
@[simp] theorem State.setHm_mdct (s : State) (x : Memory) : (s.setHm x).mdct = s.mdct := rfl
@[simp] theorem State.setHm_ola (s : State) (x : Memory) : (s.setHm x).ola = s.ola := rfl
@[simp] theorem State.setHm_seg (s : State) (x : Memory) : (s.setHm x).seg = s.seg := rfl
@[simp] theorem State.setHm_hm (s : State) (x : Memory) : (s.setHm x).hm = x := rfl
@[simp] theorem State.setHm_ip (s : State) (x : Memory) : (s.setHm x).ip = s.ip := rfl
@[simp] theorem State.setHm_pending (s : State) (x : Memory) : (s.setHm x).pending = s.pending := rfl
@[simp] theorem State.setHm_rdata (s : State) (x : Memory) : (s.setHm x).rdata = s.rdata := rfl
@[simp] theorem State.setHm_tick (s : State) (x : Memory) : (s.setHm x).tick = s.tick := rfl

/-! ### setIp -/

@[simp] theorem State.setIp_cfg (s : State) (x : IPState) : (s.setIp x).cfg = s.cfg := rfl
@[simp] theorem State.setIp_status (s : State) (x : IPState) : (s.setIp x).status = s.status := rfl
@[simp] theorem State.setIp_msg (s : State) (x : IPState) : (s.setIp x).msg = s.msg := rfl
@[simp] theorem State.setIp_diag (s : State) (x : IPState) : (s.setIp x).diag = s.diag := rfl
@[simp] theorem State.setIp_ops (s : State) (x : IPState) : (s.setIp x).ops = s.ops := rfl
@[simp] theorem State.setIp_dct (s : State) (x : IPState) : (s.setIp x).dct = s.dct := rfl
@[simp] theorem State.setIp_mdct (s : State) (x : IPState) : (s.setIp x).mdct = s.mdct := rfl
@[simp] theorem State.setIp_ola (s : State) (x : IPState) : (s.setIp x).ola = s.ola := rfl
@[simp] theorem State.setIp_seg (s : State) (x : IPState) : (s.setIp x).seg = s.seg := rfl
@[simp] theorem State.setIp_hm (s : State) (x : IPState) : (s.setIp x).hm = s.hm := rfl
@[simp] theorem State.setIp_ip (s : State) (x : IPState) : (s.setIp x).ip = x := rfl
@[simp] theorem State.setIp_pending (s : State) (x : IPState) : (s.setIp x).pending = s.pending := rfl
@[simp] theorem State.setIp_rdata (s : State) (x : IPState) : (s.setIp x).rdata = s.rdata := rfl
@[simp] theorem State.setIp_tick (s : State) (x : IPState) : (s.setIp x).tick = s.tick := rfl

/-! ### setPending -/

@[simp] theorem State.setPending_cfg (s : State) (x : List HostAction) : (s.setPending x).cfg = s.cfg := rfl
@[simp] theorem State.setPending_status (s : State) (x : List HostAction) : (s.setPending x).status = s.status := rfl
@[simp] theorem State.setPending_msg (s : State) (x : List HostAction) : (s.setPending x).msg = s.msg := rfl
@[simp] theorem State.setPending_diag (s : State) (x : List HostAction) : (s.setPending x).diag = s.diag := rfl
@[simp] theorem State.setPending_ops (s : State) (x : List HostAction) : (s.setPending x).ops = s.ops := rfl
@[simp] theorem State.setPending_dct (s : State) (x : List HostAction) : (s.setPending x).dct = s.dct := rfl
@[simp] theorem State.setPending_mdct (s : State) (x : List HostAction) : (s.setPending x).mdct = s.mdct := rfl
@[simp] theorem State.setPending_ola (s : State) (x : List HostAction) : (s.setPending x).ola = s.ola := rfl
@[simp] theorem State.setPending_seg (s : State) (x : List HostAction) : (s.setPending x).seg = s.seg := rfl
@[simp] theorem State.setPending_hm (s : State) (x : List HostAction) : (s.setPending x).hm = s.hm := rfl
@[simp] theorem State.setPending_ip (s : State) (x : List HostAction) : (s.setPending x).ip = s.ip := rfl
@[simp] theorem State.setPending_pending (s : State) (x : List HostAction) : (s.setPending x).pending = x := rfl
@[simp] theorem State.setPending_rdata (s : State) (x : List HostAction) : (s.setPending x).rdata = s.rdata := rfl
@[simp] theorem State.setPending_tick (s : State) (x : List HostAction) : (s.setPending x).tick = s.tick := rfl

/-! ### setRdata -/

@[simp] theorem State.setRdata_cfg (s : State) (x : Word) : (s.setRdata x).cfg = s.cfg := rfl
@[simp] theorem State.setRdata_status (s : State) (x : Word) : (s.setRdata x).status = s.status := rfl
@[simp] theorem State.setRdata_msg (s : State) (x : Word) : (s.setRdata x).msg = s.msg := rfl
@[simp] theorem State.setRdata_diag (s : State) (x : Word) : (s.setRdata x).diag = s.diag := rfl
@[simp] theorem State.setRdata_ops (s : State) (x : Word) : (s.setRdata x).ops = s.ops := rfl
@[simp] theorem State.setRdata_dct (s : State) (x : Word) : (s.setRdata x).dct = s.dct := rfl
@[simp] theorem State.setRdata_mdct (s : State) (x : Word) : (s.setRdata x).mdct = s.mdct := rfl
@[simp] theorem State.setRdata_ola (s : State) (x : Word) : (s.setRdata x).ola = s.ola := rfl
@[simp] theorem State.setRdata_seg (s : State) (x : Word) : (s.setRdata x).seg = s.seg := rfl
@[simp] theorem State.setRdata_hm (s : State) (x : Word) : (s.setRdata x).hm = s.hm := rfl
@[simp] theorem State.setRdata_ip (s : State) (x : Word) : (s.setRdata x).ip = s.ip := rfl
@[simp] theorem State.setRdata_pending (s : State) (x : Word) : (s.setRdata x).pending = s.pending := rfl
@[simp] theorem State.setRdata_rdata (s : State) (x : Word) : (s.setRdata x).rdata = x := rfl
@[simp] theorem State.setRdata_tick (s : State) (x : Word) : (s.setRdata x).tick = s.tick := rfl

/-! ### setTick -/

@[simp] theorem State.setTick_cfg (s : State) (x : Nat) : (s.setTick x).cfg = s.cfg := rfl
@[simp] theorem State.setTick_status (s : State) (x : Nat) : (s.setTick x).status = s.status := rfl
@[simp] theorem State.setTick_msg (s : State) (x : Nat) : (s.setTick x).msg = s.msg := rfl
@[simp] theorem State.setTick_diag (s : State) (x : Nat) : (s.setTick x).diag = s.diag := rfl
@[simp] theorem State.setTick_ops (s : State) (x : Nat) : (s.setTick x).ops = s.ops := rfl
@[simp] theorem State.setTick_dct (s : State) (x : Nat) : (s.setTick x).dct = s.dct := rfl
@[simp] theorem State.setTick_mdct (s : State) (x : Nat) : (s.setTick x).mdct = s.mdct := rfl
@[simp] theorem State.setTick_ola (s : State) (x : Nat) : (s.setTick x).ola = s.ola := rfl
@[simp] theorem State.setTick_seg (s : State) (x : Nat) : (s.setTick x).seg = s.seg := rfl
@[simp] theorem State.setTick_hm (s : State) (x : Nat) : (s.setTick x).hm = s.hm := rfl
@[simp] theorem State.setTick_ip (s : State) (x : Nat) : (s.setTick x).ip = s.ip := rfl
@[simp] theorem State.setTick_pending (s : State) (x : Nat) : (s.setTick x).pending = s.pending := rfl
@[simp] theorem State.setTick_rdata (s : State) (x : Nat) : (s.setTick x).rdata = s.rdata := rfl
@[simp] theorem State.setTick_tick (s : State) (x : Nat) : (s.setTick x).tick = x := rfl

/-! ### memWrite -/

@[simp] theorem State.memWrite_cfg (s : State) (addr : Nat) (v : List HmWord) : (s.memWrite addr v).cfg = s.cfg := rfl
@[simp] theorem State.memWrite_status (s : State) (addr : Nat) (v : List HmWord) : (s.memWrite addr v).status = s.status := rfl
@[simp] theorem State.memWrite_msg (s : State) (addr : Nat) (v : List HmWord) : (s.memWrite addr v).msg = s.msg := rfl
@[simp] theorem State.memWrite_diag (s : State) (addr : Nat) (v : List HmWord) : (s.memWrite addr v).diag = s.diag := rfl
@[simp] theorem State.memWrite_ops (s : State) (addr : Nat) (v : List HmWord) : (s.memWrite addr v).ops = s.ops := rfl
@[simp] theorem State.memWrite_dct (s : State) (addr : Nat) (v : List HmWord) : (s.memWrite addr v).dct = s.dct := rfl
@[simp] theorem State.memWrite_mdct (s : State) (addr : Nat) (v : List HmWord) : (s.memWrite addr v).mdct = s.mdct := rfl
@[simp] theorem State.memWrite_ola (s : State) (addr : Nat) (v : List HmWord) : (s.memWrite addr v).ola = s.ola := rfl
@[simp] theorem State.memWrite_seg (s : State) (addr : Nat) (v : List HmWord) : (s.memWrite addr v).seg = s.seg := rfl
@[simp] theorem State.memWrite_hm (s : State) (addr : Nat) (v : List HmWord) : (s.memWrite addr v).hm = s.hm.write addr v := rfl
@[simp] theorem State.memWrite_ip (s : State) (addr : Nat) (v : List HmWord) : (s.memWrite addr v).ip = s.ip := rfl
@[simp] theorem State.memWrite_pending (s : State) (addr : Nat) (v : List HmWord) : (s.memWrite addr v).pending = s.pending := rfl
@[simp] theorem State.memWrite_rdata (s : State) (addr : Nat) (v : List HmWord) : (s.memWrite addr v).rdata = s.rdata := rfl
@[simp] theorem State.memWrite_tick (s : State) (addr : Nat) (v : List HmWord) : (s.memWrite addr v).tick = s.tick := rfl

/-! ### putDct -/

@[simp] theorem State.putDct_cfg (s : State) (i : InstNo) (x : Slot DctInst) : (s.putDct i x).cfg = s.cfg := rfl
@[simp] theorem State.putDct_status (s : State) (i : InstNo) (x : Slot DctInst) : (s.putDct i x).status = s.status := rfl
@[simp] theorem State.putDct_msg (s : State) (i : InstNo) (x : Slot DctInst) : (s.putDct i x).msg = s.msg := rfl
@[simp] theorem State.putDct_diag (s : State) (i : InstNo) (x : Slot DctInst) : (s.putDct i x).diag = s.diag := rfl
@[simp] theorem State.putDct_ops (s : State) (i : InstNo) (x : Slot DctInst) : (s.putDct i x).ops = s.ops := rfl
@[simp] theorem State.putDct_dct (s : State) (i : InstNo) (x : Slot DctInst) : (s.putDct i x).dct = Cells.set .unconfigured s.dct i.toNat x := rfl
@[simp] theorem State.putDct_mdct (s : State) (i : InstNo) (x : Slot DctInst) : (s.putDct i x).mdct = s.mdct := rfl
@[simp] theorem State.putDct_ola (s : State) (i : InstNo) (x : Slot DctInst) : (s.putDct i x).ola = s.ola := rfl
@[simp] theorem State.putDct_seg (s : State) (i : InstNo) (x : Slot DctInst) : (s.putDct i x).seg = s.seg := rfl
@[simp] theorem State.putDct_hm (s : State) (i : InstNo) (x : Slot DctInst) : (s.putDct i x).hm = s.hm := rfl
@[simp] theorem State.putDct_ip (s : State) (i : InstNo) (x : Slot DctInst) : (s.putDct i x).ip = s.ip := rfl
@[simp] theorem State.putDct_pending (s : State) (i : InstNo) (x : Slot DctInst) : (s.putDct i x).pending = s.pending := rfl
@[simp] theorem State.putDct_rdata (s : State) (i : InstNo) (x : Slot DctInst) : (s.putDct i x).rdata = s.rdata := rfl
@[simp] theorem State.putDct_tick (s : State) (i : InstNo) (x : Slot DctInst) : (s.putDct i x).tick = s.tick := rfl

/-! ### putMdct -/

@[simp] theorem State.putMdct_cfg (s : State) (i : InstNo) (x : Slot MdctInst) : (s.putMdct i x).cfg = s.cfg := rfl
@[simp] theorem State.putMdct_status (s : State) (i : InstNo) (x : Slot MdctInst) : (s.putMdct i x).status = s.status := rfl
@[simp] theorem State.putMdct_msg (s : State) (i : InstNo) (x : Slot MdctInst) : (s.putMdct i x).msg = s.msg := rfl
@[simp] theorem State.putMdct_diag (s : State) (i : InstNo) (x : Slot MdctInst) : (s.putMdct i x).diag = s.diag := rfl
@[simp] theorem State.putMdct_ops (s : State) (i : InstNo) (x : Slot MdctInst) : (s.putMdct i x).ops = s.ops := rfl
@[simp] theorem State.putMdct_dct (s : State) (i : InstNo) (x : Slot MdctInst) : (s.putMdct i x).dct = s.dct := rfl
@[simp] theorem State.putMdct_mdct (s : State) (i : InstNo) (x : Slot MdctInst) : (s.putMdct i x).mdct = Cells.set .unconfigured s.mdct i.toNat x := rfl
@[simp] theorem State.putMdct_ola (s : State) (i : InstNo) (x : Slot MdctInst) : (s.putMdct i x).ola = s.ola := rfl
@[simp] theorem State.putMdct_seg (s : State) (i : InstNo) (x : Slot MdctInst) : (s.putMdct i x).seg = s.seg := rfl
@[simp] theorem State.putMdct_hm (s : State) (i : InstNo) (x : Slot MdctInst) : (s.putMdct i x).hm = s.hm := rfl
@[simp] theorem State.putMdct_ip (s : State) (i : InstNo) (x : Slot MdctInst) : (s.putMdct i x).ip = s.ip := rfl
@[simp] theorem State.putMdct_pending (s : State) (i : InstNo) (x : Slot MdctInst) : (s.putMdct i x).pending = s.pending := rfl
@[simp] theorem State.putMdct_rdata (s : State) (i : InstNo) (x : Slot MdctInst) : (s.putMdct i x).rdata = s.rdata := rfl
@[simp] theorem State.putMdct_tick (s : State) (i : InstNo) (x : Slot MdctInst) : (s.putMdct i x).tick = s.tick := rfl

/-! ### putOla -/

@[simp] theorem State.putOla_cfg (s : State) (i : InstNo) (x : Slot OlaInst) : (s.putOla i x).cfg = s.cfg := rfl
@[simp] theorem State.putOla_status (s : State) (i : InstNo) (x : Slot OlaInst) : (s.putOla i x).status = s.status := rfl
@[simp] theorem State.putOla_msg (s : State) (i : InstNo) (x : Slot OlaInst) : (s.putOla i x).msg = s.msg := rfl
@[simp] theorem State.putOla_diag (s : State) (i : InstNo) (x : Slot OlaInst) : (s.putOla i x).diag = s.diag := rfl
@[simp] theorem State.putOla_ops (s : State) (i : InstNo) (x : Slot OlaInst) : (s.putOla i x).ops = s.ops := rfl
@[simp] theorem State.putOla_dct (s : State) (i : InstNo) (x : Slot OlaInst) : (s.putOla i x).dct = s.dct := rfl
@[simp] theorem State.putOla_mdct (s : State) (i : InstNo) (x : Slot OlaInst) : (s.putOla i x).mdct = s.mdct := rfl
@[simp] theorem State.putOla_ola (s : State) (i : InstNo) (x : Slot OlaInst) : (s.putOla i x).ola = Machine.putOla s.ola i.toNat x := rfl
@[simp] theorem State.putOla_seg (s : State) (i : InstNo) (x : Slot OlaInst) : (s.putOla i x).seg = s.seg := rfl
@[simp] theorem State.putOla_hm (s : State) (i : InstNo) (x : Slot OlaInst) : (s.putOla i x).hm = s.hm := rfl
@[simp] theorem State.putOla_ip (s : State) (i : InstNo) (x : Slot OlaInst) : (s.putOla i x).ip = s.ip := rfl
@[simp] theorem State.putOla_pending (s : State) (i : InstNo) (x : Slot OlaInst) : (s.putOla i x).pending = s.pending := rfl
@[simp] theorem State.putOla_rdata (s : State) (i : InstNo) (x : Slot OlaInst) : (s.putOla i x).rdata = s.rdata := rfl
@[simp] theorem State.putOla_tick (s : State) (i : InstNo) (x : Slot OlaInst) : (s.putOla i x).tick = s.tick := rfl

/-! ### complete -/

@[simp] theorem State.complete_cfg (s : State) : s.complete.cfg = s.cfg := rfl
@[simp] theorem State.complete_status (s : State) : s.complete.status = statusWord okCode 0 := rfl
@[simp] theorem State.complete_msg (s : State) : s.complete.msg = s.msg := rfl
@[simp] theorem State.complete_diag (s : State) : s.complete.diag = s.diag := rfl
@[simp] theorem State.complete_ops (s : State) : s.complete.ops = s.ops := rfl
@[simp] theorem State.complete_dct (s : State) : s.complete.dct = s.dct := rfl
@[simp] theorem State.complete_mdct (s : State) : s.complete.mdct = s.mdct := rfl
@[simp] theorem State.complete_ola (s : State) : s.complete.ola = s.ola := rfl
@[simp] theorem State.complete_seg (s : State) : s.complete.seg = s.seg := rfl
@[simp] theorem State.complete_hm (s : State) : s.complete.hm = s.hm := rfl
@[simp] theorem State.complete_ip (s : State) : s.complete.ip = s.ip := rfl
@[simp] theorem State.complete_pending (s : State) : s.complete.pending = s.pending := rfl
@[simp] theorem State.complete_rdata (s : State) : s.complete.rdata = s.rdata := rfl
@[simp] theorem State.complete_tick (s : State) : s.complete.tick = s.tick := rfl

/-! ### raise -/

@[simp] theorem State.raise_cfg (s : State) (e : Err) : (s.raise e).cfg = s.cfg := rfl
@[simp] theorem State.raise_status (s : State) (e : Err) : (s.raise e).status = statusWord e.code 0 := rfl
@[simp] theorem State.raise_msg (s : State) (e : Err) : (s.raise e).msg = s.msg := rfl
@[simp] theorem State.raise_diag (s : State) (e : Err) : (s.raise e).diag = s.diag := rfl
@[simp] theorem State.raise_ops (s : State) (e : Err) : (s.raise e).ops = s.ops := rfl
@[simp] theorem State.raise_dct (s : State) (e : Err) : (s.raise e).dct = s.dct := rfl
@[simp] theorem State.raise_mdct (s : State) (e : Err) : (s.raise e).mdct = s.mdct := rfl
@[simp] theorem State.raise_ola (s : State) (e : Err) : (s.raise e).ola = s.ola := rfl
@[simp] theorem State.raise_seg (s : State) (e : Err) : (s.raise e).seg = s.seg := rfl
@[simp] theorem State.raise_hm (s : State) (e : Err) : (s.raise e).hm = s.hm := rfl
@[simp] theorem State.raise_ip (s : State) (e : Err) : (s.raise e).ip = s.ip := rfl
@[simp] theorem State.raise_pending (s : State) (e : Err) : (s.raise e).pending = s.pending := rfl
@[simp] theorem State.raise_rdata (s : State) (e : Err) : (s.raise e).rdata = s.rdata := rfl
@[simp] theorem State.raise_tick (s : State) (e : Err) : (s.raise e).tick = s.tick := rfl

/-! ### raiseInner -/

@[simp] theorem State.raiseInner_cfg (s : State) (c : Nat) (d : Word) : (s.raiseInner c d).cfg = s.cfg := rfl
@[simp] theorem State.raiseInner_status (s : State) (c : Nat) (d : Word) : (s.raiseInner c d).status = statusWord innerCode (BitVec.ofNat 8 c) := rfl
@[simp] theorem State.raiseInner_msg (s : State) (c : Nat) (d : Word) : (s.raiseInner c d).msg = s.msg := rfl
@[simp] theorem State.raiseInner_diag (s : State) (c : Nat) (d : Word) : (s.raiseInner c d).diag = d := rfl
@[simp] theorem State.raiseInner_ops (s : State) (c : Nat) (d : Word) : (s.raiseInner c d).ops = s.ops := rfl
@[simp] theorem State.raiseInner_dct (s : State) (c : Nat) (d : Word) : (s.raiseInner c d).dct = s.dct := rfl
@[simp] theorem State.raiseInner_mdct (s : State) (c : Nat) (d : Word) : (s.raiseInner c d).mdct = s.mdct := rfl
@[simp] theorem State.raiseInner_ola (s : State) (c : Nat) (d : Word) : (s.raiseInner c d).ola = s.ola := rfl
@[simp] theorem State.raiseInner_seg (s : State) (c : Nat) (d : Word) : (s.raiseInner c d).seg = s.seg := rfl
@[simp] theorem State.raiseInner_hm (s : State) (c : Nat) (d : Word) : (s.raiseInner c d).hm = s.hm := rfl
@[simp] theorem State.raiseInner_ip (s : State) (c : Nat) (d : Word) : (s.raiseInner c d).ip = s.ip := rfl
@[simp] theorem State.raiseInner_pending (s : State) (c : Nat) (d : Word) : (s.raiseInner c d).pending = s.pending := rfl
@[simp] theorem State.raiseInner_rdata (s : State) (c : Nat) (d : Word) : (s.raiseInner c d).rdata = s.rdata := rfl
@[simp] theorem State.raiseInner_tick (s : State) (c : Nat) (d : Word) : (s.raiseInner c d).tick = s.tick := rfl

/-! ### resetBlock -/

@[simp] theorem State.resetBlock_cfg (s : State) : s.resetBlock.cfg = s.cfg := rfl
@[simp] theorem State.resetBlock_status (s : State) : s.resetBlock.status = 0 := rfl
@[simp] theorem State.resetBlock_msg (s : State) : s.resetBlock.msg = 0 := rfl
@[simp] theorem State.resetBlock_diag (s : State) : s.resetBlock.diag = 0 := rfl
@[simp] theorem State.resetBlock_ops (s : State) : s.resetBlock.ops = OpRegs.zero := rfl
@[simp] theorem State.resetBlock_dct (s : State) : s.resetBlock.dct = [] := rfl
@[simp] theorem State.resetBlock_mdct (s : State) : s.resetBlock.mdct = [] := rfl
@[simp] theorem State.resetBlock_ola (s : State) : s.resetBlock.ola = [] := rfl
@[simp] theorem State.resetBlock_seg (s : State) : s.resetBlock.seg = .unconfigured := rfl
@[simp] theorem State.resetBlock_hm (s : State) : s.resetBlock.hm = s.hm := rfl
@[simp] theorem State.resetBlock_ip (s : State) : s.resetBlock.ip = s.ip := rfl
@[simp] theorem State.resetBlock_pending (s : State) : s.resetBlock.pending = s.pending := rfl
@[simp] theorem State.resetBlock_rdata (s : State) : s.resetBlock.rdata = s.rdata := rfl
@[simp] theorem State.resetBlock_tick (s : State) : s.resetBlock.tick = s.tick := rfl

/-- Two states are equal when all their fields are. -/
theorem State.ext_fields {s t : State} (h1 : s.cfg = t.cfg) (h2 : s.status = t.status) (h3 : s.msg = t.msg)
    (h4 : s.diag = t.diag) (h5 : s.ops = t.ops) (h6 : s.dct = t.dct) (h7 : s.mdct = t.mdct) (h8 : s.ola = t.ola)
    (h9 : s.seg = t.seg) (h10 : s.hm = t.hm) (h11 : s.ip = t.ip) (h12 : s.pending = t.pending) (h13 : s.rdata = t.rdata)
    (h14 : s.tick = t.tick) : s = t := by
  cases s
  cases t
  simp_all

end Sys2Proof.Machine
end

