-- ==== Sys2Proof/Laws/Commands.lean ====
section
/-! SUPPORT. For each command, once, everything it can do: it ends with an error and has changed nothing but `STATUS` (rule R219), or
its checks hold and it has the effect its rule gives. And for a step: what it does for each thing the host may have asked. -/
namespace Sys2Proof.Machine

/-! ### The ends of a command, as states -/

theorem State.complete_eq (s : State) : s.complete = { s with status := 0#32 } := rfl

theorem State.raise_noChannels (s : State) : s.raise .noChannels = { s with status := 1#32 } := rfl

theorem State.raise_config (s : State) : s.raise .config = { s with status := 3#32 } := rfl

theorem State.raise_illegalCmd (s : State) : s.raise .illegalCmd = { s with status := 4#32 } := rfl

theorem State.raise_state (s : State) : s.raise .state = { s with status := 5#32 } := rfl

theorem State.raise_operand (s : State) : s.raise .operand = { s with status := 6#32 } := rfl

theorem statusCode_statusWord (code chan : BitVec 8) : statusCode (statusWord code chan) = code := by
  apply BitVec.eq_of_getLsbD_eq
  intro k hk
  simp only [statusCode, statusWord, BitVec.getLsbD_extractLsb', BitVec.getLsbD_append, hk, Nat.zero_add, decide_true, if_true,
    Bool.true_and]

theorem statusChan_statusWord (code chan : BitVec 8) : statusChan (statusWord code chan) = chan := by
  apply BitVec.eq_of_getLsbD_eq
  intro k hk
  simp only [statusChan, statusWord, BitVec.getLsbD_extractLsb', BitVec.getLsbD_append, hk, decide_true, Bool.true_and,
    show ¬ (8 + k < 8) by omega, if_false, Nat.add_sub_cancel_left, if_true]

theorem statusHigh_statusWord (code chan : BitVec 8) : (statusWord code chan).extractLsb' 16 16 = 0#16 := by
  apply BitVec.eq_of_getLsbD_eq
  intro k hk
  simp only [statusWord, BitVec.getLsbD_extractLsb', BitVec.getLsbD_append, hk, decide_true, Bool.true_and,
    show ¬ (16 + k < 8) by omega, if_false, show ¬ (16 + k - 8 < 8) by omega,
    BitVec.getLsbD_zero]

/-! ### The commands -/

theorem execSysReset_cases {s t : State} (h : execSysReset s = .next t) : t = s.resetBlock := by
  injection h with h
  exact h.symm

theorem execDctCfg_cases {i : InstNo} {s t : State} (h : execDctCfg i s = .next t) :
    (dctLengthOk s.cfg s.len = true ∧ t = (s.putDct i (.configured { n := s.len })).complete) ∨
      (dctLengthOk s.cfg s.len = false ∧ t = s.raise .config) := by
  unfold execDctCfg at h
  cases hl : dctLengthOk s.cfg s.len <;> simp [hl] at h <;> simp [h]

theorem dctProcess_cases {f : Nat → List Word → List Word} {i : InstNo} {s t : State} (h : dctProcess f i s = .next t) :
    (∃ d, s.dctAt i = .configured d ∧ dctRangesOk s d.n = true ∧ t = dctEffect (f d.n) d.n s) ∨
      (∃ d, s.dctAt i = .configured d ∧ dctRangesOk s d.n = false ∧ t = s.raise .operand) ∨
      ((∀ d, s.dctAt i ≠ .configured d) ∧ t = s.raise .state) := by
  unfold dctProcess at h
  cases hd : s.dctAt i with
  | configured d => cases hr : dctRangesOk s d.n <;> simp [hd, hr] at h <;> simp [h, hr]
  | unconfigured => simp [hd] at h; simp [h]
  | faulted d => simp [hd] at h; simp [h]

theorem execMdctCfg_cases {i : InstNo} {s t : State} (h : execMdctCfg i s = .next t) :
    (blockSizeOk s.cfg s.len = true ∧ t = (s.putMdct i (.configured (MdctInst.fresh s.len))).complete) ∨
      (blockSizeOk s.cfg s.len = false ∧ t = s.raise .config) := by
  unfold execMdctCfg at h
  cases hl : blockSizeOk s.cfg s.len <;> simp [hl] at h <;> simp [h]

theorem execMdctFwd_cases {i : InstNo} {s t : State} (h : execMdctFwd i s = .next t) :
    (∃ m, s.mdctAt i = .configured m ∧ mdctRangesOk s m.b (2 * m.b) = true ∧ t = mdctFwdEffect i m s) ∨
      (∃ m, s.mdctAt i = .configured m ∧ mdctRangesOk s m.b (2 * m.b) = false ∧ t = s.raise .operand) ∨
      ((∀ m, s.mdctAt i ≠ .configured m) ∧ t = s.raise .state) := by
  unfold execMdctFwd at h
  cases hd : s.mdctAt i with
  | configured m => cases hr : mdctRangesOk s m.b (2 * m.b) <;> simp [hd, hr] at h <;> simp [h, hr]
  | unconfigured => simp [hd] at h; simp [h]
  | faulted m => simp [hd] at h; simp [h]

theorem execMdctInv_cases {i : InstNo} {s t : State} (h : execMdctInv i s = .next t) :
    (∃ m, s.mdctAt i = .configured m ∧ mdctRangesOk s (2 * m.b) m.b = true ∧ t = mdctInvEffect i m s) ∨
      (∃ m, s.mdctAt i = .configured m ∧ mdctRangesOk s (2 * m.b) m.b = false ∧ t = s.raise .operand) ∨
      ((∀ m, s.mdctAt i ≠ .configured m) ∧ t = s.raise .state) := by
  unfold execMdctInv at h
  cases hd : s.mdctAt i with
  | configured m => cases hr : mdctRangesOk s (2 * m.b) m.b <;> simp [hd, hr] at h <;> simp [h, hr]
  | unconfigured => simp [hd] at h; simp [h]
  | faulted m => simp [hd] at h; simp [h]

theorem execOlaCfg_cases {i : InstNo} {pre post : Bool} {s t : State} (h : execOlaCfg i pre post s = .next t) :
    (blockSizeOk s.cfg s.len = true ∧ windowRangeOk s s.len = true ∧
      t = (s.putOla i (.configured
        (OlaInst.fresh s.tick i.toNat s.len pre post (s.memRead s.ptr0 (2 * s.len))))).complete) ∨
      (blockSizeOk s.cfg s.len = false ∧ t = s.raise .config) ∨
      (blockSizeOk s.cfg s.len = true ∧ windowRangeOk s s.len = false ∧ t = s.raise .operand) := by
  unfold execOlaCfg at h
  cases hl : blockSizeOk s.cfg s.len
  · simp [hl] at h; simp [h]
  · cases hw : windowRangeOk s s.len <;> simp [hl, hw] at h <;> simp [h]

theorem execOlaProc_cases {i : InstNo} {s t : State} (h : execOlaProc i s = .next t) :
    (∃ o, s.olaAt i = .configured o ∧ s.ptr0 + o.b ≤ s.cfg.hmsize ∧ t = olaEffect i o s) ∨
      (∃ o, s.olaAt i = .configured o ∧ s.cfg.hmsize < s.ptr0 + o.b ∧ t = s.raise .operand) ∨
      ((∀ o, s.olaAt i ≠ .configured o) ∧ t = s.raise .state) := by
  unfold execOlaProc at h
  cases hd : s.olaAt i with
  | configured o =>
    have hv := Range.valid_iff s.cfg.hmsize { addr := s.ptr0, size := o.b }
    dsimp only at hv
    cases hr : Range.valid s.cfg.hmsize { addr := s.ptr0, size := o.b }
    · simp only [hr, Bool.false_eq_true, false_iff, Nat.not_le] at hv
      simp [hd, hr] at h
      exact .inr (.inl ⟨o, rfl, hv, h.symm⟩)
    · simp only [hr, true_iff] at hv
      simp [hd, hr] at h
      exact .inl ⟨o, rfl, hv, h.symm⟩
  | unconfigured => simp [hd] at h; simp [h]
  | faulted o => simp [hd] at h; simp [h]

theorem execSegCfgExt_cases {s t : State} (h : execSegCfgExt s = .next t) :
    (segSizeOk s.cfg s.len s.nch = true ∧
      t = (s.setSeg (.configured (SegInst.fresh true s.tick s.len s.nch .ext))).complete) ∨
      (segSizeOk s.cfg s.len s.nch = false ∧ t = s.raise .config) := by
  unfold execSegCfgExt at h
  cases hl : segSizeOk s.cfg s.len s.nch <;> simp [hl] at h <;> simp [h]

theorem execSegCfgOla_cases {pre post : Bool} {s t : State} (h : execSegCfgOla pre post s = .next t) :
    (segSizeOk s.cfg s.len s.nch = true ∧ isPow2 s.len = true ∧ windowRangeOk s s.len = true ∧
      t = segCfgOlaEffect pre post s) ∨
      ((segSizeOk s.cfg s.len s.nch && isPow2 s.len) = false ∧ t = s.raise .config) ∨
      (segSizeOk s.cfg s.len s.nch = true ∧ isPow2 s.len = true ∧ windowRangeOk s s.len = false ∧
        t = s.raise .operand) := by
  unfold execSegCfgOla at h
  cases hl : segSizeOk s.cfg s.len s.nch
  · simp [hl] at h; simp [h]
  · cases hp : isPow2 s.len
    · simp [hl, hp] at h; simp [h]
    · cases hw : windowRangeOk s s.len <;> simp [hl, hp, hw] at h <;> simp [h]

theorem execSegProc_cases {s t : State} (h : execSegProc s = .next t) :
    (∃ g, s.seg = .configured g ∧ s.nch ≠ 0 ∧
      rowsOk s.cfg.hmsize s.ptr0 s.stride (s.procChans g) s.len = true ∧ wrappersOk g (s.procChans g) s.ola = true ∧
      t = segEffect g (s.procChans g) s) ∨
      (∃ g, s.seg = .configured g ∧ s.nch = 0 ∧ t = s.raise .noChannels) ∨
      (∃ g, s.seg = .configured g ∧ s.nch ≠ 0 ∧
        rowsOk s.cfg.hmsize s.ptr0 s.stride (s.procChans g) s.len = false ∧ t = s.raise .operand) ∨
      (∃ g, s.seg = .configured g ∧ s.nch ≠ 0 ∧
        rowsOk s.cfg.hmsize s.ptr0 s.stride (s.procChans g) s.len = true ∧
        wrappersOk g (s.procChans g) s.ola = false ∧ t = s.raise .state) ∨
      ((∀ g, s.seg ≠ .configured g) ∧ t = s.raise .state) := by
  unfold execSegProc at h
  cases hd : s.seg with
  | configured g =>
    by_cases hn : s.nch = 0
    · simp [hd, hn] at h; simp [h, hn]
    · cases hr : rowsOk s.cfg.hmsize s.ptr0 s.stride (s.procChans g) s.len
      · simp [hd, hn, hr] at h; simp [h, hn, hr]
      · cases hw : wrappersOk g (s.procChans g) s.ola <;> simp [hd, hn, hr, hw] at h <;> simp [h, hn, hr, hw]
  | unconfigured => simp [hd] at h; simp [h]
  | faulted g => simp [hd] at h; simp [h]

/-! ### A step -/

/-- With nothing pending the block idles. -/
theorem step_idle {s : State} (h : s.pending = []) : step s = .next s := by simp [step, fetch, h]

/-- The next state of a step, by what the host asked. -/
theorem step_cases {s t : State} (h : step s = .next t) :
    (s.pending = [] ∧ t = s) ∨
      ∃ a rest, s.pending = a :: rest ∧
        ((∃ w i, a = .regWrite cmdOffset w ∧ classify s.cfg.ninst w = .ok i ∧ exec i s.issued = .next t) ∨
          (∃ w e, a = .regWrite cmdOffset w ∧ classify s.cfg.ninst w = .error e ∧ t = s.issued.raise .illegalCmd) ∨
          (∃ k w, a = .regWrite k w ∧ k ≠ cmdOffset ∧ t = (s.setPending rest).setOps (s.ops.write k w)) ∨
          (∃ k, a = .regRead k ∧ t = (s.setPending rest).setRdata (s.readReg k)) ∨
          (∃ k w, a = .hmStore k w ∧ k < s.cfg.hmsize ∧ t = (s.setPending rest).memWrite k [.known w]) ∨
          (∃ k, a = .hmLoad k ∧ k < s.cfg.hmsize ∧ t = (s.setPending rest).setRdata (s.hm.get k)) ∨
          (a = .hardReset ∧ t = (s.setPending rest).resetBlock)) := by
  cases hp : s.pending with
  | nil =>
    rw [step_idle hp] at h
    injection h with h
    exact .inl ⟨rfl, h.symm⟩
  | cons a rest =>
    refine .inr ⟨a, rest, rfl, ?_⟩
    have hiss : (s.setPending rest).setTick ((s.setPending rest).tick + 1) = s.issued := by
      simp [State.issued, hp]
    simp only [step, fetch, hp] at h
    cases a with
    | regWrite k w =>
      by_cases hk : k = cmdOffset
      · subst hk
        simp only [hostAct, if_true, hiss] at h
        have hc : s.issued.cfg = s.cfg := rfl
        rw [hc] at h
        cases hw : classify s.cfg.ninst w with
        | ok i =>
          simp only [hw] at h
          exact .inl ⟨w, i, rfl, hw, h⟩
        | error e =>
          simp only [hw, illegalCommand] at h
          injection h with h
          exact .inr (.inl ⟨w, e, rfl, hw, h.symm⟩)
      · simp only [hostAct, hk, if_false] at h
        injection h with h
        exact .inr (.inr (.inl ⟨k, w, rfl, hk, h.symm⟩))
    | regRead k =>
      simp only [hostAct] at h
      injection h with h
      exact .inr (.inr (.inr (.inl ⟨k, rfl, h.symm⟩)))
    | hmStore k w =>
      simp only [hostAct, hostStore] at h
      have hc : (s.setPending rest).cfg = s.cfg := rfl
      by_cases hk : k < s.cfg.hmsize
      · simp only [hc, hk, if_true] at h
        injection h with h
        exact .inr (.inr (.inr (.inr (.inl ⟨k, w, rfl, hk, h.symm⟩))))
      · simp [hk] at h
    | hmLoad k =>
      simp only [hostAct, hostLoad] at h
      have hc : (s.setPending rest).cfg = s.cfg := rfl
      by_cases hk : k < s.cfg.hmsize
      · simp only [hc, hk, if_true] at h
        injection h with h
        exact .inr (.inr (.inr (.inr (.inr (.inl ⟨k, rfl, hk, h.symm⟩)))))
      · simp [hk] at h
    | hardReset =>
      simp only [hostAct] at h
      injection h with h
      exact .inr (.inr (.inr (.inr (.inr (.inr ⟨rfl, h.symm⟩)))))

end Sys2Proof.Machine
end

