-- ==== Sys2Proof/Laws/Transform.lean ====
section
/-! SUPPORT. The lengths of the transforms' results, and their recursion depths at the lengths a DCT may have. -/
namespace Sys2Proof.Machine

variable {α : Type}

@[simp] theorem length_fwdRec (N : Numerics α) (d : Nat) (x : List α) : (fwdRec N d x).length = 2 ^ (d + 1) := by
  cases d <;> simp [fwdRec]

@[simp] theorem length_invRec (N : Numerics α) (d : Nat) (y : List α) : (invRec N d y).length = 2 ^ (d + 1) := by
  cases d <;> simp [invRec]

@[simp] theorem length_postScale (N : Numerics α) (n : Nat) (x : List α) : (postScale N n x).length = n := by
  simp [postScale]

@[simp] theorem length_dctForward (N : Numerics α) (n : Nat) (x : List α) : (dctForward N n x).length = n := by
  simp [dctForward]

theorem depth_two_pow (d : Nat) : (2 ^ (d + 1)).log2 - 1 = d := by
  rw [Nat.log2_two_pow]
  rfl

theorem dctForward_two_pow (N : Numerics α) (d : Nat) (x : List α) :
    dctForward N (2 ^ (d + 1)) x = postScale N (2 ^ (d + 1)) (fwdRec N d x) := by
  rw [dctForward, depth_two_pow]

theorem dctInverse_two_pow (N : Numerics α) (d : Nat) (y : List α) :
    dctInverse N (2 ^ (d + 1)) y = invRec N d y := by
  rw [dctInverse, depth_two_pow]

theorem length_dctInverse (N : Numerics α) {n : Nat} (y : List α) (h : ∃ d, n = 2 ^ (d + 1)) :
    (dctInverse N n y).length = n := by
  obtain ⟨d, rfl⟩ := h
  rw [dctInverse_two_pow, length_invRec]

end Sys2Proof.Machine
end

