-- ==== Sys2Proof/Laws/Port.lean ====
section
/-! SUPPORT. What is known of every call through the inner-processor port (rule R9): the returned vector has the length of the one
passed, one more invocation is counted, and no other site's state component changes. -/
namespace Sys2Proof.Machine

@[simp] theorem IPState.calls_put (p : IPState) (x : Site) (st : Nat) : (p.put x st).calls = p.calls := by
  cases x <;> rfl

@[simp] theorem IPState.calls_count (p : IPState) : p.count.calls = p.calls + 1 := rfl

@[simp] theorem IPState.at_count (p : IPState) (x : Site) : p.count.at x = p.at x := by cases x <;> rfl

@[simp] theorem IPState.at_put_same (p : IPState) (x : Site) (st : Nat) : (p.put x st).at x = st := by
  cases x <;> simp [IPState.at, IPState.put]

theorem IPState.at_put_other (p : IPState) {x y : Site} (st : Nat) (h : y ≠ x) : (p.put x st).at y = p.at y := by
  cases x <;> cases y <;> simp only [IPState.at, IPState.put]
  all_goals exact Cells.get_set_other _ _ _ fun e => h (by rw [e])

/-- The two maps of `IPState` are in canonical form. -/
def IPState.wf (p : IPState) : Prop := Cells.wf 0 p.seg ∧ Cells.wf 0 p.ola

theorem IPState.put_wf {p : IPState} (x : Site) (st : Nat) (h : p.wf) : (p.put x st).wf := by
  cases x with
  | seg c => exact ⟨Cells.set_wf c st h.1, h.2⟩
  | ola i => exact ⟨h.1, Cells.set_wf i st h.2⟩

theorem IPState.count_wf {p : IPState} (h : p.wf) : p.count.wf := h

@[simp] theorem length_specProcess (c : Config) (v : List Word) : (specProcess c v).length = v.length := by
  simp [specProcess]

/-- The returned vector has the length of the one passed (rule R9). -/
@[simp] theorem length_callPort (c : Config) (x : Site) (v : List Word) (env : Word) (p : IPState) :
    (callPort c x v env p).out.length = v.length := by
  unfold callPort
  cases c.port with
  | f2Neg => dsimp only; split <;> simp
  | fFail3 => dsimp only; split <;> simp
  | _ => simp

/-- One more invocation. -/
@[simp] theorem calls_callPort (c : Config) (x : Site) (v : List Word) (env : Word) (p : IPState) :
    (callPort c x v env p).ip.calls = p.calls + 1 := by
  unfold callPort
  cases c.port with
  | fFail3 => dsimp only; split <;> simp
  | _ => simp

/-- The state components of the other sites are as they were (rule R9: "channels are independent and never share mutable
state"). -/
theorem at_callPort_other (c : Config) {x y : Site} (v : List Word) (env : Word) (p : IPState) (h : y ≠ x) :
    (callPort c x v env p).ip.at y = p.at y := by
  unfold callPort
  cases c.port with
  | platform => simp [IPState.at_put_other p _ h]
  | fFail3 => dsimp only; split <;> simp
  | _ => simp

theorem callPort_wf (c : Config) (x : Site) (v : List Word) (env : Word) {p : IPState} (h : p.wf) :
    (callPort c x v env p).ip.wf := by
  unfold callPort
  cases c.port with
  | platform => exact IPState.count_wf (IPState.put_wf _ _ h)
  | fFail3 => dsimp only; split <;> exact h
  | _ => exact h

end Sys2Proof.Machine
end

