-- ==== Sys2Proof/Laws/Ola.lean ====
section
/-! SUPPORT. What `ola_process` can do (rules R142, R149): the lengths it keeps, the fields of the wrapper it keeps, what it leaves
when it goes well and when the inner processor reports an error; and that a result that counts as numerically well-formed consists
of finite samples. -/
namespace Sys2Proof.Machine

/-! ### Finite samples -/

theorem allFinite_iff (v : List Word) : allFinite v = true ↔ ∀ x ∈ v, isFinite x = true := by simp [allFinite]

@[simp] theorem allFinite_nil : allFinite [] = true := rfl

@[simp] theorem allFinite_append (v w : List Word) : allFinite (v ++ w) = (allFinite v && allFinite w) := by
  simp [allFinite]

@[simp] theorem allFinite_singleton (x : Word) : allFinite [x] = isFinite x := by simp [allFinite]

@[simp] theorem isFinite_zeroSample : isFinite zeroSample = true := by decide

@[simp] theorem allFinite_replicate_zero (n : Nat) : allFinite (List.replicate n zeroSample) = true := by
  rw [allFinite_iff]
  intro x hx
  rw [(List.mem_replicate.1 hx).2]
  exact isFinite_zeroSample

theorem isFinite_getD {v : List Word} (h : allFinite v = true) (j : Nat) : isFinite (v.getD j zeroSample) = true := by
  by_cases hj : j < v.length
  · rw [List.getD_eq_getElem _ _ hj]
    exact (allFinite_iff v).1 h _ (List.getElem_mem hj)
  · rw [List.getD_eq_default _ _ (Nat.not_lt.1 hj)]
    exact isFinite_zeroSample

theorem allFinite_vec {n : Nat} {f : Nat → Word} (h : ∀ j < n, isFinite (f j) = true) : allFinite (vec n f) = true := by
  rw [allFinite_iff]
  intro x hx
  obtain ⟨j, hj, rfl⟩ := mem_vec.1 hx
  exact h j hj

theorem allFinite_set {v : List Word} (h : allFinite v = true) (j : Nat) {x : Word} (hx : isFinite x = true) :
    allFinite (v.set j x) = true := by
  rw [allFinite_iff] at h ⊢
  intro y hy
  rcases List.mem_or_eq_of_mem_set hy with hy | rfl
  · exact h y hy
  · exact hx

theorem allFinite_drop {v : List Word} (h : allFinite v = true) (k : Nat) : allFinite (v.drop k) = true := by
  rw [allFinite_iff] at h ⊢
  exact fun x hx => h x (List.mem_of_mem_drop hx)

/-! ### Lengths -/

@[simp] theorem length_applyWindow {α : Type} (N : Numerics α) (b : Nat) (w v : List α) :
    (applyWindow N b w v).length = 2 * b := by simp [applyWindow]

theorem length_windowIf {α : Type} (N : Numerics α) (flag : Bool) {b : Nat} (w : List α) {v : List α}
    (h : v.length = 2 * b) : (windowIf N flag b w v).length = 2 * b := by
  cases flag <;> simp [windowIf, h]

@[simp] theorem length_olaSum {α : Type} (N : Numerics α) (b : Nat) (v c : List α) : (olaSum N b v c).length = b := by
  simp [olaSum]

@[simp] theorem length_olaCarry {α : Type} (N : Numerics α) (b : Nat) (v : List α) : (olaCarry N b v).length = b := by
  simp [olaCarry]

theorem length_olaSlide {α : Type} {b : Nat} {inBuf blk : List α} (hi : inBuf.length = 2 * b) (hb : blk.length = b) :
    (olaSlide b inBuf blk).length = 2 * b := by
  simp only [olaSlide, List.length_append, List.length_drop]
  omega

/-! ### The wrapper's fields -/

/-- What construction fixes of a wrapper is the same in `o` and `p` (rule R28). -/
def OlaInst.same (o p : OlaInst) : Prop := p.b = o.b ∧ p.pre = o.pre ∧ p.post = o.post ∧ p.w = o.w

theorem OlaInst.same_rfl (o : OlaInst) : o.same o := ⟨rfl, rfl, rfl, rfl⟩

theorem OlaInst.same_spoil (tick i : Nat) (o : OlaInst) : o.same (o.spoil tick i) := ⟨rfl, rfl, rfl, rfl⟩

theorem OlaInst.same_trans {o p q : OlaInst} (h : o.same p) (k : p.same q) : o.same q :=
  ⟨k.1.trans h.1, k.2.1.trans h.2.1, k.2.2.1.trans h.2.2.1, k.2.2.2.trans h.2.2.2⟩

theorem OlaInst.same_settled (ok : Bool) (tick i : Nat) (o : OlaInst) : o.same (o.settled ok tick i) := by
  cases ok
  · exact o.same_spoil tick i
  · exact o.same_rfl

/-- The lengths of the buffers of a wrapper (rule R28). -/
def OlaInst.sized (o : OlaInst) : Prop := o.w.length = 2 * o.b ∧ o.inBuf.length = 2 * o.b ∧ o.outCarry.length = o.b

theorem OlaInst.sized_spoil (tick i : Nat) {o : OlaInst} (h : o.sized) : (o.spoil tick i).sized :=
  ⟨h.1, by simp [OlaInst.spoil], by simp [OlaInst.spoil]⟩

/-- The vector the inner processor receives from `ola_process` (steps 1 and 2 of rule R142). -/
def olaWork (c : Config) (o : OlaInst) (blk : List Word) : List Word :=
  windowIf (binary32 c) o.pre o.b o.w (olaSlide o.b o.inBuf blk)

/-- Whether a command is numerically well-formed up to the invocation of the inner processor. -/
def olaOkIn (c : Config) (o : OlaInst) (blk : List Word) (ok : Bool) : Bool :=
  ok && !o.taint && allFinite (olaSlide o.b o.inBuf blk) && allFinite (olaWork c o blk)

/-- The invocation of the inner processor by `ola_process` (step 3 of rule R142). -/
def olaCall (c : Config) (tick i : Nat) (env : Word) (o : OlaInst) (blk : List Word) (ok : Bool) (ip : IPState) : PortRun :=
  callPort c (.ola i) (settle (olaOkIn c o blk ok) tick (.portIn ip.calls) (olaWork c o blk)) env ip

/-- `ola_process` when the inner processor reports an error. -/
theorem olaProcess_err {c : Config} {tick i : Nat} {env : Word} {o : OlaInst} {blk : List Word} {ok : Bool} {ip : IPState}
    {d : Word} (h : (olaCall c tick i env o blk ok ip).res = .err d) :
    olaProcess c tick i env o blk ok ip =
      { o := o.spoil tick i, out := freeVec tick .data o.b, res := .err d, ip := (olaCall c tick i env o blk ok ip).ip,
        ok := olaOkIn c o blk ok } := by
  simp only [olaCall, olaWork, olaOkIn] at h ⊢
  simp only [olaProcess, h]

/-- `ola_process` when the inner processor goes well. -/
theorem olaProcess_ok {c : Config} {tick i : Nat} {env : Word} {o : OlaInst} {blk : List Word} {ok : Bool} {ip : IPState}
    {m : Word} (h : (olaCall c tick i env o blk ok ip).res = .ok m) :
    olaProcess c tick i env o blk ok ip =
      (let r := olaCall c tick i env o blk ok ip
      let v := windowIf (binary32 c) o.post o.b o.w r.out
      let out := olaSum (binary32 c) o.b v o.outCarry
      { o := { o with inBuf := olaSlide o.b o.inBuf blk, outCarry := olaCarry (binary32 c) o.b v }, out := out, res := .ok m,
        ip := r.ip, ok := olaOkIn c o blk ok && allFinite r.out && allFinite v && allFinite o.outCarry && allFinite out }) := by
  simp only [olaCall, olaWork, olaOkIn] at h ⊢
  simp only [olaProcess, h]

theorem olaProcess_res (c : Config) (tick i : Nat) (env : Word) (o : OlaInst) (blk : List Word) (ok : Bool) (ip : IPState) :
    (olaProcess c tick i env o blk ok ip).res = (olaCall c tick i env o blk ok ip).res := by
  cases h : (olaCall c tick i env o blk ok ip).res with
  | ok m => rw [olaProcess_ok h]
  | err d => rw [olaProcess_err h]

theorem olaProcess_ip (c : Config) (tick i : Nat) (env : Word) (o : OlaInst) (blk : List Word) (ok : Bool) (ip : IPState) :
    (olaProcess c tick i env o blk ok ip).ip = (olaCall c tick i env o blk ok ip).ip := by
  cases h : (olaCall c tick i env o blk ok ip).res with
  | ok m => rw [olaProcess_ok h]
  | err d => rw [olaProcess_err h]

/-- Construction's values are kept (rule R28: they "never change after construction"). -/
theorem olaProcess_same (c : Config) (tick i : Nat) (env : Word) (o : OlaInst) (blk : List Word) (ok : Bool) (ip : IPState) :
    o.same (olaProcess c tick i env o blk ok ip).o := by
  cases h : (olaCall c tick i env o blk ok ip).res with
  | ok m => rw [olaProcess_ok h]; exact ⟨rfl, rfl, rfl, rfl⟩
  | err d => rw [olaProcess_err h]; exact o.same_spoil tick i

theorem olaProcess_taint_of_ok (c : Config) (tick i : Nat) (env : Word) (o : OlaInst) (blk : List Word) (ok : Bool)
    (ip : IPState) {m : Word} (h : (olaCall c tick i env o blk ok ip).res = .ok m) :
    (olaProcess c tick i env o blk ok ip).o.taint = o.taint := by
  rw [olaProcess_ok h]

/-- The block given back has `B` samples. -/
theorem length_olaProcess (c : Config) (tick i : Nat) (env : Word) (o : OlaInst) (blk : List Word) (ok : Bool)
    (ip : IPState) : (olaProcess c tick i env o blk ok ip).out.length = o.b := by
  cases hr : (olaCall c tick i env o blk ok ip).res with
  | ok m => rw [olaProcess_ok hr]; simp
  | err d => rw [olaProcess_err hr]; simp

/-- The buffers keep their lengths (rule R110). -/
theorem olaProcess_sized (c : Config) (tick i : Nat) (env : Word) {o : OlaInst} {blk : List Word} (ok : Bool)
    (ip : IPState) (ho : o.sized) (h : blk.length = o.b) : (olaProcess c tick i env o blk ok ip).o.sized := by
  cases hr : (olaCall c tick i env o blk ok ip).res with
  | ok m => rw [olaProcess_ok hr]; exact ⟨ho.1, length_olaSlide ho.2.1 h, by simp⟩
  | err d => rw [olaProcess_err hr]; exact OlaInst.sized_spoil tick i ho

/-- A run that counts as numerically well-formed started as one. -/
theorem olaProcess_ok_start {c : Config} {tick i : Nat} {env : Word} {o : OlaInst} {blk : List Word} {ok : Bool} {ip : IPState}
    (h : (olaProcess c tick i env o blk ok ip).ok = true) : ok = true ∧ o.taint = false := by
  have key : olaOkIn c o blk ok = true → ok = true ∧ o.taint = false := by
    simp only [olaOkIn, Bool.and_eq_true, Bool.not_eq_true']
    exact fun h => h.1.1
  cases hr : (olaCall c tick i env o blk ok ip).res with
  | ok m =>
    rw [olaProcess_ok hr] at h
    simp only [Bool.and_eq_true] at h
    exact key h.1.1.1.1
  | err d =>
    rw [olaProcess_err hr] at h
    exact key h

/-- A run that counts as numerically well-formed and goes well leaves finite samples everywhere. -/
theorem olaProcess_finite {c : Config} {tick i : Nat} {env : Word} {o : OlaInst} {blk : List Word} {ok : Bool} {ip : IPState}
    {m : Word} (hr : (olaCall c tick i env o blk ok ip).res = .ok m)
    (h : (olaProcess c tick i env o blk ok ip).ok = true) :
    allFinite (olaProcess c tick i env o blk ok ip).out = true ∧
      allFinite (olaProcess c tick i env o blk ok ip).o.inBuf = true ∧
      allFinite (olaProcess c tick i env o blk ok ip).o.outCarry = true := by
  rw [olaProcess_ok hr] at h ⊢
  simp only [Bool.and_eq_true, olaOkIn] at h
  obtain ⟨⟨⟨⟨⟨⟨-, hx⟩, -⟩, -⟩, hv⟩, -⟩, hout⟩ := h
  exact ⟨hout, hx, allFinite_vec fun j _ => isFinite_getD hv _⟩

end Sys2Proof.Machine
end

