-- ==== Sys2Proof/Laws/Seg.lean ====
section
/-! SUPPORT. What the segmenter's procedures can do: one invocation of the inner processor (rule R125), one sample (rule R126), a
row, a channel and the channels one after another (rules R123, R124), each with what it keeps. -/
namespace Sys2Proof.Machine

/-! ### One block -/

/-- `seg_inner` leaves the samples given back and the fill pointer alone. -/
@[simp] theorem segInner_out (e : SegEnv) (c : Nat) (r : ChanRun) : (segInner e c r).out = r.out := by
  unfold segInner
  cases r.wrapper with
  | none => dsimp only; split <;> rfl
  | some o => dsimp only; split <;> rfl

@[simp] theorem segInner_fill (e : SegEnv) (c : Nat) (r : ChanRun) : (segInner e c r).fill = r.fill := by
  unfold segInner
  cases r.wrapper with
  | none => dsimp only; split <;> rfl
  | some o => dsimp only; split <;> rfl

/-- `seg_inner` does not read the fill pointer. -/
theorem segInner_with_fill (e : SegEnv) (c : Nat) (r : ChanRun) (f : Nat) :
    segInner e c { r with fill := f } = { segInner e c r with fill := f } := by
  unfold segInner
  cases r.wrapper with
  | none => dsimp only; split <;> rfl
  | some o => dsimp only; split <;> rfl

/-- One invocation of an inner processor. -/
@[simp] theorem segInner_calls (e : SegEnv) (c : Nat) (r : ChanRun) : (segInner e c r).ip.calls = r.ip.calls + 1 := by
  unfold segInner
  cases r.wrapper with
  | none => dsimp only; split <;> simp
  | some o => dsimp only; split <;> simp [olaProcess_ip, olaCall]

/-- Of `IPState`, only the components of the channel's own two sites change (rule R132). -/
theorem segInner_at (e : SegEnv) (c : Nat) (r : ChanRun) {x : Site} (hs : x ≠ .seg c) (ho : x ≠ .ola c) :
    (segInner e c r).ip.at x = r.ip.at x := by
  unfold segInner
  cases r.wrapper with
  | none => dsimp only; split <;> exact at_callPort_other _ _ _ _ hs
  | some o => dsimp only; split <;> simpa [olaProcess_ip, olaCall] using at_callPort_other _ _ _ _ ho

theorem segInner_ip_wf (e : SegEnv) (c : Nat) {r : ChanRun} (h : r.ip.wf) : (segInner e c r).ip.wf := by
  unfold segInner
  cases r.wrapper with
  | none => dsimp only; split <;> exact callPort_wf _ _ _ _ h
  | some o => dsimp only; split <;> simpa [olaProcess_ip, olaCall] using callPort_wf _ _ _ _ h

/-- The overflow buffer keeps its length (rule R133). -/
theorem segInner_ovf_length (e : SegEnv) (c : Nat) {r : ChanRun} (hw : ∀ o, r.wrapper = some o → o.b = r.ovf.length) :
    (segInner e c r).ovf.length = r.ovf.length := by
  unfold segInner
  cases hr : r.wrapper with
  | none => dsimp only; split <;> simp
  | some o =>
    dsimp only
    split
    · rfl
    · rw [length_olaProcess, hw o hr]

/-- The wrapper keeps what its construction fixed, and a channel without one gets none. -/
theorem segInner_wrapper (e : SegEnv) (c : Nat) (r : ChanRun) :
    (r.wrapper = none → (segInner e c r).wrapper = none) ∧
      ∀ o, r.wrapper = some o → ∃ q, (segInner e c r).wrapper = some q ∧ o.same q := by
  unfold segInner
  cases hr : r.wrapper with
  | none =>
    refine ⟨fun _ => ?_, by simp⟩
    dsimp only
    split <;> rfl
  | some o =>
    refine ⟨by simp, ?_⟩
    intro o' ho'
    obtain rfl : o = o' := by simpa using ho'
    dsimp only
    split <;> exact ⟨_, rfl, olaProcess_same _ _ _ _ _ _ _ _⟩

theorem segInner_ok_start (e : SegEnv) (c : Nat) {r : ChanRun} (h : (segInner e c r).ok = true) : r.ok = true := by
  unfold segInner at h
  cases hr : r.wrapper with
  | none =>
    simp only [hr] at h
    split at h
    · exact h
    · simp only [Bool.and_eq_true] at h
      exact h.1
  | some o =>
    simp only [hr] at h
    split at h <;> exact (olaProcess_ok_start h).1

/-! ### One sample -/

/-- After an inner error nothing more happens (rule R129). -/
theorem segSample_err {e : SegEnv} {c : Nat} {r : ChanRun} {d : Word} (h : r.err = some d) (x : Word) :
    segSample e c r x = r := by simp [segSample, h]

/-- The channel after the exchange of one sample (rule R126). -/
def exchange (r : ChanRun) (x : Word) : ChanRun :=
  { r with out := r.out ++ [r.ovf.getD r.fill zeroSample], ovf := r.ovf.set r.fill x, fill := r.fill + 1,
           ok := r.ok && isFinite x && isFinite (r.ovf.getD r.fill zeroSample) }

theorem segSample_ok {e : SegEnv} {c : Nat} {r : ChanRun} (h : r.err = none) (x : Word) :
    segSample e c r x =
      if r.fill + 1 = e.b then { segInner e c (exchange r x) with fill := 0 } else exchange r x := by
  simp only [segSample, h, exchange]

/-- A condition on the state of a channel that the exchange of a sample and the processing of a block keep holds after a row. -/
theorem segRow_induct {e : SegEnv} {c : Nat} {P : ChanRun → Prop} (row : List Word) (r : ChanRun) (h : P r)
    (hx : ∀ r x, r.err = none → P r → P (exchange r x))
    (hi : ∀ r, r.err = none → P r → P { segInner e c r with fill := 0 }) : P (segRow e c row r) := by
  induction row generalizing r with
  | nil => exact h
  | cons x row ih =>
    refine ih _ ?_
    cases hr : r.err with
    | some d => rwa [segSample_err hr]
    | none =>
      rw [segSample_ok hr]
      split
      · exact hi _ (by simpa [exchange] using hr) (hx r x hr h)
      · exact hx r x hr h

@[simp] theorem segRow_nil (e : SegEnv) (c : Nat) (r : ChanRun) : segRow e c [] r = r := rfl

theorem segRow_cons (e : SegEnv) (c : Nat) (x : Word) (row : List Word) (r : ChanRun) :
    segRow e c (x :: row) r = segRow e c row (segSample e c r x) := rfl

/-- A stream cut into two calls (rule R127). -/
theorem segRow_append (e : SegEnv) (c : Nat) (row row' : List Word) (r : ChanRun) :
    segRow e c (row ++ row') r = segRow e c row' (segRow e c row r) := by
  simp [segRow, List.foldl_append]

theorem segRow_err {e : SegEnv} {c : Nat} (row : List Word) {r : ChanRun} {d : Word} (h : r.err = some d) :
    segRow e c row r = r := by
  induction row with
  | nil => rfl
  | cons x row ih => rw [segRow_cons, segSample_err h, ih]

/-! ### A row -/

/-- The samples given back: never more than the row has, and exactly as many unless an inner error ended the run. -/
theorem segRow_out (e : SegEnv) (c : Nat) (row : List Word) (r : ChanRun) :
    r.out.length ≤ (segRow e c row r).out.length ∧
      (segRow e c row r).out.length ≤ r.out.length + row.length ∧
      ((segRow e c row r).err = none → (segRow e c row r).out.length = r.out.length + row.length) := by
  induction row generalizing r with
  | nil => simp
  | cons x row ih =>
    cases hr : r.err with
    | some d => rw [segRow_err _ hr]; simp [hr]
    | none =>
      rw [segRow_cons]
      have step : (segSample e c r x).out.length = r.out.length + 1 := by
        rw [segSample_ok hr]
        split <;> simp [exchange]
      have h := ih (segSample e c r x)
      rw [step] at h
      simp only [List.length_cons]
      exact ⟨by omega, by omega, fun hn => by have := h.2.2 hn; omega⟩

theorem segRow_at (e : SegEnv) (c : Nat) (row : List Word) (r : ChanRun) {x : Site} (hs : x ≠ .seg c) (ho : x ≠ .ola c) :
    (segRow e c row r).ip.at x = r.ip.at x :=
  segRow_induct (P := fun q => q.ip.at x = r.ip.at x) row r rfl (fun _ _ _ h => h)
    fun q _ h => (segInner_at e c q hs ho).trans h

theorem segRow_ip_wf (e : SegEnv) (c : Nat) (row : List Word) {r : ChanRun} (h : r.ip.wf) : (segRow e c row r).ip.wf :=
  segRow_induct (P := fun q => q.ip.wf) row r h (fun _ _ _ h => h) fun _ _ h => segInner_ip_wf e c h

/-- The buffers have the lengths that construction fixed (rules R29, R121). -/
structure ChanRun.sized (e : SegEnv) (r : ChanRun) : Prop where
  ovf : r.ovf.length = e.b
  wrapper : ∀ o, r.wrapper = some o → o.b = e.b

theorem ChanRun.sized_exchange {e : SegEnv} {r : ChanRun} (h : r.sized e) (x : Word) : (exchange r x).sized e :=
  ⟨by simpa [exchange] using h.ovf, h.wrapper⟩

theorem ChanRun.sized_segInner {e : SegEnv} {r : ChanRun} (c : Nat) (h : r.sized e) : (segInner e c r).sized e := by
  refine ⟨(segInner_ovf_length e c fun o ho => (h.wrapper o ho).trans h.ovf.symm).trans h.ovf, fun q hq => ?_⟩
  cases hw : r.wrapper with
  | none => rw [(segInner_wrapper e c r).1 hw] at hq; cases hq
  | some o =>
    obtain ⟨q', hq', hs⟩ := (segInner_wrapper e c r).2 o hw
    rw [hq'] at hq
    obtain rfl : q' = q := by simpa using hq
    rw [hs.1, h.wrapper o hw]

theorem ChanRun.sized_segRow {e : SegEnv} {r : ChanRun} (c : Nat) (row : List Word) (h : r.sized e) :
    (segRow e c row r).sized e :=
  segRow_induct (P := ChanRun.sized e) row r h (fun _ x _ h => ChanRun.sized_exchange h x) fun _ _ h =>
    ⟨(ChanRun.sized_segInner c h).ovf, (ChanRun.sized_segInner c h).wrapper⟩

/-- The fill pointer stays below the block size (rule R29). -/
theorem segRow_fill_lt {e : SegEnv} (c : Nat) (row : List Word) {r : ChanRun} (h : r.fill < e.b) :
    (segRow e c row r).fill < e.b := by
  induction row generalizing r with
  | nil => exact h
  | cons x row ih =>
    refine ih ?_
    cases hr : r.err with
    | some d => rwa [segSample_err hr]
    | none =>
      rw [segSample_ok hr]
      split
      · dsimp only; omega
      · simp only [exchange]; omega

/-- The wrapper keeps what its construction fixed. -/
theorem segRow_wrapper (e : SegEnv) (c : Nat) (row : List Word) (r : ChanRun) :
    (r.wrapper = none → (segRow e c row r).wrapper = none) ∧
      ∀ o, r.wrapper = some o → ∃ q, (segRow e c row r).wrapper = some q ∧ o.same q := by
  refine ⟨fun hr => ?_, fun o hr => ?_⟩
  · exact segRow_induct (P := fun q => q.wrapper = none) row r hr (fun _ _ _ h => h)
      fun q _ h => (segInner_wrapper e c q).1 h
  · refine segRow_induct (P := fun q => ∃ p, q.wrapper = some p ∧ o.same p) row r ⟨o, hr, o.same_rfl⟩ (fun _ _ _ h => h) ?_
    rintro q - ⟨p, hp, hs⟩
    obtain ⟨p', hp', hs'⟩ := (segInner_wrapper e c q).2 p hp
    exact ⟨p', hp', OlaInst.same_trans hs hs'⟩

/-- A run that counts as numerically well-formed started as one. -/
theorem segRow_ok_start {e : SegEnv} {c : Nat} (row : List Word) {r : ChanRun} (h : (segRow e c row r).ok = true) :
    r.ok = true := by
  induction row generalizing r with
  | nil => exact h
  | cons x row ih =>
    have hk := ih (r := segSample e c r x) h
    cases hr : r.err with
    | some d => rwa [segSample_err hr] at hk
    | none =>
      rw [segSample_ok hr] at hk
      have hx : (exchange r x).ok = true → r.ok = true := by
        simp only [exchange, Bool.and_eq_true]
        exact fun h => h.1.1
      split at hk
      · exact hx (segInner_ok_start e c hk)
      · exact hx hk

/-! ### The channels one after another -/

@[simp] theorem segChannels_zero (e : SegEnv) (inner : Binding) (k : SegOps) (r : SegRun) :
    segChannels e inner k 0 r = r := rfl

theorem segChannels_succ (e : SegEnv) (inner : Binding) (k : SegOps) (p : Nat) (r : SegRun) :
    segChannels e inner k (p + 1) r = segChannel e inner k (segChannels e inner k p r) p := by
  simp [segChannels, List.range_succ, List.foldl_append]

theorem segChannel_err {e : SegEnv} {inner : Binding} {k : SegOps} {r : SegRun} (c : Nat) {d : Nat × Word}
    (h : r.err = some d) : segChannel e inner k r c = r := by simp [segChannel, h]

/-- The run over the row of channel `c`. -/
def chanRow (e : SegEnv) (inner : Binding) (k : SegOps) (r : SegRun) (c : Nat) : ChanRun :=
  segRow e c (r.hm.read (k.addr c) k.n) (chanStart inner k.n c r)

theorem segChannel_ok {e : SegEnv} {inner : Binding} {k : SegOps} {r : SegRun} (c : Nat) (h : r.err = none) :
    segChannel e inner k r c = chanEnd e.tick k c r (chanRow e inner k r c) := by simp [segChannel, h, chanRow]

/-- A condition that every channel's step keeps holds after the channels. -/
theorem segChannels_induct {e : SegEnv} {inner : Binding} {k : SegOps} {P : SegRun → Prop} (p : Nat) (r : SegRun) (h : P r)
    (hc : ∀ c < p, ∀ r, r.err = none → P r → P (chanEnd e.tick k c r (chanRow e inner k r c))) :
    P (segChannels e inner k p r) := by
  induction p with
  | zero => exact h
  | succ p ih =>
    rw [segChannels_succ]
    have hp := ih fun c hp => hc c (by omega)
    cases hr : (segChannels e inner k p r).err with
    | some d => rwa [segChannel_err p hr]
    | none => rw [segChannel_ok p hr]; exact hc p (by omega) _ hr hp

/-- What is written back to a row fits in it. -/
theorem length_chanRow_out (e : SegEnv) (inner : Binding) (k : SegOps) (r : SegRun) (c : Nat) :
    (chanRow e inner k r c).out.length ≤ k.n := by
  have h := (segRow_out e c (r.hm.read (k.addr c) k.n) (chanStart inner k.n c r)).2.1
  simpa [chanRow, chanStart] using h

/-- A channel's step writes no word outside the channel's row (rule R132). -/
theorem segChannel_hm (e : SegEnv) (inner : Binding) (k : SegOps) (r : SegRun) (c a : Nat)
    (h : a < k.addr c ∨ k.addr c + k.n ≤ a) : (segChannel e inner k r c).hm.get a = r.hm.get a := by
  cases hr : r.err with
  | some d => rw [segChannel_err c hr]
  | none =>
    rw [segChannel_ok c hr]
    refine Memory.get_write_outside _ _ _ _ ?_
    have := length_chanRow_out e inner k r c
    simp only [length_settleWords]
    omega

/-- A channel's step changes no other channel's buffer or fill pointer (rule R132). -/
theorem segChannel_chans (e : SegEnv) (inner : Binding) (k : SegOps) (r : SegRun) (c : Nat) {j : Nat} (h : j ≠ c) :
    (segChannel e inner k r c).chans.getD j default = r.chans.getD j default := by
  cases hr : r.err with
  | some d => rw [segChannel_err c hr]
  | none =>
    rw [segChannel_ok c hr]
    simp [chanEnd, List.getD_eq_getElem?_getD, Ne.symm h]

@[simp] theorem segChannel_chans_length (e : SegEnv) (inner : Binding) (k : SegOps) (r : SegRun) (c : Nat) :
    (segChannel e inner k r c).chans.length = r.chans.length := by
  cases hr : r.err with
  | some d => rw [segChannel_err c hr]
  | none => rw [segChannel_ok c hr]; simp [chanEnd]

/-- A slot of the map of wrappers after another one was replaced. -/
theorem olaSlot_putOla_other (m : Cells (Slot OlaInst)) {c j : Nat} (x : Slot OlaInst) (h : j ≠ c) :
    olaSlot (putOla m c x) j = olaSlot m j := Cells.get_set_other _ _ _ h

@[simp] theorem olaSlot_putOla_same (m : Cells (Slot OlaInst)) (c : Nat) (x : Slot OlaInst) :
    olaSlot (putOla m c x) c = x := Cells.get_set_same _ _ _ _

/-- A channel's step changes no other wrapper (rule R132). -/
theorem segChannel_ola (e : SegEnv) (inner : Binding) (k : SegOps) (r : SegRun) (c : Nat) {j : Nat} (h : j ≠ c) :
    olaSlot (segChannel e inner k r c).ola j = olaSlot r.ola j := by
  cases hr : r.err with
  | some d => rw [segChannel_err c hr]
  | none =>
    rw [segChannel_ok c hr]
    simp only [chanEnd]
    split
    · exact olaSlot_putOla_other _ _ h
    · rfl

/-- The channel of an inner error is one of the channels processed. -/
theorem segChannels_err_lt {e : SegEnv} {inner : Binding} {k : SegOps} (p : Nat) {r : SegRun} (hr : r.err = none) {c : Nat}
    {d : Word} (h : (segChannels e inner k p r).err = some (c, d)) : c < p := by
  induction p with
  | zero => rw [segChannels_zero, hr] at h; cases h
  | succ p ih =>
    rw [segChannels_succ] at h
    cases hp : (segChannels e inner k p r).err with
    | some x =>
      rw [segChannel_err p hp, hp] at h
      exact Nat.lt_succ_of_lt (ih (hp.trans h))
    | none =>
      rw [segChannel_ok p hp] at h
      simp only [chanEnd, Option.map_eq_some_iff, Prod.mk.injEq] at h
      obtain ⟨_, -, rfl, -⟩ := h
      exact Nat.lt_succ_self _

/-- What a `SEG.PROC` may have done to a wrapper: nothing; or, to a bound wrapper of a processed channel that was `CONFIGURED`, its
blocks, after which it is the same wrapper with other buffers, `CONFIGURED` or `FAULTED`. -/
def slotStep (inner : Binding) (p c : Nat) (x y : Slot OlaInst) : Prop :=
  y = x ∨ (inner = .ola ∧ c < p ∧ ∃ o q, x = .configured o ∧ (y = .configured q ∨ y = .faulted q) ∧ o.same q)

/-- The wrappers after the channels `0` to `p-1`: those from `p` on are untouched; and no wrapper below is `FAULTED` that was not,
but the one of the channel that ended in an inner error. -/
theorem segChannels_ola (e : SegEnv) (inner : Binding) (k : SegOps) (p : Nat) (r : SegRun) (c : Nat) :
    slotStep inner p c (olaSlot r.ola c) (olaSlot (segChannels e inner k p r).ola c) ∧
      ((∀ o, olaSlot r.ola c ≠ .faulted o) → ∀ q, olaSlot (segChannels e inner k p r).ola c = .faulted q →
        ∃ d, (segChannels e inner k p r).err = some (c, d)) := by
  induction p with
  | zero => exact ⟨.inl rfl, fun h q hq => absurd hq (h q)⟩
  | succ p ih =>
    have mono : ∀ {x y}, slotStep inner p c x y → slotStep inner (p + 1) c x y := by
      rintro x y (h | ⟨h1, h2, h3⟩)
      · exact .inl h
      · exact .inr ⟨h1, by omega, h3⟩
    rw [segChannels_succ]
    cases hp : (segChannels e inner k p r).err with
    | some x =>
      rw [segChannel_err p hp]
      exact ⟨mono ih.1, ih.2⟩
    | none =>
      by_cases hc : c = p
      · subst hc
        have hsame : olaSlot (segChannels e inner k c r).ola c = olaSlot r.ola c := by
          rcases ih.1 with h | ⟨-, h, -⟩
          · exact h
          · omega
        rw [segChannel_ok c hp]
        cases hw : (chanRow e inner k (segChannels e inner k c r) c).wrapper with
        | none =>
          have hend : (chanEnd e.tick k c (segChannels e inner k c r) (chanRow e inner k (segChannels e inner k c r) c)).ola =
              (segChannels e inner k c r).ola := by simp only [chanEnd, hw]
          rw [hend, hsame]
          exact ⟨.inl rfl, fun h q hq => absurd hq (h q)⟩
        | some q =>
          have hstart : ∃ o, (chanStart inner k.n c (segChannels e inner k c r)).wrapper = some o := by
            cases h0 : (chanStart inner k.n c (segChannels e inner k c r)).wrapper with
            | some o => exact ⟨o, rfl⟩
            | none =>
              have h1 := (segRow_wrapper e c ((segChannels e inner k c r).hm.read (k.addr c) k.n) _).1 h0
              have h2 := h1.symm.trans hw
              cases h2
          obtain ⟨o, ho⟩ := hstart
          obtain ⟨q', hq', hs⟩ := (segRow_wrapper e c ((segChannels e inner k c r).hm.read (k.addr c) k.n) _).2 o ho
          obtain rfl : q' = q := by
            have := hq'.symm.trans hw
            simpa using this
          have hconf : inner = .ola ∧ olaSlot r.ola c = .configured o := by
            simp only [chanStart, boundWrapper, hsame] at ho
            split at ho
            · rename_i h1
              obtain rfl : _ = o := by simpa using ho
              exact ⟨rfl, h1⟩
            · cases ho
          have hend : olaSlot (chanEnd e.tick k c (segChannels e inner k c r)
              (chanRow e inner k (segChannels e inner k c r) c)).ola c =
              if (chanRow e inner k (segChannels e inner k c r) c).err.isSome then .faulted q' else .configured q' := by
            simp only [chanEnd, hw, olaSlot_putOla_same]
          rw [hend]
          cases he : (chanRow e inner k (segChannels e inner k c r) c).err with
          | none =>
            exact ⟨.inr ⟨hconf.1, Nat.lt_succ_self c, o, q', hconf.2, .inl rfl, hs⟩, fun _ q hq => by simp at hq⟩
          | some d =>
            refine ⟨.inr ⟨hconf.1, Nat.lt_succ_self c, o, q', hconf.2, .inr rfl, hs⟩, fun _ q _ => ⟨d, ?_⟩⟩
            simp only [chanEnd, he, Option.map_some]
      · rw [segChannel_ola e inner k _ p hc]
        refine ⟨mono ih.1, fun h q hq => ?_⟩
        obtain ⟨d, hd⟩ := ih.2 h q hq
        rw [hp] at hd
        cases hd

/-! ### Unspecified rows and wrappers -/

theorem spoilRows_succ (tick : Nat) (k : SegOps) (p : Nat) (m : Memory) :
    spoilRows tick k (p + 1) m = (spoilRows tick k p m).write (k.addr p) (freeWords tick (.row p) k.n) := by
  simp [spoilRows, List.range_succ, List.foldl_append]

/-- `spoilRows` writes no word outside the rows. -/
theorem spoilRows_get (tick : Nat) (k : SegOps) (p : Nat) (m : Memory) (a : Nat)
    (h : ∀ c < p, a < k.addr c ∨ k.addr c + k.n ≤ a) : (spoilRows tick k p m).get a = m.get a := by
  induction p with
  | zero => rfl
  | succ p ih =>
    rw [spoilRows_succ, Memory.get_write_outside, ih fun c hc => h c (by omega)]
    simpa using h p (by omega)

theorem spoilRows_wf (tick : Nat) (k : SegOps) (p : Nat) {m : Memory} (h : m.wf) : (spoilRows tick k p m).wf := by
  induction p with
  | zero => exact h
  | succ p ih => rw [spoilRows_succ]; exact Memory.write_wf _ _ ih

theorem spoilWrappers_succ (tick b n p : Nat) (chans : List Chan) (m : Cells (Slot OlaInst)) :
    spoilWrappers tick b n (p + 1) chans m = spoilWrapper tick b n chans (spoilWrappers tick b n p chans m) p := by
  simp [spoilWrappers, List.range_succ, List.foldl_append]

/-- What `spoilWrapper` leaves at an index. -/
theorem olaSlot_spoilWrapper (tick b n : Nat) (chans : List Chan) (m : Cells (Slot OlaInst)) (p c : Nat) :
    olaSlot (spoilWrapper tick b n chans m p) c =
      (match olaSlot m c with
      | .configured o =>
        if c = p ∧ b ≤ (chans.getD c default).fill + n then .configured (o.spoil tick c) else .configured o
      | x => x) := by
  unfold spoilWrapper
  by_cases hc : c = p
  · subst hc
    cases hm : olaSlot m c with
    | configured o =>
      by_cases hb : b ≤ (chans.getD c default).fill + n
      · simp only [hb, if_true, olaSlot_putOla_same, and_self]
      · simp only [hb, if_false, and_false, hm]
    | unconfigured => exact hm
    | faulted o => exact hm
  · have hk : ∀ x, olaSlot (putOla m p x) c = olaSlot m c := fun x => olaSlot_putOla_other m x hc
    have hr : (match olaSlot m c with | .configured o => Slot.configured o | x => x) = olaSlot m c := by
      cases olaSlot m c <;> rfl
    simp only [hc, false_and, if_false, hr]
    split
    · split
      · exact hk _
      · rfl
    · rfl

/-- What `spoilWrappers` leaves at an index: the wrapper, or the same wrapper with unspecified buffers if it is below `p`,
`CONFIGURED` and was invoked. -/
theorem olaSlot_spoilWrappers (tick b n p : Nat) (chans : List Chan) (m : Cells (Slot OlaInst)) (c : Nat) :
    olaSlot (spoilWrappers tick b n p chans m) c =
      (match olaSlot m c with
      | .configured o =>
        if c < p ∧ b ≤ (chans.getD c default).fill + n then .configured (o.spoil tick c) else .configured o
      | x => x) := by
  induction p with
  | zero => simp only [spoilWrappers, List.range_zero, List.foldl_nil]; split <;> simp_all
  | succ p ih =>
    rw [spoilWrappers_succ, olaSlot_spoilWrapper, ih]
    cases olaSlot m c with
    | configured o =>
      dsimp only
      generalize (chans.getD c default).fill + n = f
      by_cases hb : b ≤ f
      · rcases Nat.lt_trichotomy c p with h | rfl | h
        · simp [hb, h, Nat.ne_of_lt h, Nat.lt_succ_of_lt h]
        · simp [hb]
        · simp [hb, Nat.ne_of_gt h, Nat.not_lt.2 (Nat.le_of_lt h), show ¬ c < p + 1 by omega]
      · simp only [hb, and_false, if_false]
    | unconfigured => rfl
    | faulted o => rfl

theorem spoilWrappers_wf (tick b n p : Nat) (chans : List Chan) {m : Cells (Slot OlaInst)}
    (h : Cells.wf .unconfigured m) : Cells.wf .unconfigured (spoilWrappers tick b n p chans m) := by
  induction p with
  | zero => exact h
  | succ p ih =>
    rw [spoilWrappers_succ]
    unfold spoilWrapper
    split
    · split
      · exact Cells.set_wf _ _ ih
      · exact ih
    · exact ih

theorem settleWrappers_slot (ok : Bool) (tick b n p : Nat) (inner : Binding) (chans : List Chan) (m : Cells (Slot OlaInst))
    (c : Nat) :
    slotStep inner p c (olaSlot m c) (olaSlot (settleWrappers ok tick b n p inner chans m) c) ∧
      ∀ q, olaSlot (settleWrappers ok tick b n p inner chans m) c = .faulted q → olaSlot m c = .faulted q := by
  unfold settleWrappers
  split
  · rename_i h
    simp only [Bool.and_eq_true, decide_eq_true_eq] at h
    rw [olaSlot_spoilWrappers]
    cases hm : olaSlot m c with
    | configured o =>
      dsimp only
      split
      · rename_i hc
        exact ⟨.inr ⟨h.2, hc.1, o, _, rfl, .inl rfl, OlaInst.same_spoil tick c o⟩, fun q hq => by cases hq⟩
      · exact ⟨.inl rfl, fun q hq => hq⟩
    | unconfigured => exact ⟨.inl rfl, fun q hq => hq⟩
    | faulted o => exact ⟨.inl rfl, fun q hq => hq⟩
  · exact ⟨.inl rfl, fun q hq => hq⟩

/-- The two ends of a `SEG.PROC` whose checks pass. -/
theorem segEffect_cases (g : SegInst) (p : Nat) (s : State) :
    ((segRun g p s).err = none ∧ segEffect g p s = segOk s.segOps p g (segRun g p s) s) ∨
      ∃ c d, c < p ∧ (segRun g p s).err = some (c, d) ∧ segEffect g p s = segErr s.segOps p g (segRun g p s) c d s := by
  unfold segEffect
  cases h : (segRun g p s).err with
  | none => exact .inl ⟨rfl, by simp only [h]⟩
  | some x => exact .inr ⟨x.1, x.2, segChannels_err_lt p rfl h, rfl, by simp only [h]⟩

/-- HM outside the processed rows is as it was. -/
theorem segEffect_hm (g : SegInst) (p : Nat) (s : State) (a : Nat)
    (h : ∀ c < p, a < s.segOps.addr c ∨ s.segOps.addr c + s.segOps.n ≤ a) : (segEffect g p s).hm.get a = s.hm.get a := by
  have hrun : (segRun g p s).hm.get a = s.hm.get a := by
    refine segChannels_induct (P := fun r => r.hm.get a = s.hm.get a) p _ rfl fun c hc r hr ih => ?_
    rw [← segChannel_ok c hr, segChannel_hm _ _ _ _ _ _ (h c hc), ih]
  rcases segEffect_cases g p s with ⟨-, he⟩ | ⟨c, d, -, -, he⟩ <;> rw [he]
  · change (if (segRun g p s).ok then (segRun g p s).hm else spoilRows s.tick s.segOps p (segRun g p s).hm).get a = _
    split
    · exact hrun
    · rw [spoilRows_get _ _ _ _ _ h, hrun]
  · change (spoilRows s.tick s.segOps p (segRun g p s).hm).get a = _
    rw [spoilRows_get _ _ _ _ _ h, hrun]

/-- What a `SEG.PROC` whose checks pass does to a wrapper; only the one of the channel that ended in an inner error becomes
`FAULTED`. -/
theorem segEffect_ola (g : SegInst) (p : Nat) (s : State) (c : Nat) :
    slotStep g.inner p c (olaSlot s.ola c) (olaSlot (segEffect g p s).ola c) ∧
      ((∀ o, olaSlot s.ola c ≠ .faulted o) → ∀ q, olaSlot (segEffect g p s).ola c = .faulted q →
        ∃ d, (segRun g p s).err = some (c, d)) := by
  have hrun := segChannels_ola (s.segEnv g) g.inner s.segOps p
    { hm := s.hm, chans := g.chans, ola := s.ola, ip := s.ip, ok := true, err := none } c
  have comb : ∀ {m p'}, p' ≤ p → m = settleWrappers (segRun g p s).ok s.tick g.b s.segOps.n p' g.inner g.chans (segRun g p s).ola →
      slotStep g.inner p c (olaSlot s.ola c) (olaSlot m c) ∧
        ((∀ o, olaSlot s.ola c ≠ .faulted o) → ∀ q, olaSlot m c = .faulted q → ∃ d, (segRun g p s).err = some (c, d)) := by
    rintro m p' hp rfl
    have hset := settleWrappers_slot (segRun g p s).ok s.tick g.b s.segOps.n p' g.inner g.chans (segRun g p s).ola c
    refine ⟨?_, fun h q hq => hrun.2 h q (hset.2 q hq)⟩
    rcases hset.1 with h1 | ⟨h1, h2, o, q, h3, h4, h5⟩
    · rw [h1]; exact hrun.1
    · rcases hrun.1 with h | ⟨-, -, o', q', g3, g4, g5⟩
      · exact .inr ⟨h1, by omega, o, q, h.symm.trans h3, h4, h5⟩
      · change olaSlot (segRun g p s).ola c = _ ∨ olaSlot (segRun g p s).ola c = _ at g4
        rw [h3] at g4
        rcases g4 with g4 | g4
        · obtain rfl : o = q' := by simpa using g4
          exact .inr ⟨h1, by omega, o', q, g3, h4, OlaInst.same_trans g5 h5⟩
        · cases g4
  rcases segEffect_cases g p s with ⟨-, he⟩ | ⟨c', d, hc', -, he⟩ <;> rw [he]
  · exact comb (Nat.le_refl _) rfl
  · exact comb (Nat.le_of_lt hc') rfl

end Sys2Proof.Machine
end

