-- ==== Sys2Proof/Laws/Inv.lean ====
section
/-! SUPPORT. The laws of the invariant's parts: instance maps index by index, instances, one channel of a `SEG.PROC`, and all its
channels. -/
namespace Sys2Proof.Machine

/-! ### Maps of instances -/

/-- The entries of a map in canonical form are its values that are not the default. -/
theorem mem_iff_get {α : Type} [DecidableEq α] {d : α} {m : Cells α} (h : Cells.wf d m) (p : Nat × α) :
    p ∈ m ↔ Cells.get d m p.1 = p.2 ∧ p.2 ≠ d := by
  induction m with
  | nil => simp [Cells.get]; intro h1; exact h1.symm
  | cons q m ih =>
    have hm : Cells.wf d m := ⟨(List.pairwise_cons.1 h.1).2, fun e he => h.2 e (by simp [he])⟩
    have hlt : ∀ e ∈ m, q.1 < e.1 := fun e he => (List.pairwise_cons.1 h.1).1 e.1 (List.mem_map.2 ⟨e, he, rfl⟩)
    have hq := h.2 q (by simp)
    simp only [List.mem_cons, Cells.get]
    by_cases hk : q.1 = p.1
    · rw [if_pos hk]
      constructor
      · rintro (rfl | hp)
        · exact ⟨rfl, hq⟩
        · have := hlt p hp; omega
      · rintro ⟨h1, h2⟩; left; exact Prod.ext hk.symm h1.symm
    · rw [if_neg hk, ← ih hm]
      constructor
      · rintro (rfl | hp)
        · exact absurd rfl hk
        · exact hp
      · exact .inr

/-- The parts of the invariant about a map of instances, index by index. -/
def SlotsInv {α : Type} [DecidableEq α] (n : Nat) (p : α → Bool) (m : Cells (Slot α)) : Prop :=
  Cells.wf .unconfigured m ∧ ∀ k, (Cells.get .unconfigured m k).all p = true ∧ (Cells.get .unconfigured m k ≠ .unconfigured → k < n)

theorem slotsInv_iff {α : Type} [DecidableEq α] (n : Nat) (p : α → Bool) (m : Cells (Slot α)) :
   (Cells.wf .unconfigured m ∧ slotsOk n p m = true) ↔ SlotsInv n p m := by
  constructor
  · rintro ⟨hw, hs⟩
    refine ⟨hw, fun k => ?_⟩
    simp only [slotsOk, List.all_eq_true, Bool.and_eq_true, decide_eq_true_eq] at hs
    by_cases hk : Cells.get .unconfigured m k = .unconfigured
    · rw [hk]; exact ⟨rfl, fun h => absurd rfl h⟩
    · have := hs (k, Cells.get .unconfigured m k) ((mem_iff_get hw _).2 ⟨rfl, hk⟩)
      exact ⟨this.2, fun _ => this.1⟩
  · rintro ⟨hw, hs⟩
    refine ⟨hw, ?_⟩
    simp only [slotsOk, List.all_eq_true, Bool.and_eq_true, decide_eq_true_eq]
    intro e he
    have := (mem_iff_get hw e).1 he
    have h2 := hs e.1
    rw [this.1] at h2
    exact ⟨h2.2 this.2, h2.1⟩

theorem SlotsInv.set {α : Type} [DecidableEq α] {n : Nat} {p : α → Bool} {m : Cells (Slot α)} (h : SlotsInv n p m) {k :
    Nat} {x : Slot α}
   (hk : k < n) (hx : x.all p = true) : SlotsInv n p (Cells.set .unconfigured m k x) := by
  refine ⟨Cells.set_wf _ _ h.1, fun j => ?_⟩
  by_cases hj : j = k
  · subst hj; rw [Cells.get_set_same]; exact ⟨hx, fun _ => hk⟩
  · rw [Cells.get_set_other _ _ _ hj]; exact h.2 j

/-- No listed instance is `FAULTED`. -/
def Live {α : Type} (m : Cells (Slot α)) : Prop := m.all (fun e => !e.2.isFaulted) = true
theorem Live.set {α : Type} [DecidableEq α] {m : Cells (Slot α)} (h : Live m) {k : Nat} {x : α} : Live
    (Cells.set .unconfigured m k (.configured x)) := by
  simp only [Live, List.all_eq_true] at *
  intro e he
  rcases Cells.mem_splice he with he | ⟨-, -, he⟩
  · exact h e he
  · rw [List.mem_singleton.1 he]; rfl

/-- A write inside the first `n` words keeps HM inside them. -/
theorem range_write {m : Memory} {n a : Nat} {v : List HmWord} (h : ∀ p ∈ m, p.1 < n) (hv : v.length = 0 ∨ a + v.length ≤ n) :
   ∀ p ∈ m.write a v, p.1 < n := by
  intro p hp
  rcases Cells.mem_splice hp with hp | ⟨h1, h2, -⟩
  · exact h p hp
  · omega

/-! ### Wrappers -/

theorem olaInst_ok_iff (c : Config) (o : OlaInst) : o.ok c = true ↔ blockSizeOk c o.b = true ∧ o.sized ∧ (o.taint = true ∨
    (allFinite o.w = true ∧ allFinite o.inBuf = true ∧ allFinite o.outCarry = true)) := by
  simp only [OlaInst.ok, OlaInst.sized, Bool.and_eq_true, beq_iff_eq, Bool.or_eq_true]; tauto
theorem OlaInst.spoil_ok {c : Config} {o : OlaInst} (h : o.ok c = true) (t i : Nat) : (o.spoil t i).ok c = true := by
  rw [olaInst_ok_iff] at *
  exact ⟨h.1, OlaInst.sized_spoil _ _ h.2.1, .inl rfl⟩
/-- A freshly constructed wrapper is as its rules allow it, whatever the window holds. -/
theorem OlaInst.fresh_ok {c : Config} {b : Nat} (hb : blockSizeOk c b = true) (t i : Nat) (pre post : Bool) {w :
    List Word} (hw : w.length = 2*b) :
   (OlaInst.fresh t i b pre post w).ok c = true := by
  unfold OlaInst.fresh
  cases hf : allFinite w
  · simp only [Bool.false_eq_true, if_false]
    rw [olaInst_ok_iff]
    exact ⟨hb, OlaInst.sized_spoil _ _ ⟨by simp [hw], by simp, by simp⟩, .inl rfl⟩
  · simp only [if_true]
    rw [olaInst_ok_iff]
    refine ⟨hb, ⟨by simp [hw], by simp, by simp⟩, .inr ⟨by simpa using hf, by simp, by simp⟩⟩

/-- `ola_process` leaves a wrapper as its rules allow it when the run counts as numerically well-formed, and after an inner
error. -/
theorem olaProcess_inst_ok {c : Config} {tick i : Nat} {env : Word} {o : OlaInst} {blk : List Word} {ok : Bool} {ip : IPState}
   (ho : o.ok c = true) (hl : blk.length = o.b) :
   ((olaProcess c tick i env o blk ok ip).ok = true ∨ ∃ d, (olaProcess c tick i env o blk ok ip).res = .err d) →
    (olaProcess c tick i env o blk ok ip).o.ok c = true := by
  have ho' := (olaInst_ok_iff c o).1 ho
  have hs := olaProcess_sized c tick i env (o := o) ok ip ho'.2.1 hl
  have hsame := olaProcess_same c tick i env o blk ok ip
  cases hr : (olaCall c tick i env o blk ok ip).res with
  | err d => intro _; rw [olaProcess_err hr]; exact OlaInst.spoil_ok ho _ _
  | ok m =>
    rw [olaProcess_res, hr]
    rintro (hk | ⟨d, hd⟩)
    · rw [olaInst_ok_iff]
      refine ⟨by rw [hsame.1]; exact ho'.1, hs, ?_⟩
      have ht := (olaProcess_ok_start hk).2
      have hf := olaProcess_finite hr hk
      rcases ho'.2.2 with h | ⟨h, -, -⟩
      · rw [h] at ht; cases ht
      · exact .inr ⟨by rw [hsame.2.2.2]; exact h, hf.2.1, hf.2.2⟩
    · cases hd

/-! ### One channel -/

/-- What holds of a channel while `SEG.PROC` runs over its row: lengths; finite samples as long as the command counts as numerically
well-formed; and a wrapper that reported an error is under U1. -/
def ChanRun.good (e : SegEnv) (r : ChanRun) : Prop :=
  r.sized e ∧ (r.ok = true → allFinite r.ovf = true ∧ ∀ o, r.wrapper = some o → o.ok e.cfg = true) ∧
   (∀ o, r.wrapper = some o → blockSizeOk e.cfg o.b = true ∧ o.sized) ∧
   (r.err ≠ none → ∀ o, r.wrapper = some o → o.ok e.cfg = true ∧ o.taint = true)

theorem ChanRun.good_exchange {e : SegEnv} {r : ChanRun} (he : r.err = none) (h : ChanRun.good e r) (x : Word) :
    ChanRun.good e (exchange r x) := by
  refine ⟨ChanRun.sized_exchange h.1 x, ?_, h.2.2.1, fun hn => absurd he hn⟩
  intro hok
  simp only [exchange, Bool.and_eq_true] at hok ⊢
  have := h.2.1 hok.1.1
  exact ⟨allFinite_set this.1 _ hok.1.2, this.2⟩

theorem ChanRun.good_segInner {e : SegEnv} {c : Nat} {r : ChanRun} (hn : r.err = none)
   (h : ChanRun.good e r) : ChanRun.good e { segInner e c r with fill := 0 } := by
  have hsz := ChanRun.sized_segInner c h.1
  refine ⟨⟨hsz.ovf, hsz.wrapper⟩, ?_, ?_, ?_⟩
  · intro hok
    have hok0 := segInner_ok_start e c hok
    have hp := h.2.1 hok0
    unfold segInner at hok ⊢
    cases hw : r.wrapper with
    | none =>
      simp only [hw] at hok ⊢
      split at hok
      · rename_i d hd; simp only; exact ⟨hp.1, by simp⟩
      · rename_i m hm; simp only at hok ⊢
        simp only [Bool.and_eq_true] at hok
        exact ⟨hok.2, by simp⟩
    | some o =>
      have hl : r.ovf.length = o.b := by rw [h.1.ovf, h.1.wrapper o hw]
      simp only [hw] at hok ⊢
      split at hok
      · rename_i d hd; simp only
        refine ⟨hp.1, ?_⟩
        intro q hq; obtain rfl := by simpa using hq
        exact olaProcess_inst_ok (hp.2 o hw) hl (.inr ⟨d, hd⟩)
      · rename_i m hm; simp only at hok ⊢
        refine ⟨(olaProcess_finite (m := m) (by rw [← olaProcess_res]; exact hm) hok).1, ?_⟩
        intro q hq; obtain rfl := by simpa using hq
        exact olaProcess_inst_ok (hp.2 o hw) hl (.inl hok)
  · intro q hq
    unfold segInner at hq
    cases hw : r.wrapper with
    | none =>
      simp only [hw] at hq
      split at hq <;> simp at hq
    | some o =>
      have hl : r.ovf.length = o.b := by rw [h.1.ovf, h.1.wrapper o hw]
      obtain ⟨hb, hs⟩ := h.2.2.1 o hw
      simp only [hw] at hq
      split at hq
      all_goals
        obtain rfl := by simpa using hq
        exact ⟨by rw [(olaProcess_same _ _ _ _ _ _ _ _).1]; exact hb, olaProcess_sized _ _ _ _ _ _ hs hl⟩
  · intro hne q hq
    unfold segInner at hq hne
    cases hw : r.wrapper with
    | none =>
      simp only [hw] at hq
      split at hq <;> simp at hq
    | some o =>
      have hl : r.ovf.length = o.b := by rw [h.1.ovf, h.1.wrapper o hw]
      obtain ⟨hb, hs⟩ := h.2.2.1 o hw
      simp only [hw] at hq hne
      split at hq
      · rename_i d hd
        obtain rfl := by simpa using hq
        rw [olaProcess_res] at hd
        rw [olaProcess_err hd]
        refine ⟨?_, rfl⟩
        rw [olaInst_ok_iff]
        exact ⟨hb, OlaInst.sized_spoil _ _ hs, .inl rfl⟩
      · rename_i m hm; simp only [hm] at hne; exact absurd hn hne

theorem ChanRun.good_segRow {e : SegEnv} {c : Nat} (row : List Word) {r : ChanRun} (h : ChanRun.good e r) : ChanRun.good e
    (segRow e c row r) :=
  segRow_induct (P := ChanRun.good e) row r h (fun _ x he hp => ChanRun.good_exchange he hp x)
    fun _ he hp => ChanRun.good_segInner he hp

/-- A row that completes no block leaves the wrapper and the error alone. -/
theorem segRow_short_wrapper {e : SegEnv} {c : Nat} (row : List Word) : ∀ {r : ChanRun}, r.fill + row.length < e.b →
    (segRow e c row r).wrapper = r.wrapper := by
  induction row with
  | nil => intro r _; rfl
  | cons x row ih =>
    intro r h
    simp only [List.length_cons] at h
    cases hr : r.err with
    | some d => rw [segRow_err _ hr]
    | none =>
      rw [segRow_cons, segSample_ok hr, if_neg (by omega), ih (by simp [exchange]; omega)]; rfl

/-! ### All channels -/

/-- The sizes of a wrapper, as a check. -/
def OlaInst.geo (cfg : Config) (o : OlaInst) : Bool := blockSizeOk cfg o.b && (o.w.length == 2*o.b) &&
    (o.inBuf.length == 2*o.b) && (o.outCarry.length == o.b)
theorem OlaInst.geo_iff (cfg : Config) (o : OlaInst) : OlaInst.geo cfg o = true ↔ blockSizeOk cfg o.b = true ∧ o.sized := by
  simp [OlaInst.geo, OlaInst.sized, and_assoc]

/-- What holds of a `SEG.PROC` after the channels `0` to `c-1`. -/
structure SegRunInv (s : State) (g : SegInst) (c : Nat) (r : SegRun) : Prop where
  hm : r.hm.wf
  range : ∀ p ∈ r.hm, p.1 < s.cfg.hmsize
  ip : r.ip.wf
  len : r.chans.length = g.c
  chans : ∀ j < g.c, (r.chans.getD j default).ovf.length = g.b ∧ (r.chans.getD j default).fill < g.b ∧
     ((r.ok = true ∨ c ≤ j) → (r.chans.getD j default).taint = true ∨ allFinite (r.chans.getD j default).ovf = true)
  same : ∀ j, c ≤ j → r.chans.getD j default = g.chans.getD j default
  wf : Cells.wf .unconfigured r.ola
  key : ∀ k, olaSlot r.ola k ≠ .unconfigured → k < s.cfg.ninst
  geo : ∀ k, (olaSlot r.ola k).all (OlaInst.geo s.cfg) = true
  fin : r.ok = true → ∀ k, (olaSlot r.ola k).all (OlaInst.ok s.cfg) = true
  untouched : ∀ k, (c ≤ k ∨ (g.chans.getD k default).fill + s.len < g.b ∨ g.inner = .ext) → olaSlot r.ola k = olaSlot s.ola k
  failed : ∀ k d, r.err = some (k, d) → k < c ∧ (olaSlot r.ola k = olaSlot s.ola k ∨ ∃ q, olaSlot r.ola k = .faulted q ∧
      q.ok s.cfg = true)
  after : ∀ k d, r.err = some (k, d) → ∀ j, k < j → olaSlot r.ola j = olaSlot s.ola j
  live : ∀ k q, olaSlot r.ola k = .faulted q → q.ok s.cfg = true

theorem slot_all_of_iff {α : Type} {p q : α → Bool} {x : Slot α} (h : ∀ a, p a = true → q a = true) (hx : x.all p = true) :
    x.all q = true := by
  cases x with
  | unconfigured => rfl
  | configured a => exact h a hx
  | faulted a => exact h a hx

theorem segRun_inv (s : State) (g : SegInst) (hi : s.Inv) (hg : s.seg = .configured g) (p : Nat) (hp : p ≤ g.c)
   (hrow : rowsOk s.cfg.hmsize s.ptr0 s.stride p s.len = true) (hwr : wrappersOk g p s.ola = true) (c : Nat) (hcp : c ≤ p) :
   SegRunInv s g c (segRun g c s) := by
  have hsi : g.ok s.cfg = true := by have := hi.seg; rw [hg] at this; exact this
  simp only [SegInst.ok, Bool.and_eq_true, segSizeOk_iff, beq_iff_eq, List.all_eq_true] at hsi
  obtain ⟨⟨⟨⟨hb1, hb2, hc1, hc2⟩, hlen⟩, hch⟩, -⟩ := hsi
  have hchok : ∀ j < g.c, (g.chans.getD j default).ovf.length = g.b ∧ (g.chans.getD j default).fill < g.b ∧
      ((g.chans.getD j default).taint = true ∨ allFinite (g.chans.getD j default).ovf = true) := by
    intro j hj
    have hl : j < g.chans.length := by omega
    have := hch _ (by rw [List.getD_eq_getElem _ _ hl]; exact List.getElem_mem hl : g.chans.getD j default ∈ g.chans)
    simp only [Chan.ok, Bool.and_eq_true, beq_iff_eq, decide_eq_true_eq, Bool.or_eq_true] at this
    exact ⟨this.1.1, this.1.2, this.2⟩
  have hola := (slotsInv_iff _ _ _).1 ⟨hi.ola, hi.olaOk⟩
  induction c with
  | zero =>
    refine ⟨hi.hm, hi.hmRange, ⟨hi.ipSeg, hi.ipOla⟩, hlen, fun j hj => ⟨(hchok j hj).1, (hchok j hj).2.1, fun _ =>
        (hchok j hj).2.2⟩, fun _ _ => rfl, hola.1, fun k => (hola.2 k).2, fun k => ?_, fun _ k => (hola.2 k).1, fun
            _ _ => rfl, fun k d h => (by cases h), fun k d h => (by cases h), ?_⟩
    · refine slot_all_of_iff (fun o ho => ?_) (hola.2 k).1
      have := (olaInst_ok_iff _ _).1 ho
      exact (OlaInst.geo_iff _ _).2 ⟨this.1, this.2.1⟩
    · intro k q hq
      have := (hola.2 k).1
      change Cells.get _ s.ola k = _ at hq
      rw [hq] at this; exact this
  | succ c ih =>
    have R := ih (by omega)
    have hsucc : segRun g (c+1) s = segChannel (s.segEnv g) g.inner s.segOps (segRun g c s) c := segChannels_succ _ _ _ _ _
    rw [hsucc]
    cases herr : (segRun g c s).err with
    | some x =>
      rw [segChannel_err c herr]
      exact ⟨R.hm, R.range, R.ip, R.len, fun j hj => ⟨(R.chans j hj).1, (R.chans j hj).2.1, fun h => (R.chans j hj).2.2
          (h.imp id (by omega))⟩, fun j hj => R.same j (by omega), R.wf, R.key, R.geo, R.fin, fun k hk => R.untouched k
              (hk.imp (by omega) id), fun k d h => ⟨by have := (R.failed k d h).1; omega, (R.failed k d h).2⟩, R.after, R.live⟩
    | none =>
      rw [segChannel_ok c herr]
      generalize hr : segRun g c s = r at *
      have hcc : c < g.c := by omega
      have hcl : c < r.chans.length := by rw [R.len]; exact hcc
      have hgc := hchok c hcc
      have hsc := R.same c (Nat.le_refl _)
      have hsl := R.untouched c (.inl (Nat.le_refl _))
      let q0 := chanStart g.inner s.segOps.n c r
      let q := chanRow (s.segEnv g) g.inner s.segOps r c
      have hq : q = segRow (s.segEnv g) c (r.hm.read (s.segOps.addr c) s.segOps.n) q0 := rfl
      have hbw : ∀ o, q0.wrapper = some o → g.inner = .ola ∧ olaSlot s.ola c = .configured o ∧ o.b = g.b ∧
          o.ok s.cfg = true := by
        intro o ho
        simp only [q0, chanStart, boundWrapper, hsl] at ho
        split at ho
        · rename_i h1 h2
          obtain rfl := by simpa using ho
          obtain ⟨o', h3, h4⟩ := (wrappersOk_iff _ _ _).1 hwr h1 c (by omega)
          rw [h3] at h2; injection h2 with h2; subst h2
          refine ⟨h1, h3, h4, ?_⟩
          have := (hola.2 c).1
          change (olaSlot s.ola c).all _ = true at this
          rw [h3] at this; exact this
        · cases ho
      have hcp0 : s.segOps.n = 0 ∨ ChanRun.good (s.segEnv g) q0 := by
        by_cases hn : s.segOps.n = 0
        · exact .inl hn
        · right
          refine ⟨⟨?_, fun o ho => (hbw o ho).2.2.1⟩, ?_, ?_, fun h => absurd rfl h⟩
          · simp only [q0, chanStart, hsc]; exact hgc.1
          · intro hok
            simp only [q0, chanStart, Bool.and_eq_true, Bool.not_eq_true', Bool.and_eq_false_iff, decide_eq_false_iff_not] at hok
            refine ⟨?_, fun o ho => (hbw o ho).2.2.2⟩
            have ht : (r.chans.getD c default).taint = false := by
              rcases hok.2 with h | h
              · exact h
              · omega
            rcases (R.chans c hcc).2.2 (.inr (Nat.le_refl _)) with h | h
            · rw [h] at ht; cases ht
            · exact h
          · intro o ho
            have := (olaInst_ok_iff _ _).1 (hbw o ho).2.2.2
            exact ⟨this.1, this.2.1⟩
      -- facts about q
      have hq0 : s.segOps.n = 0 → q = q0 := by intro h; rw [hq, h]; rfl
      have hqcp : q = q0 ∧ s.segOps.n = 0 ∨ ChanRun.good (s.segEnv g) q := by
        rcases hcp0 with h | h
        · exact .inl ⟨hq0 h, h⟩
        · exact .inr (ChanRun.good_segRow _ h)
      have hsz : q.sized (s.segEnv g) := by
        refine ChanRun.sized_segRow c _ ⟨?_, fun o ho => (hbw o ho).2.2.1⟩
        simp only [chanStart, hsc]; exact hgc.1
      have hfl : q.fill < g.b := segRow_fill_lt (e := s.segEnv g) c _ (by simp only [chanStart, hsc]; exact hgc.2.1)
      have hokq : q.ok = true → r.ok = true := by
        intro h
        have := segRow_ok_start _ h
        simp only [chanStart, Bool.and_eq_true] at this
        exact this.1
      have hwq : ∀ o, q.wrapper = some o → g.inner = .ola ∧ ∃ o0, q0.wrapper = some o0 := by
        intro o ho
        cases h0 : q0.wrapper with
        | none => rw [hq, (segRow_wrapper _ _ _ _).1 h0] at ho; cases ho
        | some o0 => exact ⟨(hbw o0 h0).1, o0, rfl⟩
      have hgeo : ∀ o, q.wrapper = some o → OlaInst.geo s.cfg o = true := by
        intro o ho
        rw [OlaInst.geo_iff]
        rcases hqcp with ⟨h, -⟩ | h
        · rw [h] at ho
          have := (olaInst_ok_iff _ _).1 (hbw o ho).2.2.2
          exact ⟨this.1, this.2.1⟩
        · exact h.2.2.1 o ho
      have hfinw : q.ok = true → ∀ o, q.wrapper = some o → o.ok s.cfg = true := by
        intro hok o ho
        rcases hqcp with ⟨h, -⟩ | h
        · rw [h] at ho; exact (hbw o ho).2.2.2
        · exact (h.2.1 hok).2 o ho
      have hfail : q.err ≠ none → ∀ o, q.wrapper = some o → o.ok s.cfg = true := by
        intro hne o ho
        rcases hqcp with ⟨h, -⟩ | h
        · rw [h] at hne; exact absurd rfl hne
        · exact (h.2.2.2 hne o ho).1
      have hnew : ∀ k, olaSlot (chanEnd s.tick s.segOps c r q).ola k = (match q.wrapper with
          | some o => if k = c then (if q.err.isSome then .faulted o else .configured o) else olaSlot r.ola k
          | none => olaSlot r.ola k) := by
        intro k
        simp only [chanEnd]
        cases q.wrapper with
        | none => rfl
        | some o =>
          dsimp only
          by_cases hk : k = c
          · subst hk; rw [if_pos rfl, olaSlot_putOla_same]
          · rw [if_neg hk, olaSlot_putOla_other _ _ hk]
      change SegRunInv s g (c+1) (chanEnd s.tick s.segOps c r q)
      have hall : ∀ (P : OlaInst → Bool) k, (olaSlot r.ola k).all P = true → (∀ o, q.wrapper = some o → P o = true) →
          (olaSlot (chanEnd s.tick s.segOps c r q).ola k).all P = true := by
        intro P k h1 h2
        rw [hnew]
        cases hw : q.wrapper with
        | none => exact h1
        | some o =>
          dsimp only
          split
          · split
            · exact h2 o hw
            · exact h2 o hw
          · exact h1
      refine ⟨Memory.write_wf _ _ R.hm, ?_, segRow_ip_wf _ _ _ R.ip, ?_, ?_, ?_, ?_, ?_, ?_, ?_, ?_, ?_, ?_, ?_⟩
      · refine range_write R.range ?_
        have h1 : q.out.length ≤ s.segOps.n := length_chanRow_out (s.segEnv g) g.inner s.segOps r c
        rw [length_settleWords]
        rcases (rowsOk_iff _ _ _ _ _).1 hrow with h | ⟨h, -⟩
        · left
          have h2 : s.segOps.n = 0 := h
          omega
        · right
          have := h c (by omega)
          have h2 : s.segOps.addr c = s.ptr0 + c * s.stride := rfl
          have h3 : s.segOps.n = s.len := rfl
          omega
      · simp [chanEnd, R.len]
      · intro j hj
        simp only [chanEnd]
        by_cases hjc : j = c
        · subst hjc
          rw [show (r.chans.set j { ovf := q.ovf, fill := q.fill, taint :=
              (r.chans.getD j default).taint }).getD j default = { ovf := q.ovf, fill := q.fill, taint :=
                  (r.chans.getD j default).taint } by simp [List.getD_eq_getElem?_getD, hcl]]
          refine ⟨hsz.ovf, hfl, ?_⟩
          rintro (hok | h)
          · dsimp only
            rcases hqcp with ⟨h, -⟩ | h
            · rw [h]; exact (R.chans j hcc).2.2 (.inr (Nat.le_refl _))
            · exact .inr (h.2.1 hok).1
          · omega
        · rw [show (r.chans.set c { ovf := q.ovf, fill := q.fill, taint :=
            (r.chans.getD c default).taint }).getD j default = r.chans.getD j default by simp [List.getD_eq_getElem?_getD, Ne.symm hjc]]
          refine ⟨(R.chans j hj).1, (R.chans j hj).2.1, ?_⟩
          rintro (hok | h)
          · exact (R.chans j hj).2.2 (.inl (hokq hok))
          · exact (R.chans j hj).2.2 (.inr (by omega))
      · intro j hj
        simp only [chanEnd]
        rw [← R.same j (by omega)]
        simp [List.getD_eq_getElem?_getD, show c ≠ j by omega]
      · simp only [chanEnd]
        split
        · exact Cells.set_wf _ _ R.wf
        · exact R.wf
      · intro k hk
        rw [hnew] at hk
        split at hk
        · split at hk
          · subst_vars; omega
          · exact R.key k hk
        · exact R.key k hk
      · exact fun k => hall _ k (R.geo k) hgeo
      · exact fun hok k => hall _ k (R.fin (hokq hok) k) (hfinw hok)
      · intro k hk
        rw [hnew]
        cases hw : q.wrapper with
        | none => exact R.untouched k (hk.imp (by omega) id)
        | some o =>
          dsimp only
          by_cases hkc : k = c
          · subst hkc
            rcases hk with hk | hk | hk
            · omega
            · have h1 : q.wrapper = q0.wrapper := by
                rw [hq]
                refine segRow_short_wrapper _ ?_
                simp only [q0, chanStart, hsc, Memory.length_read]
                exact hk
              have h2 := hbw o (by rw [← h1, hw])
              have h3 : q.err = none := by
                have : ∀ row (r : ChanRun), r.err = none → r.fill + row.length < g.b → (segRow
                    (s.segEnv g) k row r).err = none := by
                  intro row
                  induction row with
                  | nil => intro r h _; exact h
                  | cons x row ih =>
                    intro r h hl
                    simp only [List.length_cons] at hl
                    rw [segRow_cons, segSample_ok h, if_neg (by simp only [State.segEnv]; omega)]
                    exact ih _ (by simpa [exchange] using h) (by simp [exchange]; omega)
                refine this _ _ rfl ?_
                simp only [chanStart, hsc, Memory.length_read]; exact hk
              simp [h3, h2.2.1]
            · have := (hwq o hw).1; rw [hk] at this; cases this
          · rw [if_neg hkc]
            rcases hk with hk | hk
            · exact R.untouched k (.inl (by omega))
            · exact R.untouched k (.inr hk)
      · intro k d hkd
        have hkd' : (c, d) = (k, d) ∧ q.err = some d := by
          simp only [chanEnd, Option.map_eq_some_iff] at hkd
          obtain ⟨d', h1, h2⟩ := hkd
          injection h2 with h2 h3
          subst h2; subst h3
          exact ⟨rfl, h1⟩
        obtain ⟨h1, h2⟩ := hkd'
        injection h1 with h1; subst h1
        refine ⟨Nat.lt_succ_self _, ?_⟩
        rw [hnew]
        cases hw : q.wrapper with
        | none => exact .inl hsl
        | some o =>
          right
          simp only [if_true, h2, Option.isSome_some]
          exact ⟨o, rfl, hfail (by simp [h2]) o hw⟩
      · intro k d hkd j hj
        have hk : k = c := by
          simp only [chanEnd, Option.map_eq_some_iff, Prod.mk.injEq] at hkd
          obtain ⟨_, -, rfl, -⟩ := hkd
          rfl
        rw [hnew, R.untouched j (.inl (by omega))]
        cases q.wrapper with
        | none => rfl
        | some o => exact if_neg (by omega)
      · intro k x hx
        rw [hnew] at hx
        cases hw : q.wrapper with
        | none => rw [hw] at hx; exact R.live k x hx
        | some o =>
          rw [hw] at hx
          dsimp only at hx
          split at hx
          · split at hx
            · rename_i h1
              injection hx with hx; subst hx
              exact hfail (by intro h; rw [h] at h1; simp at h1) _ hw
            · cases hx
          · exact R.live k x hx

end Sys2Proof.Machine
end

