-- ==== Sys2Proof/Laws/PerInstr.lean ====
section
/-! SUPPORT. The family `Format`, per command: the fields of its command word (rules R81, R82, R85). -/
namespace Sys2Proof.Laws.Format

/-- The fields `UNIT`, `OP` and `INST` of a command (columns of table T84; `INST` is 0 where the unit has one instance only). -/
def fields : Instr → BitVec 4 × BitVec 4 × InstNo
  | .sysReset => (0, 1, 0)
  | .dctCfg i => (1, 0, i)
  | .dctFwd i => (1, 1, i)
  | .dctInv i => (1, 2, i)
  | .mdctCfg i => (2, 0, i)
  | .mdctFwd i => (2, 1, i)
  | .mdctInv i => (2, 2, i)
  | .olaCfg i _ _ => (3, 0, i)
  | .olaProc i => (3, 1, i)
  | .segCfgExt => (4, 0, 0)
  | .segCfgOla _ _ => (4, 0, 0)
  | .segProc => (4, 1, 0)

/-- The word of a command has the command's fields in their places, and zeros in the reserved bits `w[15:3]` (rule R81). -/
def Statement (i : Instr) : Prop :=
  (encode i).extractLsb' 28 4 = (fields i).1 ∧ (encode i).extractLsb' 24 4 = (fields i).2.1 ∧
    instField (encode i) = (fields i).2.2 ∧ (encode i).extractLsb' 3 13 = 0#13

/-- The fields of a word of format CW (rule R81). -/
theorem cw_fields (unit op : BitVec 4) (inst : InstNo) (inner post pre : Bool) :
    (cw unit op inst inner post pre).extractLsb' 28 4 = unit ∧ (cw unit op inst inner post pre).extractLsb' 24 4 = op ∧
      instField (cw unit op inst inner post pre) = inst ∧ (cw unit op inst inner post pre).extractLsb' 3 13 = 0#13 := by
  refine ⟨?_, ?_, ?_, ?_⟩ <;>
    (apply BitVec.eq_of_getLsbD_eq; intro k hk; simp only [cw, instField, BitVec.getLsbD_extractLsb', BitVec.getLsbD_append])
  · interval_cases k <;> simp
  · interval_cases k <;> simp
  · interval_cases k <;> simp
  · interval_cases k <;> simp

theorem sysReset : Statement .sysReset := cw_fields 0 1 0 _ _ _
theorem dctCfg (i : InstNo) : Statement (.dctCfg i) := cw_fields 1 0 i _ _ _
theorem dctFwd (i : InstNo) : Statement (.dctFwd i) := cw_fields 1 1 i _ _ _
theorem dctInv (i : InstNo) : Statement (.dctInv i) := cw_fields 1 2 i _ _ _
theorem mdctCfg (i : InstNo) : Statement (.mdctCfg i) := cw_fields 2 0 i _ _ _
theorem mdctFwd (i : InstNo) : Statement (.mdctFwd i) := cw_fields 2 1 i _ _ _
theorem mdctInv (i : InstNo) : Statement (.mdctInv i) := cw_fields 2 2 i _ _ _
theorem olaCfg (i : InstNo) (pre post : Bool) : Statement (.olaCfg i pre post) := cw_fields 3 0 i _ _ _
theorem olaProc (i : InstNo) : Statement (.olaProc i) := cw_fields 3 1 i _ _ _
theorem segCfgExt : Statement .segCfgExt := cw_fields 4 0 0 _ _ _
theorem segCfgOla (pre post : Bool) : Statement (.segCfgOla pre post) := cw_fields 4 0 0 _ _ _
theorem segProc : Statement .segProc := cw_fields 4 1 0 _ _ _

end Sys2Proof.Laws.Format
end

