-- ==== Sys2Proof/Tests/Slice0.lean ====
section
/-! SUPPORT. Tests: the words of 95_test_vectors.md decoded, one step of each command on a small block with the values the vectors
print, and, for every statement with hypotheses, states and operands that meet them. Expected values are the spec's, as bit
patterns; the patterns of small whole numbers are those of binary32 (rule R61). -/
namespace Sys2Proof.Tests
open Sys2Proof Sys2Proof.Machine Sys2Proof.Stated

-- One theorem at a time: each `decide +kernel` waits for every theorem before it, and a thread for each is too many.
set_option Elab.async false

/-! ## Small blocks -/

/-- The parameters of the vectors: `NINST = 4`, `BMAX = 64`. -/
def params (hmsize : Nat) (port : InnerProc) : Config :=
  { hmsize := hmsize, ninst := 4, bmax := 64, kSet := [], wmSet := [], port := port }

/-- A block after reset, with the samples `v` at `addr` and the given operand registers. -/
def block (hmsize : Nat) (port : InnerProc) (addr : Nat) (v : List Word) (o : OpRegs) : State :=
  { State.reset with cfg := params hmsize port, ops := o, hm := Memory.write [] addr (v.map .known) }

/-- Whether an outcome is a next state that passes the test `p`. -/
def answers (o : Host.Outcome State Fault Refusal) (p : State → Bool) : Bool :=
  match o with
  | .next t => p t
  | _ => false

theorem answers_next {o : Host.Outcome State Fault Refusal} {p : State → Bool} (h : answers o p = true) :
    ∃ t, o = .next t ∧ p t = true := by
  cases o with
  | next t => exact ⟨t, rfl, h⟩
  | fault => cases h
  | refused => cases h

/-- The state `s` in which the host's next action issues the word `w`. -/
def issuing (s : State) (w : Word) : State := { s with pending := [.regWrite 0 w] }

/-- Whether the step that issues the word `w` in `s` goes to a next state that passes the test `p`. -/
def issued (w : Word) (s : State) (p : State → Bool) : Bool := answers (step (issuing s w)) p

/-- The sine window of section 5 of the vectors. -/
def sine : List Word := [0x3EC3EF15#32, 0x3F6C835E#32, 0x3F6C835E#32, 0x3EC3EF15#32]

/-- The samples 1.0, 2.0, 3.0, 4.0. -/
def ramp : List Word := [0x3F800000#32, 0x40000000#32, 0x40400000#32, 0x40800000#32]

/-! ## Well-formedness (rule R83): `INST = 4 = NINST` is refused, `INST = 3` is not -/

theorem test_wf_dctCfg : Instr.wf 4 (.dctCfg 4) = false ∧ Instr.wf 4 (.dctCfg 3) = true := by decide
theorem test_wf_dctFwd : Instr.wf 4 (.dctFwd 4) = false ∧ Instr.wf 4 (.dctFwd 3) = true := by decide
theorem test_wf_dctInv : Instr.wf 4 (.dctInv 4) = false ∧ Instr.wf 4 (.dctInv 3) = true := by decide
theorem test_wf_mdctCfg : Instr.wf 4 (.mdctCfg 4) = false ∧ Instr.wf 4 (.mdctCfg 3) = true := by decide
theorem test_wf_mdctFwd : Instr.wf 4 (.mdctFwd 4) = false ∧ Instr.wf 4 (.mdctFwd 3) = true := by decide
theorem test_wf_mdctInv : Instr.wf 4 (.mdctInv 4) = false ∧ Instr.wf 4 (.mdctInv 3) = true := by decide
theorem test_wf_olaCfg : Instr.wf 4 (.olaCfg 255 true true) = false ∧ Instr.wf 4 (.olaCfg 3 true true) = true := by decide
theorem test_wf_olaProc : Instr.wf 4 (.olaProc 4) = false ∧ Instr.wf 4 (.olaProc 3) = true := by decide

/-! ## Decoding (V18, V19) -/

/-- V18, and the fields of each word by rule R81. -/
theorem test_words_of_sys_dct : decode 0x01000000#32 = .ok .sysReset ∧ decode 0x10000000#32 = .ok (.dctCfg 0) ∧
    decode 0x11030000#32 = .ok (.dctFwd 3) ∧ decode 0x12000000#32 = .ok (.dctInv 0) := by decide

/-- V18. -/
theorem test_words_of_mdct : decode 0x20010000#32 = .ok (.mdctCfg 1) ∧ decode 0x21010000#32 = .ok (.mdctFwd 1) ∧
    decode 0x22010000#32 = .ok (.mdctInv 1) := by decide

/-- V18: the four flag settings, and `INST = 2`. -/
theorem test_words_of_ola : decode 0x30000000#32 = .ok (.olaCfg 0 false false) ∧
    decode 0x30000001#32 = .ok (.olaCfg 0 true false) ∧ decode 0x30000002#32 = .ok (.olaCfg 0 false true) ∧
    decode 0x30020003#32 = .ok (.olaCfg 2 true true) ∧ decode 0x31030000#32 = .ok (.olaProc 3) := by decide

/-- V18. -/
theorem test_words_of_seg : decode 0x40000000#32 = .ok .segCfgExt ∧ decode 0x40000004#32 = .ok (.segCfgOla false false) ∧
    decode 0x40000007#32 = .ok (.segCfgOla true true) ∧ decode 0x41000000#32 = .ok .segProc := by decide

/-- The fields of `0x30020003` written out bit by bit: UNIT 0011, OP 0000, INST 00000010, thirteen zeros, INNER 0, POST 1, PRE 1
(V18, rule R81). -/
theorem test_bits_of_olaCfg : 0b00110000000000100000000000000011#32 = encode (.olaCfg 2 true true) := by decide

/-- V19: each of these words ends with `STATUS = 4` and no other change. -/
theorem test_illegal_words :
    ([0x00000000#32, 0x50000000#32, 0x01010000#32, 0x13000000#32, 0x32000000#32, 0x10040000#32, 0x11000001#32,
      0x31000001#32, 0x30000004#32, 0x40000001#32, 0x41000008#32, 0x41010000#32, 0xFFFFFFFF#32].all fun w =>
      issued w (block 64 .platform 0 ramp OpRegs.zero)
        (fun t => t == { block 64 .platform 0 ramp OpRegs.zero with status := 4#32, tick := 1 })) = true := by
  decide +kernel

/-! ## One step of each command -/

/-- Operand registers for the tests. -/
def ops (ptr0 ptr1 len stride nch : Word) : OpRegs :=
  { ptr0 := ptr0, ptr1 := ptr1, len := len, stride := stride, nch := nch, env := 5#32 }

/-- A block of the DCT tests: `DCT[0]` of length 4 and the samples 1, 2, 3, 4 at 0x10. -/
def dctBlock (o : OpRegs) (v : List Word) : State :=
  { block 256 .platform 0x10 v o with dct := [(0, .configured { n := 4 })] }

/-- The result of the forward transform in V5. -/
def ramp4 : List Word := [0x40200000#32, 0xBFC9E06A#32, 0x00000000#32, 0xBDE58D04#32]

theorem test_sysReset : issued 0x01000000#32 { dctBlock (ops 1 2 3 4 5) ramp with status := 5, diag := 0xBAD, msg := 7 }
    (fun t => t.status == 0 && t.diag == 0 && t.msg == 0 && t.ops == OpRegs.zero && t.dct.isEmpty &&
      t.memRead 0x10 4 == ramp) = true := by decide +kernel

/-- V9: length 128 is `2*BMAX`. -/
theorem test_dctCfg : issued 0x10030000#32 (block 64 .platform 0 [] (ops 0 0 128 0 0))
    (fun t => t.status == 0 && t.dctAt 3 == .configured { n := 128 } && t.dctAt 0 == .unconfigured) = true := by
  decide +kernel

/-- V9: a bad length leaves the instance. -/
theorem test_dctCfg_bad : ([12#32, 1#32, 0#32, 256#32].all fun n =>
    issued 0x10000000#32 (dctBlock (ops 0 0 n 0 0) ramp)
      (fun t => t.status == 3 && t.dctAt 0 == .configured { n := 4 })) = true := by decide +kernel

/-- V5, P1. -/
theorem test_dctFwd : issued 0x11000000#32 (dctBlock (ops 0x10 0x20 4 0 0) ramp)
    (fun t => t.memRead 0x10 4 == ramp4 && t.status == 0 && t.hm.length == 7) = true := by decide +kernel

/-- V9: a range that ends at `HMSIZE` is valid, one word more is not; overlapping ranges are not. -/
theorem test_dctFwd_ranges :
    issued 0x11000000#32 (dctBlock (ops 0xFC 0xF8 0 0 0) ramp) (fun t => t.status == 0) = true ∧
    issued 0x11000000#32 (dctBlock (ops 0xFD 0xF8 0 0 0) ramp) (fun t => t.status == 6 && t.memRead 0x10 4 == ramp) = true ∧
    issued 0x11000000#32 (dctBlock (ops 0x10 0x13 0 0 0) ramp) (fun t => t.status == 6 && t.memRead 0x10 4 == ramp) = true ∧
    issued 0x11010000#32 (dctBlock (ops 0x10 0x20 0 0 0) ramp) (fun t => t.status == 5) = true := by decide +kernel

/-- V5, P1: the second element comes back one unit in the last place off. -/
theorem test_dctInv : issued 0x12000000#32 (dctBlock (ops 0x10 0x20 4 0 0) ramp4)
    (fun t => t.memRead 0x10 4 == [0x3F800000#32, 0x3FFFFFFF#32, 0x40400000#32, 0x40800000#32]) = true := by decide +kernel

/-- An input that is not finite: the command ends with `OK`, and the samples it writes are free values (U1, rule R13). -/
theorem test_dctInv_not_finite : issued 0x12000000#32 (dctBlock (ops 0x10 0x20 4 0 0) [0x7F800000#32])
    (fun t => t.status == 0 && Cells.get blankWord t.hm 0x12 == .unspecified 1 .data 2 &&
      Cells.get blankWord t.hm 0x21 == .unspecified 1 .scratch 1) = true := by decide +kernel

/-- `MDCT[1]` of V8 after its call 1: `DCTBUF` is the block 3, 4. -/
def mdctBlock (o : OpRegs) (v : List Word) (addr : Nat) : State :=
  { block 256 .platform addr v o with
    mdct := [(1, .configured
      { b := 2, dctBuf := [0x40400000#32, 0x40800000#32], idctBuf := [0x4023E1DC#32, 0x3F15F61A#32], dctTaint := false,
        idctTaint := false })] }

/-- V15: a second construction gives zeros again. -/
theorem test_mdctCfg : issued 0x20010000#32 (mdctBlock (ops 0 0 1 0 0) [] 0)
    (fun t => t.status == 0 && t.mdctAt 1 ==
      .configured { b := 1, dctBuf := [0#32], idctBuf := [0#32], dctTaint := false, idctTaint := false }) = true := by
  decide +kernel

/-- V15. -/
theorem test_mdctCfg_bad : ([3#32, 0#32, 128#32].all fun n =>
    issued 0x20010000#32 (mdctBlock (ops 0 0 n 0 0) [] 0)
      (fun t => t.status == 3 && t.mdct == (mdctBlock (ops 0 0 n 0 0) [] 0).mdct)) = true := by decide +kernel

/-- V8, call 2: block 5, 6. -/
theorem test_mdctFwd : issued 0x21010000#32 (mdctBlock (ops 0x10 0x20 0 0 0) [0x40A00000#32, 0x40C00000#32] 0x10)
    (fun t => t.memRead 0x20 4 == [0x40900000#32, 0xBFC9E06A#32, 0#32, 0xBDE58D04#32] &&
      t.mdctAt 1 == .configured
        { b := 2, dctBuf := [0x40A00000#32, 0x40C00000#32], idctBuf := [0x4023E1DC#32, 0x3F15F61A#32], dctTaint := false,
          idctTaint := false }) = true := by decide +kernel

/-- V15: input and output overlap. -/
theorem test_mdctFwd_overlap : issued 0x21010000#32 (mdctBlock (ops 0x10 0x11 0 0 0) [0x40A00000#32, 0x40C00000#32] 0x10)
    (fun t => t.status == 6 && t.mdct == (mdctBlock (ops 0 0 0 0 0) [] 0).mdct) = true := by decide +kernel

/-- V8, call 2. -/
theorem test_mdctInv :
    issued 0x22010000#32 (mdctBlock (ops 0x20 0x30 0 0 0) [0x40900000#32, 0xBFC9E06A#32, 0#32, 0xBDE58D04#32] 0x20)
      (fun t => t.memRead 0x30 2 == [0x40400001#32, 0x40800000#32] && t.mdctAt 1 == .configured
        { b := 2, dctBuf := [0x40400000#32, 0x40800000#32], idctBuf := [0x4088918C#32, 0x3F60F127#32], dctTaint := false,
          idctTaint := false }) = true := by decide +kernel

/-- `OLA[0]` of V20 after its call 1, with both windows. -/
def olaInst (pre post : Bool) : OlaInst :=
  { b := 2, pre := pre, post := post, w := sine, inBuf := ramp, outCarry := [0x4023E1DA#32, 0x3F15F619#32],
    taint := false }

/-- A block with that wrapper and the samples 5, 6 at 0x10. -/
def olaBlock (port : InnerProc) (ptr0 : Word) : State :=
  { block 256 port 0x10 [0x40A00000#32, 0x40C00000#32] (ops ptr0 0 2 0 0) with
    ola := [(0, .configured (olaInst true true))] }

/-- V12: the window is read from HM, the buffers are zero. -/
theorem test_olaCfg : issued 0x30000003#32 (block 256 .platform 0x40 sine (ops 0x40 0 2 0 0))
    (fun t => t.status == 0 && t.olaAt 0 == .configured
      { b := 2, pre := true, post := true, w := sine, inBuf := [0#32, 0#32, 0#32, 0#32], outCarry := [0#32, 0#32],
        taint := false }) = true := by decide +kernel

/-- V24: the bad block size is reported although the pointer is bad too; the window may end at `HMSIZE`. -/
theorem test_olaCfg_checks :
    issued 0x30000003#32 (block 64 .platform 0 [] (ops 0x3F 0 3 0 0)) (fun t => t.status == 3) = true ∧
    issued 0x30000003#32 (block 64 .platform 0 [] (ops 0x3D 0 2 0 0)) (fun t => t.status == 6) = true ∧
    issued 0x30000003#32 (block 64 .platform 0 [] (ops 0x3C 0 2 0 0)) (fun t => t.status == 0) = true := by decide +kernel

/-- V20, call 2, fixture `F_ID(7)`. -/
theorem test_olaProc : issued 0x31000000#32 (olaBlock (.fId 7) 0x10)
    (fun t => t.memRead 0x10 2 == [0x403FFFFF#32, 0x407FFFFF#32] && t.msg == 7 && t.status == 0 && t.olaAt 0 == .configured
      { olaInst true true with inBuf := [0x40400000#32, 0x40800000#32, 0x40A00000#32, 0x40C00000#32],
                               outCarry := [0x4088918C#32, 0x3F60F126#32] }) = true := by decide +kernel

/-- V24 and rule R149, with the third invocation of `F_FAIL3`: HM and `MSG` are kept, the wrapper is `FAULTED`. -/
theorem test_olaProc_inner_error :
    issued 0x31000000#32 { olaBlock .fFail3 0x10 with ip := { seg := [], ola := [], calls := 2 }, msg := 7 }
      (fun t => t.status == 2 && t.diag == 0xBAD && t.msg == 7 && (t.olaAt 0).isFaulted &&
        t.memRead 0x10 2 == [0x40A00000#32, 0x40C00000#32]) = true := by decide +kernel

/-- V17: 6 is no power of two, which `SEG.CFG.EXT` admits. -/
theorem test_segCfgExt : issued 0x40000000#32 (block 64 .platform 0 [] (ops 0 0 6 0 2))
    (fun t => t.status == 0 && t.seg == .configured
      { b := 6, c := 2, inner := .ext,
        chans := [⟨[0#32, 0#32, 0#32, 0#32, 0#32, 0#32], 0, false⟩, ⟨[0#32, 0#32, 0#32, 0#32, 0#32, 0#32], 0, false⟩] }) =
      true := by decide +kernel

/-- V17: `B = 0`, `C = 0`, `C > NINST`. -/
theorem test_segCfgExt_bad :
    issued 0x40000000#32 (block 64 .platform 0 [] (ops 0 0 0 0 2)) (fun t => t.status == 3) = true ∧
    issued 0x40000000#32 (block 64 .platform 0 [] (ops 0 0 4 0 0)) (fun t => t.status == 3) = true ∧
    issued 0x40000000#32 (block 64 .platform 0 [] (ops 0 0 4 0 5)) (fun t => t.status == 3) = true := by decide +kernel

/-- P4. -/
theorem test_segCfgOla : issued 0x40000007#32 (block 256 .platform 0x40 sine (ops 0x40 0 2 0 1))
    (fun t => t.status == 0 && t.seg == .configured { b := 2, c := 1, inner := .ola, chans := [⟨[0#32, 0#32], 0, false⟩] } &&
      t.olaAt 0 == .configured
        { b := 2, pre := true, post := true, w := sine, inBuf := [0#32, 0#32, 0#32, 0#32], outCarry := [0#32, 0#32],
          taint := false } && t.olaAt 1 == .unconfigured) = true := by decide +kernel

/-- V17. -/
theorem test_segCfgOla_bad : issued 0x40000007#32 (block 64 .platform 0 [] (ops 0 0 6 0 2))
    (fun t => t.status == 3 && t.seg == .unconfigured) = true := by decide +kernel

/-- The segmenter of P3 after its first `SEG.PROC`, and the rows of the second. -/
def segBlock (port : InnerProc) (o : OpRegs) : State :=
  { block 256 port 0x10 [0x40800000#32, 0x40A00000#32, 0x40C00000#32, 0x40E00000#32, 0x41000000#32, 0x41100000#32, 0#32, 0#32,
      0x42200000#32, 0x42480000#32, 0x42700000#32, 0x428C0000#32, 0x42A00000#32, 0x42B40000#32] o with
    seg := .configured
      { b := 4, c := 2, inner := .ext,
        chans := [⟨[0x3F800000#32, 0x40000000#32, 0x40400000#32, 0#32], 3, false⟩,
          ⟨[0x41200000#32, 0x41A00000#32, 0x41F00000#32, 0#32], 3, false⟩] } }

/-- P3, the second `SEG.PROC`, fixture `F_2NEG`: the rows, the fill pointers, the overflow buffers, four invocations. -/
theorem test_segProc : issued 0x41000000#32 (segBlock .f2Neg (ops 0x10 0 6 8 2))
    (fun t => t.memRead 0x10 6 == [0#32, 0x40000000#32, 0x40800000#32, 0x40C00000#32, 0x41000000#32, 0x41200000#32] &&
      t.memRead 0x18 6 == [0#32, 0xC1200000#32, 0xC1A00000#32, 0xC1F00000#32, 0xC2200000#32, 0xC2480000#32] &&
      t.seg == .configured
        { b := 4, c := 2, inner := .ext,
          chans := [⟨[0x41100000#32, 0x41400000#32, 0x41600000#32, 0x41800000#32], 1, false⟩,
            ⟨[0x42B40000#32, 0xC2700000#32, 0xC28C0000#32, 0xC2A00000#32], 1, false⟩] } &&
      t.status == 0 && t.msg == 0 && t.ip.calls == 4) = true := by decide +kernel

/-- P5, on the rows of P3: the third invocation, the first of channel 1, fails. -/
theorem test_segProc_inner_error : issued 0x41000000#32 (segBlock .fFail3 (ops 0x10 0 6 8 2))
    (fun t => t.status == 0x102 && t.diag == 0xBAD && t.seg.isFaulted && t.ip.calls == 3) = true := by decide +kernel

/-! ## The host -/

/-- Reads and writes of the bank (table T40). -/
theorem test_host_bank :
    answers (step { segBlock .platform (ops 1 2 3 4 5) with pending := [.regRead 9] })
      (fun t => t == { segBlock .platform (ops 1 2 3 4 5) with rdata := 5 }) = true ∧
    answers (step { segBlock .platform (ops 1 2 3 4 5) with pending := [.regWrite 7 9] })
      (fun t => t.ops == ops 1 2 3 9 5) = true := by
  decide +kernel

/-! ## Witnesses: states and operands that meet the hypotheses of the statements, clause by clause -/

/-- The largest instance number of a block with four. -/
theorem meets_DecodeAfterEncode : Instr.wf 4 (.olaCfg 3 true false) = true ∧ Instr.wf 256 (.dctCfg 255) = true := by decide

theorem meets_EncodeAfterDecode : decode 0x31FF0000#32 = .ok (.olaProc 255) := by decide

/-- For each clause of rule R87, a word that meets it alone, next to a legal one. -/
theorem meets_IllegalWordsAreThose :
    ([0x50000000#32, 0x00000000#32, 0x02000000#32, 0x13000000#32, 0x23000000#32, 0x32000000#32, 0x42000000#32, 0x10000008#32,
      0x10008000#32, 0x20000004#32, 0x41000004#32, 0x20000002#32, 0x40000001#32, 0x20040000#32, 0x30040000#32, 0x01010000#32,
      0x40010000#32].all fun w => match classify 4 w with | .error _ => true | .ok _ => false) = true ∧
    ([0x01000000#32, 0x12030000#32, 0x22030000#32, 0x31030000#32, 0x41000000#32, 0x40000004#32, 0x30030003#32].all fun w =>
      match classify 4 w with | .error _ => false | .ok _ => true) = true := by decide +kernel

theorem meets_StepRunsDecodedCommand :
    (issuing (segBlock .platform (ops 0x10 0 6 8 2)) 0x41000000).pending = .regWrite 0 0x41000000#32 :: [] ∧
      classify (issuing (segBlock .platform (ops 0x10 0 6 8 2)) 0x41000000).cfg.ninst 0x41000000#32 = .ok .segProc :=
  ⟨rfl, by decide⟩

theorem meets_IllegalWordSetsStatusOnly :
    (issuing (segBlock .platform (ops 0x10 0 6 8 2)) 0x10040000).pending = .regWrite 0 0x10040000#32 :: [] ∧
      classify (issuing (segBlock .platform (ops 0x10 0 6 8 2)) 0x10040000).cfg.ninst 0x10040000#32 = .error .noInst :=
  ⟨rfl, by decide⟩

/-- The first and the last operand register, and the offsets next to them. -/
theorem meets_RegisterBankReadsBack :
    ([3, 4, 9, 10].all fun a => decide (a ≠ 0) &&
      answers (step { segBlock .platform (ops 1 2 3 4 5) with pending := [.regWrite a 77, .regRead a] }) fun t =>
        answers (step t) fun u => u.rdata == (if a = 4 ∨ a = 9 then 77 else 0) && u.pending.isEmpty) = true := by
  decide +kernel

/-- The last word of HM and the first address above it. -/
theorem meets_HostMemoryReadsBack :
    (answers (step { segBlock .platform (ops 1 2 3 4 5) with pending := [.hmStore 255 77, .hmLoad 255] }) fun t =>
        answers (step t) fun u => u.rdata == 77) = true ∧
      (match step { segBlock .platform (ops 1 2 3 4 5) with pending := [.hmStore 256 77, .hmLoad 0] } with
        | .fault (.hostAddress a) => a == 256
        | _ => false) = true := by decide +kernel

theorem meets_IdleChangesNothing : (segBlock .platform (ops 1 2 3 4 5)).pending = [] := rfl

theorem meets_HardwareResetGivesSpecifiedState :
    ({ segBlock .platform (ops 1 2 3 4 5) with pending := [.hardReset] } : State).pending = .hardReset :: [] := rfl

/-- The least and the largest length, and lengths next to them. -/
theorem meets_DctCfgConstructs :
    (∀ n : Word, n = 2 ∨ n = 128 →
      let s := block 64 .platform 0 [] (ops 0 0 n 0 0)
      PowerOfTwo s.len ∧ 2 ≤ s.len ∧ s.len ≤ 2 * s.cfg.bmax) ∧
    ∀ n : Word, n = 1 ∨ n = 256 →
      let s := block 64 .platform 0 [] (ops 0 0 n 0 0)
      ¬ (PowerOfTwo s.len ∧ 2 ≤ s.len ∧ s.len ≤ 2 * s.cfg.bmax) := by
  constructor
  · rintro n (rfl | rfl)
    · exact ⟨⟨1, rfl⟩, by decide, by decide⟩
    · exact ⟨⟨7, rfl⟩, by decide, by decide⟩
  · rintro n (rfl | rfl) _ ⟨-, h1, h2⟩
    · exact absurd h1 (by decide)
    · exact absurd h2 (by decide)

/-- The least and the largest block size, and sizes next to them. -/
theorem meets_MdctCfgConstructs :
    (∀ n : Word, n = 1 ∨ n = 64 →
      let s := block 64 .platform 0 [] (ops 0 0 n 0 0)
      PowerOfTwo s.len ∧ 1 ≤ s.len ∧ s.len ≤ s.cfg.bmax) ∧
    ∀ n : Word, n = 0 ∨ n = 65 →
      let s := block 64 .platform 0 [] (ops 0 0 n 0 0)
      ¬ (PowerOfTwo s.len ∧ 1 ≤ s.len ∧ s.len ≤ s.cfg.bmax) := by
  constructor
  · rintro n (rfl | rfl)
    · exact ⟨⟨0, rfl⟩, by decide, by decide⟩
    · exact ⟨⟨6, rfl⟩, by decide, by decide⟩
  · rintro n (rfl | rfl) _ ⟨-, h1, h2⟩
    · exact absurd h1 (by decide)
    · exact absurd h2 (by decide)

/-- A window that ends at `HMSIZE`, one that ends one word above it, a finite window, and a bad size. -/
theorem meets_OlaCfgConstructs :
    (let s := block 64 .platform 60 sine (ops 60 0 2 0 0);
      (PowerOfTwo s.len ∧ 1 ≤ s.len ∧ s.len ≤ s.cfg.bmax) ∧ s.ptr0 + 2 * s.len ≤ s.cfg.hmsize ∧
        allFinite (s.memRead s.ptr0 (2 * s.len)) = true) ∧
    (let s := block 64 .platform 60 sine (ops 61 0 2 0 0);
      (PowerOfTwo s.len ∧ 1 ≤ s.len ∧ s.len ≤ s.cfg.bmax) ∧ s.cfg.hmsize < s.ptr0 + 2 * s.len) ∧
    (let s := block 64 .platform 60 sine (ops 60 0 0 0 0);
      ¬ (PowerOfTwo s.len ∧ 1 ≤ s.len ∧ s.len ≤ s.cfg.bmax)) := by
  refine ⟨⟨⟨⟨1, rfl⟩, by decide, by decide⟩, by decide, by decide +kernel⟩, ⟨⟨⟨1, rfl⟩, by decide, by decide⟩, by decide⟩, ?_⟩
  rintro _ ⟨-, h, -⟩
  exact absurd h (by decide)

/-- The largest segmenter, and one channel more. -/
theorem meets_SegCfgExtConstructs :
    (let s := block 64 .platform 0 [] (ops 0 0 64 0 4);
      1 ≤ s.len ∧ s.len ≤ s.cfg.bmax ∧ 1 ≤ s.nch ∧ s.nch ≤ s.cfg.ninst) ∧
    (let s := block 64 .platform 0 [] (ops 0 0 64 0 5);
      ¬ (1 ≤ s.len ∧ s.len ≤ s.cfg.bmax ∧ 1 ≤ s.nch ∧ s.nch ≤ s.cfg.ninst)) := by decide

/-- A window that ends at `HMSIZE`, one that ends one word above it, and no channels. -/
theorem meets_SegCfgOlaConstructs :
    (let s := block 64 .platform 60 sine (ops 60 0 2 0 4);
      (PowerOfTwo s.len ∧ 1 ≤ s.len ∧ s.len ≤ s.cfg.bmax ∧ 1 ≤ s.nch ∧ s.nch ≤ s.cfg.ninst) ∧
        s.ptr0 + 2 * s.len ≤ s.cfg.hmsize ∧ allFinite (s.memRead s.ptr0 (2 * s.len)) = true ∧
        (3#8).toNat < s.nch ∧ ∃ u, exec (.olaCfg 3#8 true true) s = .next u) ∧
    (let s := block 64 .platform 60 sine (ops 61 0 2 0 4);
      (PowerOfTwo s.len ∧ 1 ≤ s.len ∧ s.len ≤ s.cfg.bmax ∧ 1 ≤ s.nch ∧ s.nch ≤ s.cfg.ninst) ∧
        s.cfg.hmsize < s.ptr0 + 2 * s.len) ∧
    (let s := block 64 .platform 60 sine (ops 60 0 2 0 0);
      ¬ (PowerOfTwo s.len ∧ 1 ≤ s.len ∧ s.len ≤ s.cfg.bmax ∧ 1 ≤ s.nch ∧ s.nch ≤ s.cfg.ninst)) := by
  refine ⟨⟨⟨⟨1, rfl⟩, by decide, by decide, by decide, by decide⟩, by decide, by decide +kernel, by decide, ?_⟩,
    ⟨⟨⟨1, rfl⟩, by decide, by decide, by decide, by decide⟩, by decide⟩, ?_⟩
  · obtain ⟨u, hu, -⟩ := answers_next (p := fun _ => true)
      (o := exec (.olaCfg 3#8 true true) (block 64 .platform 60 sine (ops 60 0 2 0 4))) (by decide +kernel)
    exact ⟨u, hu⟩
  · rintro _ ⟨-, -, -, h, -⟩
    exact absurd h (by decide)

/-- (`DctFwdTransformsInPlace`, `DctInvTransformsInPlace`.) Data and scratch that touch and end at `HMSIZE`; ranges that
overlap in one word; an unconfigured instance; and samples that are finite with finite results. -/
theorem meets_DctCommands :
    (let s := dctBlock (ops 0xFC 0xF8 0 0 0) ramp;
      s.dctAt 0 = .configured { n := 4 } ∧ PowerOfTwo 4 ∧ 2 ≤ 4 ∧ RangesGood s 4 4 ∧
        allFinite (s.memRead s.ptr0 4) = true ∧
        allFinite (dctForward (binary32 s.cfg) 4 (s.memRead s.ptr0 4)) = true ∧
        allFinite (dctInverse (binary32 s.cfg) 4 (s.memRead s.ptr0 4)) = true) ∧
    (let s := dctBlock (ops 0x10 0x13 0 0 0) ramp;
      s.dctAt 0 = .configured { n := 4 } ∧ ¬ RangesGood s 4 4 ∧ ∀ d, s.dctAt 1 ≠ .configured d) := by
  refine ⟨⟨by decide, ⟨2, rfl⟩, by decide, by unfold RangesGood; decide, by decide +kernel, by decide +kernel,
    by decide +kernel⟩, by decide, by unfold RangesGood; decide, ?_⟩
  intro d h
  have h' : (Slot.unconfigured : Slot DctInst) = .configured d := h
  cases h'

/-- Ranges that touch, with finite samples and results; and ranges that overlap. -/
theorem meets_MdctFwdTransformsLapped :
    (let s := mdctBlock (ops 0x10 0x12 0 0 0) [0x40A00000#32, 0x40C00000#32] 0x10;
      ∃ m, s.mdctAt 1 = .configured m ∧ PowerOfTwo m.b ∧ RangesGood s m.b (2 * m.b) ∧ m.dctTaint = false ∧
        allFinite m.dctBuf = true ∧ allFinite (s.memRead s.ptr0 m.b) = true ∧
        allFinite (dctForward (binary32 s.cfg) (2 * m.b) (m.dctBuf ++ s.memRead s.ptr0 m.b)) = true) ∧
    (let s := mdctBlock (ops 0x10 0x11 0 0 0) [0x40A00000#32, 0x40C00000#32] 0x10;
      ∃ m, s.mdctAt 1 = .configured m ∧ PowerOfTwo m.b ∧ ¬ RangesGood s m.b (2 * m.b)) :=
  ⟨⟨_, rfl, ⟨1, rfl⟩, by unfold RangesGood; decide, rfl, by decide +kernel, by decide +kernel, by decide +kernel⟩,
    _, rfl, ⟨1, rfl⟩, by unfold RangesGood; decide⟩

/-- Likewise. -/
theorem meets_MdctInvOverlapAdds :
    (let s := mdctBlock (ops 0x20 0x1E 0 0 0) [0x40900000#32, 0xBFC9E06A#32, 0#32, 0xBDE58D04#32] 0x20;
      ∃ m, s.mdctAt 1 = .configured m ∧ PowerOfTwo m.b ∧ RangesGood s (2 * m.b) m.b ∧ m.idctTaint = false ∧
        allFinite m.idctBuf = true ∧ allFinite (s.memRead s.ptr0 (2 * m.b)) = true ∧
        let x := dctInverse (binary32 s.cfg) (2 * m.b) (s.memRead s.ptr0 (2 * m.b))
        allFinite ((List.range m.b).map fun j =>
          fadd (fmul (wmConst s.cfg m.b j) (x.getD j 0#32)) (m.idctBuf.getD j 0#32)) = true ∧
        allFinite ((List.range m.b).map fun j => fmul (wmConst s.cfg m.b (m.b + j)) (x.getD (m.b + j) 0#32)) = true) ∧
    (let s := mdctBlock (ops 0x20 0x1F 0 0 0) [] 0x20;
      ∃ m, s.mdctAt 1 = .configured m ∧ PowerOfTwo m.b ∧ ¬ RangesGood s (2 * m.b) m.b) :=
  ⟨⟨_, rfl, ⟨1, rfl⟩, by unfold RangesGood; decide, rfl, by decide +kernel, by decide +kernel, by decide +kernel,
    by decide +kernel⟩, _, rfl, ⟨1, rfl⟩, by unfold RangesGood; decide⟩

/-- Instances that are not configured. -/
theorem meets_state_clauses :
    (∀ m, (mdctBlock (ops 0 0 0 0 0) [] 0).mdctAt 0 ≠ .configured m) ∧ ∀ o, (olaBlock .platform 0).olaAt 1 ≠ .configured o := by
  constructor
  · intro m h
    have h' : (Slot.unconfigured : Slot MdctInst) = .configured m := h
    cases h'
  · intro o h
    have h' : (Slot.unconfigured : Slot OlaInst) = .configured o := h
    cases h'

/-- The vectors of `OLA.PROC` in V20: everything is finite. Then a block that ends above `HMSIZE`, and an inner error. -/
theorem meets_OlaProcRunsProcedure :
    (let s := olaBlock (.fId 7) 0x10;
      let o := olaInst true true
      let work := handedOver o (s.memRead s.ptr0 o.b)
      let r := callPort s.cfg (.ola 0) work s.ops.env s.ip
      s.olaAt 0 = .configured o ∧ s.ptr0 + o.b ≤ s.cfg.hmsize ∧ o.taint = false ∧
        allFinite (slid o (s.memRead s.ptr0 o.b)) = true ∧ allFinite work = true ∧ r.res = .ok 7 ∧ allFinite r.out = true ∧
        allFinite (reweighted o r.out) = true ∧ allFinite o.outCarry = true ∧ allFinite (summed o r.out) = true) ∧
    (let s := olaBlock (.fId 7) 0xFF;
      s.olaAt 0 = .configured (olaInst true true) ∧ s.cfg.hmsize < s.ptr0 + 2) ∧
    (let s := { olaBlock .fFail3 0xFE with ip := { seg := [], ola := [], calls := 2 } };
      s.olaAt 0 = .configured (olaInst true true) ∧ s.ptr0 + 2 ≤ s.cfg.hmsize ∧
        (callPort s.cfg (.ola 0) ramp s.ops.env s.ip).res = .err 0xBAD) := by decide +kernel

/-- The segmenter of the tests. -/
def segInst : SegInst :=
  { b := 4, c := 2, inner := .ext,
    chans := [⟨[0x3F800000#32, 0x40000000#32, 0x40400000#32, 0#32], 3, false⟩,
      ⟨[0x41200000#32, 0x41A00000#32, 0x41F00000#32, 0#32], 3, false⟩] }

theorem segBlock_wrappersGood (port : InnerProc) (o : OpRegs) (p : Nat) : WrappersGood (segBlock port o) segInst p := by
  intro h
  cases h

/-- No channels; rows that overlap in one word, and one that ends a word above `HMSIZE`; rows that touch and end at `HMSIZE`,
with a bound wrapper that is not there; an unconfigured segmenter. -/
theorem meets_SegProcRefusesInOrder :
    (segBlock .platform (ops 0 0 0 0 0)).nch = 0 ∧
    (let s := segBlock .platform (ops 0x10 0 6 5 2);
      s.seg = .configured segInst ∧ s.nch ≠ 0 ∧ ¬ RowsGood s (min s.nch segInst.c)) ∧
    (let s := segBlock .platform (ops 0xF3 0 7 7 2);
      s.nch ≠ 0 ∧ ¬ RowsGood s (min s.nch segInst.c)) ∧
    (let s := segBlock .platform (ops 0xF2 0 7 7 2);
      let g := { segInst with inner := .ola }
      s.nch ≠ 0 ∧ RowsGood s (min s.nch g.c) ∧ ¬ WrappersGood s g (min s.nch g.c)) ∧
    ∀ g, State.reset.seg ≠ .configured g := by
  refine ⟨by decide, ⟨by decide, by decide, by unfold RowsGood; decide⟩, ⟨by decide, by unfold RowsGood; decide⟩,
    ⟨by decide, by unfold RowsGood; decide, fun h => ?_⟩, fun g h => ?_⟩
  · obtain ⟨o, h1, -⟩ := h rfl 1 (by decide)
    have h2 : (Slot.unconfigured : Slot OlaInst) = .configured o := h1
    cases h2
  · have h2 : (Slot.unconfigured : Slot SegInst) = .configured g := h
    cases h2

/-- P3. -/
theorem meets_SegProcRunsChannelsInOrder :
    let s := segBlock .f2Neg (ops 0x10 0 6 8 2)
    s.seg = .configured segInst ∧ segInst.ok s.cfg = true ∧ s.nch ≠ 0 ∧ RowsGood s (min s.nch segInst.c) ∧
      WrappersGood s segInst (min s.nch segInst.c) ∧
      (∀ c < min s.nch segInst.c, (channelRuns s segInst c).err = none) ∧ (channelRuns s segInst 1).ok = true ∧
      (channelRuns s segInst 1).wrapper = none :=
  ⟨rfl, by decide +kernel, by decide, by unfold RowsGood; decide, segBlock_wrappersGood _ _ _, by decide +kernel,
    by decide +kernel, by decide +kernel⟩

/-- P5: the last channel fails. -/
theorem meets_SegProcInnerErrorAborts :
    let s := segBlock .fFail3 (ops 0x10 0 6 8 2)
    s.seg = .configured segInst ∧ segInst.ok s.cfg = true ∧ s.nch ≠ 0 ∧ RowsGood s (min s.nch segInst.c) ∧
      WrappersGood s segInst (min s.nch segInst.c) ∧ 1 < min s.nch segInst.c ∧
      (∀ e < 1, (channelRuns s segInst e).err = none) ∧ (channelRuns s segInst 1).err = some 0xBAD :=
  ⟨rfl, by decide +kernel, by decide, by unfold RowsGood; decide, segBlock_wrappersGood _ _ _, by decide, by decide +kernel,
    by decide +kernel⟩

/-- A segmenter of two channels bound to two wrappers. -/
def boundInst : SegInst :=
  { b := 2, c := 2, inner := .ola, chans := List.replicate 2 ⟨[0#32, 0#32], 0, false⟩ }

/-- A block with it, a row of one block for each channel, and one invocation made before. -/
def boundBlock : State :=
  { block 256 .fFail3 0x10 ramp (ops 0x10 0 2 2 2) with
    seg := .configured boundInst, ip := { seg := [], ola := [], calls := 1 },
    ola := [(0, .configured (olaInst true true)), (1, .configured (olaInst false true))] }

theorem boundBlock_wrappersGood : WrappersGood boundBlock boundInst 2 := by
  intro _ c hc
  match c, hc with
  | 0, _ => exact ⟨_, rfl, rfl⟩
  | 1, _ => exact ⟨_, rfl, rfl⟩

/-- (`SegProcInnerErrorAborts`.) The invocation of wrapper 0 completes, that of wrapper 1 fails. -/
theorem meets_SegProcInnerErrorAborts_wrappers :
    let s := boundBlock
    s.seg = .configured boundInst ∧ boundInst.ok s.cfg = true ∧ s.nch ≠ 0 ∧ RowsGood s (min s.nch boundInst.c) ∧
      WrappersGood s boundInst (min s.nch boundInst.c) ∧ 1 < min s.nch boundInst.c ∧
      (∀ e < 1, (channelRuns s boundInst e).err = none) ∧ (channelRuns s boundInst 1).err = some 0xBAD ∧
      (channelRuns s boundInst 1).ok = true ∧ (channelRuns s boundInst 0).wrapper ≠ none :=
  ⟨rfl, by decide +kernel, by decide, by unfold RowsGood; decide, boundBlock_wrappersGood, by decide, by decide +kernel,
    by decide +kernel, by decide +kernel, by decide +kernel⟩

/-- Wrapper 0 keeps what its completed invocation left (rule R129): its window has slid on to the block 1, 2. -/
theorem test_segProc_wrapperStands : issued 0x41000000#32 boundBlock
    (fun t => t.status == 0x102 && t.seg.isFaulted && (olaSlot t.ola 1).isFaulted &&
      match olaSlot t.ola 0 with
      | .configured o => o.inBuf == [0x40400000#32, 0x40800000#32, 0x3F800000#32, 0x40000000#32]
      | _ => false) = true := by decide +kernel

/-- (`PerSampleEqualsBlockwise`, `OneInvocationPerCompletedBlock`.) A channel between commands whose fill pointer is one below
`B`, and a run that ends without an inner error; bound to the port, and bound to a wrapper. -/
theorem meets_channel_statements :
    (let e : SegEnv := { cfg := params 256 .fAdd1, tick := 1, env := 0, b := 4 }
    let r := { freshChannel 4 none IPState.launch with fill := 3 }
    1 ≤ e.b ∧ r.ovf.length = e.b ∧ r.fill < e.b ∧ r.err = none ∧ r.wrapper = none ∧ (segRow e 0 ramp r).err = none) ∧
    (let e : SegEnv := { cfg := params 256 .fAdd1, tick := 1, env := 0, b := 2 }
    let o := olaInst true true
    let r := { freshChannel 2 (some o) IPState.launch with fill := 1 }
    1 ≤ e.b ∧ r.ovf.length = e.b ∧ r.fill < e.b ∧ r.err = none ∧ r.wrapper = some o ∧ o.b = e.b ∧
      o.inBuf.length = 2 * e.b ∧ (segRow e 0 ramp r).err = none) := by decide +kernel

/-- Both bindings, each with a processor that answers `Ok` and with one that answers `Err`. -/
theorem meets_SegInnerRunsItsBinding :
    let env := fun p : InnerProc => ({ cfg := params 256 p, tick := 1, env := 0, b := 2 } : SegEnv)
    let ip : IPState := { seg := [], ola := [], calls := 2 }
    let blk := [0x40A00000#32, 0x40C00000#32]
    let o := olaInst true true
    let r := { freshChannel 2 none ip with ovf := blk }
    let u := { freshChannel 2 (some o) ip with ovf := blk }
    r.ok = true ∧ r.wrapper = none ∧ u.ok = true ∧ u.wrapper = some o ∧ o.taint = false ∧
      allFinite (slid o u.ovf) = true ∧ allFinite (handedOver o u.ovf) = true ∧
      (callPort (env .fAdd1).cfg (.seg 0) r.ovf 0 ip).res = .ok 0 ∧
      (callPort (env .fAdd1).cfg (.ola 0) (handedOver o u.ovf) 0 ip).res = .ok 0 ∧
      (callPort (env .fFail3).cfg (.seg 0) r.ovf 0 ip).res = .err 0xBAD ∧
      (callPort (env .fFail3).cfg (.ola 0) (handedOver o u.ovf) 0 ip).res = .err 0xBAD := by decide +kernel

/-- V14, in little: a stream in three parts, through the port and through a wrapper. -/
theorem meets_SegmenterDelaysStreamByBlock :
    (let e : SegEnv := { cfg := params 256 .fRev100, tick := 1, env := 0, b := 4 }
    let r := [ramp, [0x3F800000#32], []].foldl (fun r part => segRow e 0 part r) (freshChannel e.b none IPState.launch)
    1 ≤ e.b ∧ r.err = none ∧ r.ok = true) ∧
    (let e : SegEnv := { cfg := params 256 (.fId 7), tick := 1, env := 0, b := 2 }
    let o := olaInst true true
    let r := [ramp, [0x3F800000#32], []].foldl (fun r part => segRow e 0 part r) (freshChannel e.b (some o) IPState.launch)
    1 ≤ e.b ∧ o.b = e.b ∧ r.err = none ∧ r.ok = true) := by decide +kernel

/-- The procedure of rule R142 inside the segmenter, by the figures of call 3 of V20. -/
theorem test_segInner_wrapper :
    let e : SegEnv := { cfg := params 256 (.fId 7), tick := 1, env := 0, b := 2 }
    let r := { freshChannel 2 (some (olaInst true true)) IPState.launch with ovf := [0x40A00000#32, 0x40C00000#32] }
    let q := segInner e 0 r
    q.ovf = [0x403FFFFF#32, 0x407FFFFF#32] ∧ q.wrapper =
      some { olaInst true true with inBuf := [0x40400000#32, 0x40800000#32, 0x40A00000#32, 0x40C00000#32],
                                    outCarry := [0x4088918C#32, 0x3F60F126#32] } := by decide +kernel

/-- A `SEG.PROC` with `N = 0` and a base beyond HM, on the segmenter of P3. -/
theorem meets_SegProcOfNothingChangesNothing :
    let s := segBlock .platform (ops 0xFFFFFFFF 0 0 0 2)
    s.Inv ∧ s.seg = .configured segInst ∧ s.nch ≠ 0 ∧ s.len = 0 ∧ WrappersGood s segInst (min s.nch segInst.c) := by
  refine ⟨?_, rfl, by decide, by decide, segBlock_wrappersGood _ _ _⟩
  constructor <;> decide +kernel

/-- Two runs that agree on channel 1 and differ on channel 0: its row, its buffer, its wrapper, its processor's state. -/
theorem meets_ChannelDependsOnlyOnItsOwn :
    let r : SegRun :=
      { hm := (segBlock .f2Neg (ops 0 0 0 0 0)).hm, chans := segInst.chans, ola := [], ip := IPState.launch, ok := true,
        err := none }
    let u := { r with chans := segInst.chans.set 0 ⟨[0#32, 0#32, 0#32, 0#32], 0, false⟩,
                      hm := (segBlock .f2Neg (ops 0 0 0 0 0)).hm.write 0x10 [.known 0x40400000],
                      ola := [(0, .configured (olaInst true true))], ip := { seg := [(0, 5)], ola := [(0, 9)], calls := 0 } }
    r.err = none ∧ u.err = none ∧ 1 < r.chans.length ∧ 1 < u.chans.length ∧
      (∀ j < 6, r.hm.get (0x10 + 1 * 8 + j) = u.hm.get (0x10 + 1 * 8 + j)) ∧
      r.chans.getD 1 default = u.chans.getD 1 default ∧ olaSlot r.ola 1 = olaSlot u.ola 1 ∧
      r.ip.at (.seg 1) = u.ip.at (.seg 1) ∧ r.ip.at (.ola 1) = u.ip.at (.ola 1) ∧ r.ip.calls = u.ip.calls ∧ r.ok = u.ok ∧
      r.ip ≠ u.ip ∧ r.ola ≠ u.ola ∧ r.chans ≠ u.chans ∧ r.hm ≠ u.hm := by decide +kernel

/-- Ranges outside the row of channel 1, and a channel other than it. -/
theorem meets_ChannelTouchesOnlyItsOwn :
    let k : SegOps := { base := 0x10, stride := 8, n := 6 }
    0x17 < k.base + 1 * k.stride ∧ k.base + 1 * k.stride + k.n ≤ 0x1E ∧ (0 : Nat) ≠ 1 := by decide

/-- Commands that end with each of the codes, and a channel in `STATUS`. -/
theorem meets_ErrorsBeforeExecutionArePrecise :
    answers (exec .segProc (segBlock .f2Neg (ops 0x10 0 6 5 2)))
      (fun t => statusCode t.status != 0 && statusCode t.status != 2) = true := by decide +kernel

theorem meets_EveryCommandEndsWithStatus :
    answers (exec .segProc (segBlock .fFail3 (ops 0x10 0 6 8 2))) (fun t => statusChan t.status != 0) = true := by
  decide +kernel

/-- `MSG`, `IPState` and `DIAG` do change where the statement says they may. -/
theorem meets_ControlRegistersAreKept :
    (let s := olaBlock (.fId 7) 0x10;
      answers (exec (.olaProc 0) s) fun t => t.msg != s.msg && t.ip != s.ip) = true ∧
    (let s := segBlock .fFail3 (ops 0x10 0 6 8 2);
      answers (exec .segProc s) fun t => t.diag != s.diag && t.ip != s.ip) = true := by decide +kernel

/-- A state that meets the invariant, and a word that changes. -/
theorem meets_CommandsWriteOnlyTheirRanges :
    let s := segBlock .f2Neg (ops 0x10 0 6 8 2)
    s.Inv ∧ answers (exec .segProc s) (fun t => t.hm.get 0x15 != s.hm.get 0x15) = true := by
  refine ⟨?_, by decide +kernel⟩
  constructor <;> decide +kernel

/-- Each kind of instance does change. -/
theorem meets_InstancesAreNotShared :
    (let s := dctBlock (ops 0 0 8 0 0) [];
      answers (exec (.dctCfg 0) s) fun t => t.dctAt 0 != s.dctAt 0) = true ∧
    (let s := mdctBlock (ops 0 0 1 0 0) [] 0;
      answers (exec (.mdctCfg 1) s) fun t => t.mdctAt 1 != s.mdctAt 1) = true ∧
    (let s := olaBlock (.fId 7) 0x10;
      answers (exec (.olaProc 0) s) fun t => t.olaAt 0 != s.olaAt 0) = true ∧
    (let s := segBlock .f2Neg (ops 0x10 0 6 8 2);
      answers (exec .segProc s) fun t => t.seg != s.seg) = true := by decide +kernel

theorem meets_ConstructionValuesAreKept :
    ¬ Constructs .segProc ∧
      answers (exec .segProc (segBlock .f2Neg (ops 0x10 0 6 8 2))) (fun t => t.status == 0) = true :=
  ⟨fun h => h, by decide +kernel⟩

/-- A wrapper and a segmenter become `FAULTED`, and are constructed again. -/
theorem meets_FaultedComesAndGoesAsSpecified :
    (let s := { olaBlock .fFail3 0x10 with ip := { seg := [], ola := [], calls := 2 } };
      !(olaSlot s.ola 0).isFaulted && answers (exec (.olaProc 0) s) fun t => (olaSlot t.ola 0).isFaulted) = true ∧
    (let s := segBlock .fFail3 (ops 0x10 0 6 8 2);
      !s.seg.isFaulted && answers (exec .segProc s) fun t => t.seg.isFaulted) = true ∧
    (let s := { olaBlock .fFail3 0x10 with ola := [(0, .faulted (olaInst true true))] };
      (olaSlot s.ola 0).isFaulted && answers (exec (.olaCfg 0 true true) s) fun t => !(olaSlot t.ola 0).isFaulted) = true ∧
    (let s := { segBlock .fFail3 (ops 0x10 0 6 8 2) with seg := .faulted segInst };
      s.seg.isFaulted && answers (exec .segCfgExt s) fun t => !t.seg.isFaulted) = true ∧
    (let s := { block 256 .platform 0x40 sine (ops 0x40 0 2 0 1) with ola := [(0, .faulted (olaInst true true))] };
      (olaSlot s.ola 0).isFaulted && answers (exec (.segCfgOla true true) s) fun t => !(olaSlot t.ola 0).isFaulted) = true ∧
    (let s := { block 256 .platform 0 [] (ops 0 0 4 0 0) with dct := [(0, .faulted ⟨2⟩)] };
      (s.dctAt 0).isFaulted && answers (exec (.dctCfg 0) s) fun t => !(t.dctAt 0).isFaulted) = true := by decide +kernel

/-- A state that meets the invariant, and a step from it. -/
theorem meets_StepKeepsInvariant :
    (segBlock .f2Neg (ops 0x10 0 6 8 2)).Inv ∧
      issued 0x41000000#32 (segBlock .f2Neg (ops 0x10 0 6 8 2)) (fun t => t.status == 0) = true := by
  refine ⟨?_, by decide +kernel⟩
  constructor <;> decide +kernel

/-- (`FaddIsCorrectlyRounded`, `FmulIsCorrectlyRounded`, `OperationsPropagateNonFinite`.) Finite samples at the ends of the
range: the largest ones, the smallest subnormal ones, zeros of both signs. -/
theorem meets_arithmetic_statements :
    isFinite 0x7F7FFFFF#32 = true ∧ isFinite 0xFF7FFFFF#32 = true ∧ isFinite 0x00000001#32 = true ∧
      isFinite 0x80000001#32 = true ∧ isFinite 0x80000000#32 = true ∧ isFinite 0x7F800000#32 = false ∧
      isFinite 0x7FC00000#32 = false := by decide

/-- Rounding by hand: ties go to even, a half of the smallest subnormal rounds to zero, and the largest sample plus half a unit
in its last place overflows (IEEE 754, rule R12). -/
theorem test_rounding : fadd 0x3F800000#32 0x33800000#32 = 0x3F800000#32 ∧ fadd 0x3F800001#32 0x33800000#32 = 0x3F800002#32 ∧
    fmul 0x00000001#32 0x3F000000#32 = 0x00000000#32 ∧ fmul 0x00000003#32 0xBF000000#32 = 0x80000002#32 ∧
    isFinite (fadd 0x7F7FFFFF#32 0x73000000#32) = false ∧ fadd 0x7F7FFFFF#32 0x72FFFFFF#32 = 0x7F7FFFFF#32 ∧
    fsub 0x40400000#32 0x40400000#32 = 0x00000000#32 ∧ fadd 0x80000000#32 0x80000000#32 = 0x80000000#32 := by decide +kernel

/-- An input of length 4 with one infinity; and a finite one (twice the largest sample) whose nested input is not finite. -/
theorem meets_NonFiniteReachesTheOutput :
    let N := binary32 (params 64 .platform)
    let x := [0x3F800000#32, 0x7F800000#32, 0#32, 0#32]
    let y := [0x7F7FFFFF#32, 0#32, 0#32, 0x7F7FFFFF#32]
    let z := [0#32, 0x7F7FFFFF#32, 0#32, 0x7F7FFFFF#32]
    (x.length = 2 ^ (1 + 1) ∧ allFinite x = false ∧ allFinite (fwdRec N 1 x) = false) ∧
      (y.length = 2 ^ (1 + 1) ∧ allFinite y = true ∧ ((fwdValues N 1 y).drop 2).any (fun v => !allFinite v) = true) ∧
      z.length = 2 ^ (1 + 1) ∧ allFinite z = true ∧ ((invValues N 1 z).drop 2).any (fun v => !allFinite v) = true := by
  decide +kernel

/-- The ends of the range of exponents. -/
theorem meets_GlobalMultiplierIsTwoOverN : (1 ≤ 1 ∧ 1 ≤ 31) ∧ (1 ≤ 31 ∧ 31 ≤ 31) := by decide

/-- (`ForwardRefinesTwoBuffers`, `InverseRefinesTwoBuffers`.) Indices on both sides of the sub-range at offset 1 with two
elements. -/
theorem meets_two_buffer_statements : (0 : Nat) < 1 ∧ 1 + 2 ^ (0 + 1) ≤ (3 : Nat) := by decide

/-- The printed `WM[4]` misses the sum condition of rule R192 in the sample format: `0.038060233 + 0.96193975` and
`0.30865827 + 0.6913417` are not exactly 1 (units of `2^-149`; notes/assumptions/22.md). -/
theorem test_window_sum_is_rounded :
    [(0x3D1BE50C#32, 0x3F7641AF#32), (0x3E9E0875#32, 0x3F30FBC5#32)].all (fun (p : Word × Word) =>
      decide (exactValue p.1 + exactValue p.2 ≠ 2 ^ 149)) = true := by decide +kernel

theorem meets_RealInverseUndoesForward : ([1, 2] : List ℝ).length = 2 ^ (0 + 1) := rfl

/-- The window that is 1/2 everywhere has halves that sum to 1. -/
theorem meets_RealMdctReconstructs :
    ([1] : List ℝ).length = 2 ^ 0 ∧ ∀ j < 2 ^ 0, (fun _ _ => (1 / 2 : ℝ)) (2 ^ 0) j + (fun _ _ => 1 / 2) (2 ^ 0) (2 ^ 0 + j) = 1 :=
  ⟨rfl, fun _ _ => by norm_num⟩

theorem meets_RealOverlapAddGain : ([1, 2] : List ℝ).length = 2 := rfl

end Sys2Proof.Tests
end

