-- ==== Sys2Proof/Proofs/SampleFormat.lean ====
section
/-! The sample format (rule R61): the fields and the value of a packed sample, and the values that have a given magnitude. -/
namespace Sys2Proof.Machine

theorem toNat_packSample (s : Bool) {b : Nat} (hb : b < 2 ^ 31) :
    (packSample s b).toNat = if s then 2 ^ 31 + b else b := by
  rw [packSample, BitVec.toNat_ofNat, Nat.mod_eq_of_lt]
  split <;> omega

theorem isNegative_packSample (s : Bool) {b : Nat} (hb : b < 2 ^ 31) : isNegative (packSample s b) = s := by
  rw [isNegative, toNat_packSample s hb]
  cases s
  · exact decide_eq_false (Nat.not_le.2 hb)
  · exact decide_eq_true (Nat.le_add_right ..)

theorem expField_packSample (s : Bool) {b : Nat} (hb : b < 2 ^ 31) : expField (packSample s b) = b / 2 ^ 23 := by
  rw [expField, toNat_packSample s hb]
  split <;> omega

theorem fracField_packSample (s : Bool) {b : Nat} (hb : b < 2 ^ 31) : fracField (packSample s b) = b % 2 ^ 23 := by
  rw [fracField, toNat_packSample s hb]
  split <;> omega

theorem isFinite_packSample (s : Bool) {b : Nat} (hb : b < 2 ^ 31) :
    isFinite (packSample s b) = true ↔ b < 0x7F800000 := by
  rw [isFinite, expField_packSample s hb, Bool.not_eq_true', beq_eq_false_iff_ne]
  omega

theorem exactValue_packSample (s : Bool) {b : Nat} (hb : b < 2 ^ 31) :
    exactValue (packSample s b) = if s then -(magnitude (packSample s b) : Int) else magnitude (packSample s b) := by
  rw [exactValue, isNegative_packSample s hb]

theorem exactValue_mul_two_pow (w : Word) (k : Nat) :
    exactValue w * 2 ^ k = if isNegative w then -((magnitude w * 2 ^ k : Nat) : Int) else (magnitude w * 2 ^ k : Nat) := by
  unfold exactValue
  split <;> push_cast <;> ring

theorem natAbs_exactValue (w : Word) : (exactValue w).natAbs = magnitude w := by
  unfold exactValue
  split <;> simp

theorem magnitude_zeroSample : magnitude zeroSample = 0 := by decide

/-- The bits `e * 2^23 + q` of a significand `q` of up to 24 bits at the exponent `e`, or of a `q` that has just reached `2^24`
and so carries into the exponent, stand for `q * 2^e`. -/
theorem magnitude_packSample (s : Bool) {e q : Nat} (hq : q ≤ 2 ^ 24) (he : e = 0 ∨ 2 ^ 23 ≤ q)
    (hb : e * 2 ^ 23 + q < 2 ^ 31) : magnitude (packSample s (e * 2 ^ 23 + q)) = q * 2 ^ e := by
  rw [magnitude, expField_packSample s hb, fracField_packSample s hb]
  rcases Nat.lt_or_ge q (2 ^ 23) with hsub | hnormal
  · obtain rfl : e = 0 := by omega
    rw [Nat.zero_mul, Nat.zero_add, if_pos (Nat.div_eq_of_lt hsub), Nat.mod_eq_of_lt hsub, Nat.pow_zero, Nat.mul_one]
  · rcases Nat.lt_or_eq_of_le hq with hlt | rfl
    · have hexp : (e * 2 ^ 23 + q) / 2 ^ 23 = e + 1 := by omega
      have hfrac : 2 ^ 23 + (e * 2 ^ 23 + q) % 2 ^ 23 = q := by omega
      rw [hexp, hfrac, if_neg (Nat.succ_ne_zero e), Nat.add_sub_cancel]
    · have hexp : (e * 2 ^ 23 + 2 ^ 24) / 2 ^ 23 = e + 2 := by omega
      have hfrac : 2 ^ 23 + (e * 2 ^ 23 + 2 ^ 24) % 2 ^ 23 = 2 ^ 23 := by omega
      rw [hexp, hfrac, if_neg (Nat.succ_ne_zero _), show e + 2 - 1 = e + 1 from rfl, Nat.pow_succ 2 e]
      omega

/-- A magnitude from `2^23 * 2^e` up has an exponent of at least `e`. -/
theorem magnitude_lt_or_dvd (c : Word) (e : Nat) : magnitude c < 2 ^ 23 * 2 ^ e ∨ 2 ^ e ∣ magnitude c := by
  have hfrac : fracField c < 2 ^ 23 := Nat.mod_lt _ (by decide)
  have hpos : 0 < 2 ^ e := Nat.two_pow_pos e
  rw [magnitude]
  split
  · exact .inl (hfrac.trans_le (Nat.le_mul_of_pos_right _ hpos))
  · rcases Nat.lt_or_ge (expField c - 1) e with hlow | hhigh
    · left
      calc (2 ^ 23 + fracField c) * 2 ^ (expField c - 1)
          < 2 ^ 24 * 2 ^ (expField c - 1) := Nat.mul_lt_mul_of_pos_right (by omega) (Nat.two_pow_pos _)
        _ = 2 ^ 23 * 2 ^ (expField c - 1 + 1) := by rw [Nat.pow_succ 2 (expField c - 1)]; omega
        _ ≤ 2 ^ 23 * 2 ^ e := Nat.mul_le_mul_left _ (Nat.pow_le_pow_right (by decide) hlow)
    · exact .inr (Dvd.dvd.mul_left (pow_dvd_pow 2 hhigh) _)

end Sys2Proof.Machine
end

