-- ==== Sys2Proof/Proofs/Rounding.lean ====
section
/-! `roundBits` rounds to the nearest sample, ties to even (rule R12). First the rounding of a quotient to the nearest integer,
then the choice of the unit at which `roundBits` does it, then the samples. -/
namespace Sys2Proof.Machine

/-! ### The nearest integer -/

/-- The integer nearest to `m / d`, the even one of two. -/
def roundQuot (m d : Nat) : Nat :=
  m / d + if d < 2 * (m % d) ∨ (2 * (m % d) = d ∧ m / d % 2 = 1) then 1 else 0

theorem roundQuot_cases (m d : Nat) :
    (roundQuot m d = m / d ∧ 2 * (m % d) ≤ d ∧ (2 * (m % d) = d → m / d % 2 = 0)) ∨
      (roundQuot m d = m / d + 1 ∧ d ≤ 2 * (m % d) ∧ (2 * (m % d) = d → m / d % 2 = 1)) := by
  unfold roundQuot
  split <;> omega

theorem le_roundQuot {m d n : Nat} (hd : 0 < d) (h : n * d ≤ m) : n ≤ roundQuot m d :=
  ((Nat.le_div_iff_mul_le hd).2 h).trans (Nat.le_add_right _ _)

theorem roundQuot_le {m d n : Nat} (h : m < n * d) : roundQuot m d ≤ n := by
  have hquot : m / d < n := Nat.div_lt_of_lt_mul (by rwa [Nat.mul_comm])
  rcases roundQuot_cases m d with ⟨hR, -, -⟩ | ⟨hR, -, -⟩ <;> omega

/-- What lies at or above the midpoint of an odd integer and the next rounds to the next or beyond. -/
theorem roundQuot_le_iff {m d n : Nat} (hd : 0 < d) (hodd : n % 2 = 1) :
    roundQuot m d ≤ n ↔ 2 * m < (2 * n + 1) * d := by
  have hm : m / d * d + m % d = m := Nat.div_add_mod' m d
  have hr : m % d < d := Nat.mod_lt m hd
  have hn : (2 * n + 1) * d = 2 * (n * d) + d := by ring
  rcases Nat.lt_trichotomy (m / d) n with hlt | heq | hgt
  · have hnext : (m / d + 1) * d ≤ n * d := Nat.mul_le_mul_right d hlt
    rw [Nat.add_one_mul] at hnext
    rcases roundQuot_cases m d with ⟨hR, -, -⟩ | ⟨hR, -, -⟩ <;> omega
  · rw [heq] at hm
    rcases roundQuot_cases m d with ⟨hR, hhalf, htie⟩ | ⟨hR, hhalf, -⟩ <;> omega
  · have hnext : (n + 1) * d ≤ m / d * d := Nat.mul_le_mul_right d hgt
    rw [Nat.add_one_mul] at hnext
    rcases roundQuot_cases m d with ⟨hR, -, -⟩ | ⟨hR, -, -⟩ <;> omega

/-- No multiple of `d` is nearer to `m` than `roundQuot m d * d`, and another is as near only if `roundQuot m d` is even. -/
theorem roundQuot_nearest (m k : Nat) {d : Nat} (hd : 0 < d) :
    (((roundQuot m d * d : Nat) : Int) - m).natAbs ≤ (((k * d : Nat) : Int) - m).natAbs ∧
      ((((roundQuot m d * d : Nat) : Int) - m).natAbs = (((k * d : Nat) : Int) - m).natAbs → k ≠ roundQuot m d →
        roundQuot m d % 2 = 0) := by
  have hm : m / d * d + m % d = m := Nat.div_add_mod' m d
  have hr : m % d < d := Nat.mod_lt m hd
  have hk : k * d + d ≤ m / d * d ∨ k = m / d ∨ k = m / d + 1 ∨ m / d * d + 2 * d ≤ k * d := by
    rcases Nat.lt_or_ge k (m / d) with hlt | hge
    · exact .inl (Nat.add_one_mul k d ▸ Nat.mul_le_mul_right d hlt)
    · rcases Nat.lt_or_ge (m / d + 1) k with hgt | hle
      · exact .inr (.inr (.inr (Nat.add_mul (m / d) 2 d ▸ Nat.mul_le_mul_right d hgt)))
      · omega
  have hnext : (m / d + 1) * d = m / d * d + d := Nat.add_one_mul ..
  rcases roundQuot_cases m d with ⟨hR, hhalf, htie⟩ | ⟨hR, hhalf, htie⟩ <;> rw [hR]
  · rcases hk with hk | rfl | rfl | hk <;> omega
  · rcases hk with hk | rfl | rfl | hk <;> omega

/-! ### The unit of the rounding -/

/-- The number of low bits that `roundBits m sh` drops: those that do not fit a significand of 24 bits, and at least those below
the smallest subnormal sample. -/
def roundDrop (m sh : Nat) : Nat := max (m.log2 + 1 - 24) sh

theorem roundBits_eq (m sh : Nat) :
    roundBits m sh = min ((roundDrop m sh - sh) * 2 ^ 23 + roundQuot m (2 ^ roundDrop m sh)) 0x7F800000 := rfl

theorem roundBits_lt (m sh : Nat) : roundBits m sh < 2 ^ 31 := (Nat.min_le_right _ _).trans_lt (by decide)

/-- The significand has at most 24 bits, and exactly 24 unless the sample is subnormal or has the smallest exponent. -/
theorem roundDrop_spec (m sh : Nat) :
    ∃ e, roundDrop m sh = sh + e ∧ m < 2 ^ 24 * 2 ^ (sh + e) ∧ (e = 0 ∨ 2 ^ 23 * 2 ^ (sh + e) ≤ m) := by
  refine ⟨roundDrop m sh - sh, ?_⟩
  have hle : sh ≤ roundDrop m sh := Nat.le_max_right _ _
  rw [Nat.add_sub_cancel' hle]
  refine ⟨rfl, ?_, ?_⟩
  · calc m < 2 ^ (m.log2 + 1) := Nat.lt_log2_self
      _ ≤ 2 ^ (24 + roundDrop m sh) := Nat.pow_le_pow_right (by decide) (by unfold roundDrop; omega)
      _ = 2 ^ 24 * 2 ^ roundDrop m sh := Nat.pow_add ..
  · rcases Nat.eq_or_lt_of_le hle with heq | hlt
    · exact .inl (by omega)
    · right
      have hdrop : 23 + roundDrop m sh = m.log2 := by unfold roundDrop at hlt ⊢; omega
      have hm : m ≠ 0 := by
        rintro rfl
        simp at hdrop
      rw [← Nat.pow_add, hdrop]
      exact Nat.log2_self_le hm

/-- The rounded significand: at most `2^24`, and at least `2^23` unless the sample is subnormal. -/
theorem roundQuot_bounds {m sh e : Nat} (hm : m < 2 ^ 24 * 2 ^ (sh + e)) (he : e = 0 ∨ 2 ^ 23 * 2 ^ (sh + e) ≤ m) :
    roundQuot m (2 ^ (sh + e)) ≤ 2 ^ 24 ∧ (e = 0 ∨ 2 ^ 23 ≤ roundQuot m (2 ^ (sh + e))) :=
  ⟨roundQuot_le hm, he.imp_right (le_roundQuot (Nat.two_pow_pos _))⟩

/-! ### The rounded sample -/

/-- The largest finite magnitude is `(2^24 - 1) * 2^253`; the threshold lies half a unit of that place above it. -/
theorem overflow_threshold : 2 ^ 277 - 2 ^ 252 = (2 ^ 25 - 1) * 2 ^ 252 := by
  rw [Nat.sub_mul, ← Nat.pow_add, Nat.one_mul]

/-- A rounded sample is finite exactly when the magnitude lies below the overflow threshold. -/
theorem isFinite_round (s : Bool) (m sh : Nat) :
    isFinite (packSample s (roundBits m sh)) = true ↔ m < (2 ^ 277 - 2 ^ 252) * 2 ^ sh := by
  obtain ⟨e, hdrop, hm, he⟩ := roundDrop_spec m sh
  obtain ⟨hle, hge⟩ := roundQuot_bounds hm he
  rw [isFinite_packSample s (roundBits_lt m sh), roundBits_eq, hdrop, Nat.add_sub_cancel_left, overflow_threshold]
  have hunit : ∀ a k, a * 2 ^ k * 2 ^ sh = a * 2 ^ (sh + k) := fun a k => by rw [Nat.pow_add]; ring
  rw [hunit]
  rcases Nat.lt_trichotomy e 253 with hlt | rfl | hgt
  · have hpow : 2 ^ (sh + e) ≤ 2 ^ (sh + 252) := Nat.pow_le_pow_right (by decide) (by omega)
    omega
  · have hiff := roundQuot_le_iff (m := m) (n := 2 ^ 24 - 1) (Nat.two_pow_pos (sh + 253)) (by decide)
    have hpow : 2 ^ (sh + 253) = 2 ^ (sh + 252) * 2 := Nat.pow_succ ..
    omega
  · have hpow : 2 ^ (sh + 254) ≤ 2 ^ (sh + e) := Nat.pow_le_pow_right (by decide) (by omega)
    have hpow' : 2 ^ (sh + 254) = 2 ^ (sh + 252) * 4 := Nat.pow_add 2 (sh + 252) 2
    have hpos : 0 < 2 ^ (sh + 252) := Nat.two_pow_pos _
    omega

/-- A finite rounded sample is the rounded quotient at the unit of the rounding, and its fraction has the quotient's parity. -/
theorem magnitude_round {s : Bool} {m sh e : Nat} {r : Word} (hr : r = packSample s (roundBits m sh))
    (hfin : isFinite r = true) (hdrop : roundDrop m sh = sh + e) (hle : roundQuot m (2 ^ (sh + e)) ≤ 2 ^ 24)
    (hge : e = 0 ∨ 2 ^ 23 ≤ roundQuot m (2 ^ (sh + e))) :
    magnitude r * 2 ^ sh = roundQuot m (2 ^ (sh + e)) * 2 ^ (sh + e) ∧
      fracField r % 2 = roundQuot m (2 ^ (sh + e)) % 2 := by
  subst hr
  have hbits : roundBits m sh = e * 2 ^ 23 + roundQuot m (2 ^ (sh + e)) := by
    rw [isFinite_packSample s (roundBits_lt m sh)] at hfin
    rw [roundBits_eq, hdrop, Nat.add_sub_cancel_left] at hfin ⊢
    omega
  have hb := hbits ▸ roundBits_lt m sh
  rw [hbits, magnitude_packSample s hle hge hb, fracField_packSample s hb]
  refine ⟨?_, by omega⟩
  rw [Nat.pow_add 2 sh e]
  ring

/-- No sample's magnitude is nearer to `m * 2^-sh` than that of the rounded sample, and another is as near only if the fraction
of the rounded sample is even. -/
theorem magnitude_round_nearest {s : Bool} {m sh : Nat} {r : Word} (hr : r = packSample s (roundBits m sh))
    (hfin : isFinite r = true) (c : Word) :
    (((magnitude r * 2 ^ sh : Nat) : Int) - m).natAbs ≤ (((magnitude c * 2 ^ sh : Nat) : Int) - m).natAbs ∧
      ((((magnitude r * 2 ^ sh : Nat) : Int) - m).natAbs = (((magnitude c * 2 ^ sh : Nat) : Int) - m).natAbs →
        magnitude c ≠ magnitude r → fracField r % 2 = 0) := by
  obtain ⟨e, hdrop, hm, he⟩ := roundDrop_spec m sh
  obtain ⟨hle, hge⟩ := roundQuot_bounds hm he
  obtain ⟨hmag, hfrac⟩ := magnitude_round hr hfin hdrop hle hge
  have hpos : 0 < 2 ^ (sh + e) := Nat.two_pow_pos _
  rw [hmag, hfrac]
  by_cases hdvd : 2 ^ e ∣ magnitude c
  · -- `c` is a multiple of the unit of the rounding
    obtain ⟨k, hk⟩ := hdvd
    have hc : magnitude c * 2 ^ sh = k * 2 ^ (sh + e) := by rw [hk, Nat.pow_add]; ring
    rw [hc]
    obtain ⟨hnear, heven⟩ := roundQuot_nearest m k hpos
    refine ⟨hnear, fun htie hne => heven htie ?_⟩
    rintro rfl
    exact hne (Nat.eq_of_mul_eq_mul_right (Nat.two_pow_pos sh) (hc.trans hmag.symm))
  · -- `c` lies below the binade of `m`, so the multiple `2^23` of the unit lies between them
    have hlow : magnitude c * 2 ^ sh < 2 ^ 23 * 2 ^ (sh + e) := by
      rw [Nat.pow_add, Nat.mul_comm (2 ^ sh), ← Nat.mul_assoc]
      exact Nat.mul_lt_mul_of_pos_right ((magnitude_lt_or_dvd c e).resolve_right hdvd) (Nat.two_pow_pos sh)
    have hm' : 2 ^ 23 * 2 ^ (sh + e) ≤ m := he.resolve_left (by rintro rfl; exact hdvd (one_dvd _))
    have hnear := (roundQuot_nearest m (2 ^ 23) hpos).1
    omega

theorem natAbs_sub_of_same_sign (s : Bool) (a m : Nat) :
    ((if s then -(a : Int) else a) - (if s then -(m : Int) else m)).natAbs = ((a : Int) - m).natAbs := by
  split <;> omega

theorem natAbs_sub_of_opposite_sign {s t : Bool} (h : t ≠ s) (a m : Nat) :
    ((if t then -(a : Int) else a) - (if s then -(m : Int) else m)).natAbs = a + m := by
  obtain rfl := Bool.eq_not_of_ne h
  cases s <;> simp only [Bool.not_false, Bool.not_true, if_true, Bool.false_eq_true, if_false] <;> omega

/-- Rounding a signed value to nearest, ties to even: no sample is nearer to the exact value than the rounded one, and one with
another value is as near only if the fraction of the rounded one is even. -/
theorem exactValue_round_nearest {s : Bool} {m sh : Nat} {r : Word} (hr : r = packSample s (roundBits m sh))
    (hfin : isFinite r = true) {x : Int} (hx : x = if s then -(m : Int) else m) (c : Word) :
    (exactValue r * 2 ^ sh - x).natAbs ≤ (exactValue c * 2 ^ sh - x).natAbs ∧
      ((exactValue r * 2 ^ sh - x).natAbs = (exactValue c * 2 ^ sh - x).natAbs → exactValue c ≠ exactValue r →
        fracField r % 2 = 0) := by
  obtain ⟨hnear, heven⟩ := magnitude_round_nearest hr hfin c
  have hzero := (magnitude_round_nearest hr hfin zeroSample).1
  have hneg : isNegative r = s := hr ▸ isNegative_packSample s (roundBits_lt m sh)
  rw [exactValue_mul_two_pow, exactValue_mul_two_pow, hneg, hx, natAbs_sub_of_same_sign]
  by_cases hsign : isNegative c = s
  · -- on the side of `x` the distances are those of the magnitudes
    rw [hsign, natAbs_sub_of_same_sign]
    refine ⟨hnear, fun htie hne => heven htie fun hmag => hne ?_⟩
    rw [exactValue, exactValue, hsign, hneg, hmag]
  · -- on the other side `c` is at least as far as its opposite, and as near as `r` only if that is
    rw [natAbs_sub_of_opposite_sign hsign]
    refine ⟨by omega, fun htie hne => heven (by omega) fun hmag => hne ?_⟩
    rw [magnitude_zeroSample] at hzero
    rw [hmag] at htie
    have hr0 : magnitude r = 0 := (Nat.mul_eq_zero.1 (by omega)).resolve_right (Nat.two_pow_pos sh).ne'
    rw [exactValue, exactValue, hmag, hr0]
    simp

end Sys2Proof.Machine
end

