-- ==== Sys2Proof/Proofs/Arithmetic.lean ====
section
/-! `fadd` and `fmul` are correctly rounded; `fsub` adds the opposite; no operation makes a finite sample of one that is not
(rules R12, R13). -/
namespace Sys2Proof.Machine

/-- The sign of a sum: that of the exact value, and of an exact zero `-` only when both operands are negative. -/
def sumSign (a b : Word) : Bool :=
  if exactValue a + exactValue b = 0 then isNegative a && isNegative b else decide (exactValue a + exactValue b < 0)

/-- Every sum is rounded by one rule, since zero rounds to zero. -/
theorem fadd_eq_round {a b : Word} (ha : isFinite a = true) (hb : isFinite b = true) :
    fadd a b = packSample (sumSign a b) (roundBits (exactValue a + exactValue b).natAbs 0) := by
  rw [fadd, ha, hb, sumSign]
  by_cases hx : exactValue a + exactValue b = 0
  · simp [hx, show roundBits 0 0 = 0 by decide]
  · simp [hx]

theorem sumSign_spec (a b : Word) : exactValue a + exactValue b =
    if sumSign a b then -((exactValue a + exactValue b).natAbs : Int) else (exactValue a + exactValue b).natAbs := by
  rw [sumSign]
  by_cases hx : exactValue a + exactValue b = 0
  · simp [hx]
  · simp only [if_neg hx, decide_eq_true_eq]
    split <;> omega

theorem fmul_eq_round {a b : Word} (ha : isFinite a = true) (hb : isFinite b = true) :
    fmul a b = packSample (xor (isNegative a) (isNegative b)) (roundBits (magnitude a * magnitude b) 149) := by
  rw [fmul, ha, hb]
  rfl

theorem exactValue_mul (a b : Word) : exactValue a * exactValue b =
    if xor (isNegative a) (isNegative b) then -((magnitude a * magnitude b : Nat) : Int)
    else (magnitude a * magnitude b : Nat) := by
  rw [exactValue, exactValue]
  cases isNegative a <;> cases isNegative b <;> simp

/-- Settles O42: a sum is its exact value rounded by `roundBits` at the unit of the samples. -/
theorem faddIsCorrectlyRounded : Obligations.FaddIsCorrectlyRounded := by
  unfold Obligations.FaddIsCorrectlyRounded
  intro a b ha hb x r
  have hr : r = packSample (sumSign a b) (roundBits x.natAbs 0) := fadd_eq_round ha hb
  refine ⟨?_, ?_, ?_, ?_⟩
  · rw [hr, isFinite_round, Nat.pow_zero, Nat.mul_one]
  · intro hx
    rw [hr, sumSign, if_pos hx, hx]
    cases isNegative a && isNegative b <;> decide
  · intro hx
    rw [hr, isNegative_packSample _ (roundBits_lt _ _), sumSign, if_neg hx, decide_eq_true_iff]
  · intro hfin c _
    simpa using exactValue_round_nearest hr hfin (sumSign_spec a b) c

/-- Settles O43: a product is its exact value, in units of `2^-298`, rounded by `roundBits` 149 places up. -/
theorem fmulIsCorrectlyRounded : Obligations.FmulIsCorrectlyRounded := by
  unfold Obligations.FmulIsCorrectlyRounded
  intro a b ha hb x r
  have hr : r = packSample (xor (isNegative a) (isNegative b)) (roundBits (magnitude a * magnitude b) 149) :=
    fmul_eq_round ha hb
  have hx : x.natAbs = magnitude a * magnitude b := by
    rw [Int.natAbs_mul, natAbs_exactValue, natAbs_exactValue]
  refine ⟨?_, ?_, ?_⟩
  · rw [hr, isFinite_round, hx]
  · rw [hr, isNegative_packSample _ (roundBits_lt _ _)]
  · intro hfin c _
    exact exactValue_round_nearest hr hfin (exactValue_mul a b) c

/-! ### The opposite sample -/

theorem fneg_low_lt (a : Word) : a.toNat % 2 ^ 31 < 2 ^ 31 := Nat.mod_lt _ (Nat.two_pow_pos 31)

theorem isNegative_fneg (a : Word) : isNegative (fneg a) = !isNegative a := isNegative_packSample _ (fneg_low_lt a)

theorem expField_fneg (a : Word) : expField (fneg a) = expField a := by
  rw [fneg, expField_packSample _ (fneg_low_lt a), expField]
  omega

theorem fracField_fneg (a : Word) : fracField (fneg a) = fracField a := by
  rw [fneg, fracField_packSample _ (fneg_low_lt a), fracField]
  omega

theorem isFinite_fneg (a : Word) : isFinite (fneg a) = isFinite a := by rw [isFinite, isFinite, expField_fneg]

theorem magnitude_fneg (a : Word) : magnitude (fneg a) = magnitude a := by
  rw [magnitude, magnitude, expField_fneg, fracField_fneg]

theorem exactValue_fneg (a : Word) : exactValue (fneg a) = -exactValue a := by
  rw [exactValue, exactValue, isNegative_fneg, magnitude_fneg]
  cases isNegative a <;> simp

/-! ### Operands of finite results -/

theorem isFinite_notFinite : isFinite notFinite = false := by decide

theorem finite_of_fadd {a b : Word} (h : isFinite (fadd a b) = true) : isFinite a = true ∧ isFinite b = true := by
  rw [← Bool.and_eq_true]
  by_contra hab
  rw [fadd, if_neg hab, isFinite_notFinite] at h
  exact Bool.false_ne_true h

theorem finite_of_fsub {a b : Word} (h : isFinite (fsub a b) = true) : isFinite a = true ∧ isFinite b = true :=
  isFinite_fneg b ▸ finite_of_fadd h

theorem finite_of_fmul {a b : Word} (h : isFinite (fmul a b) = true) : isFinite a = true ∧ isFinite b = true := by
  rw [← Bool.and_eq_true]
  by_contra hab
  rw [fmul, if_neg hab, isFinite_notFinite] at h
  exact Bool.false_ne_true h

/-- Settles O44: `fneg` changes the sign only, and a finite result has finite operands. -/
theorem operationsPropagateNonFinite : Obligations.OperationsPropagateNonFinite := by
  unfold Obligations.OperationsPropagateNonFinite
  refine ⟨fun a b hb => ⟨rfl, exactValue_fneg b, (isFinite_fneg b).trans hb, isNegative_fneg b⟩, fun a b hab => ?_⟩
  have hnot : ¬ (isFinite a = true ∧ isFinite b = true) := by
    rcases hab with h | h <;> simp [h]
  simp only [← Bool.not_eq_true]
  exact ⟨fun h => hnot (finite_of_fadd h), fun h => hnot (finite_of_fsub h), fun h => hnot (finite_of_fmul h)⟩

end Sys2Proof.Machine
end

