-- ==== Sys2Proof/Proofs/FiniteTransform.lean ====
section
/-! A finite result of a transform has finite samples everywhere inside (rule R13; notes/assumptions/7.md): read backwards through
the steps of rules R164, R165 and R167, a finite result has finite operands. -/
namespace Sys2Proof.Machine
open Sys2Proof.Stated

/-- A vector is finite if its samples are, index by index. -/
theorem allFinite_of_getD {v : List Word} (h : ∀ j < v.length, isFinite (v.getD j zeroSample) = true) : allFinite v = true := by
  rw [eq_vec v zeroSample]
  exact allFinite_vec h

theorem isFinite_of_allFinite_vec {n : Nat} {f : Nat → Word} (h : allFinite (vec n f) = true) {j : Nat} (hj : j < n) :
    isFinite (f j) = true :=
  (allFinite_iff _).1 h _ (mem_vec.2 ⟨j, hj, rfl⟩)

/-! ### The forward recursion (rule R164) -/

/-- The sums `x[j] + x[L-1-j]` that one nested forward recursion is applied to. -/
def foldSums (d : Nat) (x : List Word) : List Word :=
  vec (2 ^ (d + 1)) fun j => fadd (x.getD j zeroSample) (x.getD (2 ^ (d + 2) - 1 - j) zeroSample)

/-- The weighted differences that the other is applied to. -/
def foldDifferences (c : Config) (d : Nat) (x : List Word) : List Word :=
  vec (2 ^ (d + 1)) fun j =>
    fmul (fsub (x.getD j zeroSample) (x.getD (2 ^ (d + 2) - 1 - j) zeroSample)) (kConst c (2 ^ (d + 2)) j)

/-- The results of the two nested recursions, interleaved. -/
def interleave (d : Nat) (s t : List Word) : List Word :=
  vec (2 ^ (d + 2)) fun i =>
    if i % 2 = 0 then s.getD (i / 2) zeroSample
    else if i / 2 + 1 < 2 ^ (d + 1) then fadd (t.getD (i / 2) zeroSample) (t.getD (i / 2 + 1) zeroSample)
    else t.getD (i / 2) zeroSample

theorem fwdRec_succ (c : Config) (d : Nat) (x : List Word) : fwdRec (binary32 c) (d + 1) x =
    interleave d (fwdRec (binary32 c) d (foldSums d x)) (fwdRec (binary32 c) d (foldDifferences c d x)) := rfl

theorem fwdValues_succ (c : Config) (d : Nat) (x : List Word) : fwdValues (binary32 c) (d + 1) x =
    x :: fwdRec (binary32 c) (d + 1) x ::
      (fwdValues (binary32 c) d (foldSums d x) ++ fwdValues (binary32 c) d (foldDifferences c d x)) := rfl

theorem finite_of_interleave {d : Nat} {s t : List Word} (hs : s.length = 2 ^ (d + 1)) (ht : t.length = 2 ^ (d + 1))
    (h : allFinite (interleave d s t) = true) : allFinite s = true ∧ allFinite t = true := by
  have hpow : 2 ^ (d + 2) = 2 ^ (d + 1) * 2 := Nat.pow_succ ..
  constructor
  · refine allFinite_of_getD fun j hj => ?_
    have hout := isFinite_of_allFinite_vec h (j := 2 * j) (by omega)
    rwa [if_pos (by omega), Nat.mul_div_cancel_left _ (by decide)] at hout
  · refine allFinite_of_getD fun j hj => ?_
    have hout := isFinite_of_allFinite_vec h (j := 2 * j + 1) (by omega)
    rw [if_neg (by omega), show (2 * j + 1) / 2 = j by omega] at hout
    split at hout
    · exact (finite_of_fadd hout).1
    · exact hout

theorem finite_of_foldSums {d : Nat} {x : List Word} (hx : x.length = 2 ^ (d + 2)) (h : allFinite (foldSums d x) = true) :
    allFinite x = true := by
  have hpow : 2 ^ (d + 2) = 2 ^ (d + 1) * 2 := Nat.pow_succ ..
  refine allFinite_of_getD fun j hj => ?_
  rcases Nat.lt_or_ge j (2 ^ (d + 1)) with hlow | hhigh
  · exact (finite_of_fadd (isFinite_of_allFinite_vec h hlow)).1
  · have hsum := isFinite_of_allFinite_vec h (j := 2 ^ (d + 2) - 1 - j) (by omega)
    rw [show 2 ^ (d + 2) - 1 - (2 ^ (d + 2) - 1 - j) = j by omega] at hsum
    exact (finite_of_fadd hsum).2

theorem finite_nested_of_fwdRec {c : Config} {d : Nat} {x : List Word}
    (h : allFinite (fwdRec (binary32 c) (d + 1) x) = true) :
    allFinite (fwdRec (binary32 c) d (foldSums d x)) = true ∧
      allFinite (fwdRec (binary32 c) d (foldDifferences c d x)) = true :=
  finite_of_interleave (length_fwdRec ..) (length_fwdRec ..) (fwdRec_succ c d x ▸ h)

/-- A finite result of a forward recursion has a finite input. -/
theorem finite_of_fwdRec {c : Config} {d : Nat} {x : List Word} (hx : x.length = 2 ^ (d + 1))
    (h : allFinite (fwdRec (binary32 c) d x) = true) : allFinite x = true := by
  induction d generalizing x with
  | zero =>
    have hsum : isFinite (fadd (x.getD 0 zeroSample) (x.getD 1 zeroSample)) = true := (allFinite_iff _).1 h _ List.mem_cons_self
    obtain ⟨h0, h1⟩ := finite_of_fadd hsum
    refine allFinite_of_getD fun j hj => ?_
    obtain rfl | rfl : j = 0 ∨ j = 1 := by omega
    · exact h0
    · exact h1
  | succ d ih => exact finite_of_foldSums hx (ih (length_vec ..) (finite_nested_of_fwdRec h).1)

/-- A finite result of a forward recursion has finite vectors in all the recursions nested in it. -/
theorem finite_fwdValues {c : Config} {d : Nat} {x : List Word} (hx : x.length = 2 ^ (d + 1))
    (h : allFinite (fwdRec (binary32 c) d x) = true) : ∀ v ∈ fwdValues (binary32 c) d x, allFinite v = true := by
  have hin := finite_of_fwdRec hx h
  induction d generalizing x with
  | zero =>
    rw [fwdValues, List.forall_mem_cons, List.forall_mem_singleton]
    exact ⟨hin, h⟩
  | succ d ih =>
    obtain ⟨hs, ht⟩ := finite_nested_of_fwdRec h
    rw [fwdValues_succ, List.forall_mem_cons, List.forall_mem_cons, List.forall_mem_append]
    exact ⟨hin, h, ih (length_vec ..) hs (finite_of_fwdRec (length_vec ..) hs),
      ih (length_vec ..) ht (finite_of_fwdRec (length_vec ..) ht)⟩

/-- A finite scaled output has a finite unscaled one (rule R165). -/
theorem finite_of_postScale {c : Config} {n : Nat} {x : List Word} (hx : x.length = n)
    (h : allFinite (postScale (binary32 c) n x) = true) : allFinite x = true := by
  refine allFinite_of_getD fun j hj => ?_
  have hout := (finite_of_fmul (isFinite_of_allFinite_vec h (hx ▸ hj))).1
  split at hout
  · next h0 => exact h0 ▸ (finite_of_fmul hout).1
  · exact hout

/-! ### The inverse recursion (rule R167) -/

/-- The elements at even indices, which one nested inverse recursion is applied to. -/
def evenElements (d : Nat) (y : List Word) : List Word := vec (2 ^ (d + 1)) fun j => y.getD (2 * j) zeroSample

/-- The sums of neighbours at odd indices, which the other is applied to. -/
def oddSums (d : Nat) (y : List Word) : List Word :=
  vec (2 ^ (d + 1)) fun j =>
    if j = 0 then y.getD 1 zeroSample else fadd (y.getD (2 * j - 1) zeroSample) (y.getD (2 * j + 1) zeroSample)

/-- The results of the two nested recursions, combined by the weights `K`. -/
def unfoldHalves (c : Config) (d : Nat) (s t : List Word) : List Word :=
  vec (2 ^ (d + 2)) fun i =>
    if i < 2 ^ (d + 1) then fadd (s.getD i zeroSample) (fmul (t.getD i zeroSample) (kConst c (2 ^ (d + 2)) i))
    else fsub (s.getD (2 ^ (d + 2) - 1 - i) zeroSample)
      (fmul (t.getD (2 ^ (d + 2) - 1 - i) zeroSample) (kConst c (2 ^ (d + 2)) (2 ^ (d + 2) - 1 - i)))

theorem invRec_succ (c : Config) (d : Nat) (y : List Word) : invRec (binary32 c) (d + 1) y =
    unfoldHalves c d (invRec (binary32 c) d (evenElements d y)) (invRec (binary32 c) d (oddSums d y)) := rfl

theorem invValues_succ (c : Config) (d : Nat) (y : List Word) : invValues (binary32 c) (d + 1) y =
    y :: invRec (binary32 c) (d + 1) y ::
      (invValues (binary32 c) d (evenElements d y) ++ invValues (binary32 c) d (oddSums d y)) := rfl

theorem finite_of_unfoldHalves {c : Config} {d : Nat} {s t : List Word} (hs : s.length = 2 ^ (d + 1))
    (ht : t.length = 2 ^ (d + 1)) (h : allFinite (unfoldHalves c d s t) = true) : allFinite s = true ∧ allFinite t = true := by
  have hpow : 2 ^ (d + 2) = 2 ^ (d + 1) * 2 := Nat.pow_succ ..
  have hout : ∀ j < 2 ^ (d + 1), isFinite (s.getD j zeroSample) = true ∧ isFinite (t.getD j zeroSample) = true := by
    intro j hj
    have hsum := isFinite_of_allFinite_vec h (j := j) (by omega)
    rw [if_pos hj] at hsum
    obtain ⟨hsj, hprod⟩ := finite_of_fadd hsum
    exact ⟨hsj, (finite_of_fmul hprod).1⟩
  exact ⟨allFinite_of_getD fun j hj => (hout j (hs ▸ hj)).1, allFinite_of_getD fun j hj => (hout j (ht ▸ hj)).2⟩

theorem finite_of_evenElements_of_oddSums {d : Nat} {y : List Word} (hy : y.length = 2 ^ (d + 2))
    (heven : allFinite (evenElements d y) = true) (hodd : allFinite (oddSums d y) = true) : allFinite y = true := by
  have hpow : 2 ^ (d + 2) = 2 ^ (d + 1) * 2 := Nat.pow_succ ..
  refine allFinite_of_getD fun i hi => ?_
  obtain ⟨j, rfl | rfl⟩ := Nat.even_or_odd' i
  · exact isFinite_of_allFinite_vec heven (by omega)
  · have hsum := isFinite_of_allFinite_vec hodd (j := j) (by omega)
    split at hsum
    · next h0 => exact h0 ▸ hsum
    · exact (finite_of_fadd hsum).2

theorem finite_nested_of_invRec {c : Config} {d : Nat} {y : List Word}
    (h : allFinite (invRec (binary32 c) (d + 1) y) = true) :
    allFinite (invRec (binary32 c) d (evenElements d y)) = true ∧ allFinite (invRec (binary32 c) d (oddSums d y)) = true :=
  finite_of_unfoldHalves (length_invRec ..) (length_invRec ..) (invRec_succ c d y ▸ h)

/-- A finite result of an inverse recursion has a finite input. -/
theorem finite_of_invRec {c : Config} {d : Nat} {y : List Word} (hy : y.length = 2 ^ (d + 1))
    (h : allFinite (invRec (binary32 c) d y) = true) : allFinite y = true := by
  induction d generalizing y with
  | zero =>
    have hsum : isFinite (fadd (y.getD 0 zeroSample) (fmul (y.getD 1 zeroSample) (kConst c 2 0))) = true :=
      (allFinite_iff _).1 h _ List.mem_cons_self
    obtain ⟨h0, hprod⟩ := finite_of_fadd hsum
    refine allFinite_of_getD fun j hj => ?_
    obtain rfl | rfl : j = 0 ∨ j = 1 := by omega
    · exact h0
    · exact (finite_of_fmul hprod).1
  | succ d ih =>
    obtain ⟨hs, ht⟩ := finite_nested_of_invRec h
    exact finite_of_evenElements_of_oddSums hy (ih (length_vec ..) hs) (ih (length_vec ..) ht)

/-- A finite result of an inverse recursion has finite vectors in all the recursions nested in it. -/
theorem finite_invValues {c : Config} {d : Nat} {y : List Word} (hy : y.length = 2 ^ (d + 1))
    (h : allFinite (invRec (binary32 c) d y) = true) : ∀ v ∈ invValues (binary32 c) d y, allFinite v = true := by
  have hin := finite_of_invRec hy h
  induction d generalizing y with
  | zero =>
    rw [invValues, List.forall_mem_cons, List.forall_mem_singleton]
    exact ⟨hin, h⟩
  | succ d ih =>
    obtain ⟨hs, ht⟩ := finite_nested_of_invRec h
    rw [invValues_succ, List.forall_mem_cons, List.forall_mem_cons, List.forall_mem_append]
    exact ⟨hin, h, ih (length_vec ..) hs (finite_of_invRec (length_vec ..) hs),
      ih (length_vec ..) ht (finite_of_invRec (length_vec ..) ht)⟩

/-- Settles O45: each clause read backwards, from a finite result to finite operands. -/
theorem nonFiniteReachesTheOutput : Obligations.NonFiniteReachesTheOutput := by
  unfold Obligations.NonFiniteReachesTheOutput
  intro c d x hx N n
  rw [dctForward_two_pow, dctInverse_two_pow]
  have hscale := finite_of_postScale (c := c) (length_fwdRec (binary32 c) d x)
  simp only [← Bool.not_eq_true]
  exact ⟨fun h => ⟨fun hf => h (finite_of_fwdRec hx hf), fun hf => h (finite_of_invRec hx hf)⟩,
    fun h hf => h (hscale hf),
    fun v hv h hf => h (finite_fwdValues hx (hscale hf) v hv),
    fun v hv h hf => h (finite_invValues hx hf v hv)⟩

end Sys2Proof.Machine
end

