-- ==== Sys2Proof/Proofs/Invariant.lean ====
section
/-! The invariant of 10_state.md is kept: first what each update of the state asks for, then that each command's updates meet it,
then the host's other actions. -/
namespace Sys2Proof.Machine

/-! ### Updates of the state -/

theorem statusOk_statusWord {code chan : BitVec 8} (hcode : code.toNat ≤ 6) (hchan : chan = 0#8 ∨ code = innerCode) :
    statusOk (statusWord code chan) = true := by
  simp [statusOk, statusCode_statusWord, statusChan_statusWord, statusHigh_statusWord, hcode, hchan]

theorem Err.toNat_code_le (e : Err) : e.code.toNat ≤ 6 := by cases e <;> decide

/-- What a `CONFIGURED` slot holds is as its rules allow it, and its index is below the number of slots. -/
theorem SlotsInv.of_configured {α : Type} [DecidableEq α] {n : Nat} {p : α → Bool} {m : Cells (Slot α)} (h : SlotsInv n p m)
    {k : Nat} {x : α} (hx : Cells.get .unconfigured m k = .configured x) : k < n ∧ p x = true := by
  obtain ⟨hall, hlt⟩ := h.2 k
  rw [hx] at hall hlt
  exact ⟨hlt nofun, hall⟩

namespace State.Inv

variable {s : State}

theorem dctSlots (h : s.Inv) : SlotsInv s.cfg.ninst (DctInst.ok s.cfg) s.dct := (slotsInv_iff _ _ _).1 ⟨h.dct, h.dctOk⟩

theorem mdctSlots (h : s.Inv) : SlotsInv s.cfg.ninst (MdctInst.ok s.cfg) s.mdct :=
  (slotsInv_iff _ _ _).1 ⟨h.mdct, h.mdctOk⟩

theorem olaSlots (h : s.Inv) : SlotsInv s.cfg.ninst (OlaInst.ok s.cfg) s.ola := (slotsInv_iff _ _ _).1 ⟨h.ola, h.olaOk⟩

theorem ip_wf (h : s.Inv) : s.ip.wf := ⟨h.ipSeg, h.ipOla⟩

theorem setStatus (h : s.Inv) {w : Word} (hw : statusOk w = true) : (s.setStatus w).Inv := { h with status := hw }

theorem setMsg (h : s.Inv) (w : Word) : (s.setMsg w).Inv := { h with }

theorem setDiag (h : s.Inv) (w : Word) : (s.setDiag w).Inv := { h with }

theorem setOps (h : s.Inv) (o : OpRegs) : (s.setOps o).Inv := { h with }

theorem setPending (h : s.Inv) (l : List HostAction) : (s.setPending l).Inv := { h with }

theorem setRdata (h : s.Inv) (w : Word) : (s.setRdata w).Inv := { h with }

theorem setTick (h : s.Inv) (n : Nat) : (s.setTick n).Inv := { h with }

theorem setIp (h : s.Inv) {p : IPState} (hp : p.wf) : (s.setIp p).Inv := { h with ipSeg := hp.1, ipOla := hp.2 }

theorem setHm (h : s.Inv) {m : Memory} (hm : m.wf) (hr : ∀ p ∈ m, p.1 < s.cfg.hmsize) : (s.setHm m).Inv :=
  { h with hm := hm, hmRange := hr }

theorem memWrite (h : s.Inv) {a : Nat} {v : List HmWord} (hv : a + v.length ≤ s.cfg.hmsize) : (s.memWrite a v).Inv :=
  h.setHm (Memory.write_wf a v h.hm) (range_write h.hmRange (.inr hv))

theorem putDct (h : s.Inv) {i : InstNo} {x : DctInst} (hi : i.toNat < s.cfg.ninst) (hx : x.ok s.cfg = true) :
    (s.putDct i (.configured x)).Inv :=
  have hm := (slotsInv_iff _ _ _).2 (h.dctSlots.set (x := .configured x) hi hx)
  { h with dct := hm.1, dctOk := hm.2, dctLive := Live.set h.dctLive }

theorem putMdct (h : s.Inv) {i : InstNo} {x : MdctInst} (hi : i.toNat < s.cfg.ninst) (hx : x.ok s.cfg = true) :
    (s.putMdct i (.configured x)).Inv :=
  have hm := (slotsInv_iff _ _ _).2 (h.mdctSlots.set (x := .configured x) hi hx)
  { h with mdct := hm.1, mdctOk := hm.2, mdctLive := Live.set h.mdctLive }

theorem setOla (h : s.Inv) {m : Cells (Slot OlaInst)} (hm : SlotsInv s.cfg.ninst (OlaInst.ok s.cfg) m) : (s.setOla m).Inv :=
  have hm := (slotsInv_iff _ _ _).2 hm
  { h with ola := hm.1, olaOk := hm.2 }

theorem putOla (h : s.Inv) {i : InstNo} {x : Slot OlaInst} (hi : i.toNat < s.cfg.ninst)
    (hx : x.all (OlaInst.ok s.cfg) = true) : (s.putOla i x).Inv := h.setOla (h.olaSlots.set hi hx)

theorem setSeg (h : s.Inv) {x : Slot SegInst} (hx : x.all (SegInst.ok s.cfg) = true) : (s.setSeg x).Inv :=
  { h with seg := hx }

theorem complete (h : s.Inv) : s.complete.Inv := h.setStatus (statusOk_statusWord (by decide) (.inl rfl))

theorem raise (h : s.Inv) (e : Err) : (s.raise e).Inv := h.setStatus (statusOk_statusWord e.toNat_code_le (.inl rfl))

theorem raiseInner (h : s.Inv) (c : Nat) (d : Word) : (s.raiseInner c d).Inv :=
  (h.setStatus (statusOk_statusWord (by decide) (.inr rfl))).setDiag d

theorem issued (h : s.Inv) : s.issued.Inv := (h.setPending _).setTick _

end State.Inv

/-- A block with nothing configured meets the invariant when its parameters, HM and `IPState` do. -/
theorem State.inv_of_unconfigured {s : State} (hcfg : s.cfg.ok = true) (hstatus : s.status = 0) (hm : s.hm.wf)
    (hrange : ∀ p ∈ s.hm, p.1 < s.cfg.hmsize) (hdct : s.dct = []) (hmdct : s.mdct = []) (hola : s.ola = [])
    (hseg : s.seg = .unconfigured) (hip : s.ip.wf) : s.Inv where
  cfg := hcfg
  status := by rw [hstatus]; decide
  hm := hm
  hmRange := hrange
  dct := hdct ▸ ⟨.nil, nofun⟩
  dctOk := by simp [hdct, slotsOk]
  dctLive := by simp [hdct]
  mdct := hmdct ▸ ⟨.nil, nofun⟩
  mdctOk := by simp [hmdct, slotsOk]
  mdctLive := by simp [hmdct]
  ola := hola ▸ ⟨.nil, nofun⟩
  olaOk := by simp [hola, slotsOk]
  seg := by rw [hseg]; rfl
  ipSeg := hip.1
  ipOla := hip.2

theorem State.Inv.resetBlock {s : State} (h : s.Inv) : s.resetBlock.Inv :=
  State.inv_of_unconfigured h.cfg rfl h.hm h.hmRange rfl rfl rfl rfl h.ip_wf

/-- Settles O40: nothing is configured, and HM and `IPState` list no entry. -/
theorem invariantAtReset : Obligations.InvariantAtReset := by
  unfold Obligations.InvariantAtReset
  exact State.inv_of_unconfigured (by decide) rfl ⟨.nil, nofun⟩ nofun rfl rfl rfl rfl ⟨⟨.nil, nofun⟩, ⟨.nil, nofun⟩⟩

/-! ### Samples under U1 -/

/-- A buffer that a command settles is finite unless it comes under U1. -/
theorem taint_or_finite_settle {ok : Bool} {v : List Word} (tick : Nat) (u : FreeUse) (h : ok = true → allFinite v = true) :
    (!ok) = true ∨ allFinite (settle ok tick u v) = true := by
  cases ok
  · exact .inl rfl
  · exact .inr (h rfl)

/-! ### The commands of the transform units -/

/-- The two ranges of a transform command that end inside HM. -/
theorem ranges_in_hm {s : State} {m k : Nat} (h : mdctRangesOk s m k = true) :
    s.ptr0 + m ≤ s.cfg.hmsize ∧ s.ptr1 + k ≤ s.cfg.hmsize := by
  obtain ⟨h0, h1, -⟩ := (mdctRangesOk_iff s m k).1 h
  exact ⟨h0, h1⟩

theorem dctEffect_inv {s : State} {f : List Word → List Word} {n : Nat} (h : s.Inv) (hf : ∀ x, (f x).length = n)
    (hr : dctRangesOk s n = true) : (dctEffect f n s).Inv := by
  obtain ⟨hdata, hscratch⟩ := ranges_in_hm ((dctRangesOk_eq s n).symm.trans hr)
  unfold dctEffect
  refine ((h.memWrite ?_).memWrite ?_).complete
  · rwa [length_settleWords, hf]
  · rwa [length_freeWords]

theorem execDctCfg_inv {i : InstNo} {s t : State} (h : s.Inv) (hi : i.toNat < s.cfg.ninst)
    (he : execDctCfg i s = .next t) : t.Inv := by
  obtain ⟨hlen, rfl⟩ | ⟨-, rfl⟩ := execDctCfg_cases he
  · exact (h.putDct (x := { n := s.len }) hi hlen).complete
  · exact h.raise _

theorem dctProcess_inv {f : Nat → List Word → List Word} {i : InstNo} {s t : State} (h : s.Inv)
    (hf : ∀ n, (∃ d, n = 2 ^ (d + 1)) → ∀ x, (f n x).length = n) (he : dctProcess f i s = .next t) : t.Inv := by
  obtain ⟨d, hd, hr, rfl⟩ | ⟨d, -, -, rfl⟩ | ⟨-, rfl⟩ := dctProcess_cases he
  · have hlen : dctLengthOk s.cfg d.n = true := (h.dctSlots.of_configured hd).2
    obtain ⟨hpow, htwo, -⟩ := (dctLengthOk_iff s.cfg d.n).1 hlen
    exact dctEffect_inv h (hf d.n (isPow2_succ ((isPow2_iff d.n).2 hpow) htwo)) hr
  · exact h.raise _
  · exact h.raise _

theorem mdctInst_ok_iff (c : Config) (m : MdctInst) : m.ok c = true ↔ blockSizeOk c m.b = true ∧ m.dctBuf.length = m.b ∧
    m.idctBuf.length = m.b ∧ (m.dctTaint = true ∨ allFinite m.dctBuf = true) ∧
      (m.idctTaint = true ∨ allFinite m.idctBuf = true) := by
  simp only [MdctInst.ok, Bool.and_eq_true, Bool.or_eq_true, beq_iff_eq, and_assoc]

theorem MdctInst.fresh_ok {c : Config} {b : Nat} (hb : blockSizeOk c b = true) : (MdctInst.fresh b).ok c = true := by
  rw [mdctInst_ok_iff]
  exact ⟨hb, by simp [MdctInst.fresh], by simp [MdctInst.fresh], .inr (allFinite_replicate_zero b),
    .inr (allFinite_replicate_zero b)⟩

theorem mdctFwdEffect_inv {i : InstNo} {m : MdctInst} {s : State} (h : s.Inv) (hm : s.mdctAt i = .configured m)
    (hr : mdctRangesOk s m.b (2 * m.b) = true) : (mdctFwdEffect i m s).Inv := by
  obtain ⟨hi, hok⟩ := h.mdctSlots.of_configured hm
  obtain ⟨hb, -, hidct, -, hcarry⟩ := (mdctInst_ok_iff _ _).1 hok
  obtain ⟨-, hout⟩ := ranges_in_hm hr
  unfold mdctFwdEffect
  refine ((h.putMdct hi ?_).memWrite ?_).complete
  · refine (mdctInst_ok_iff _ _).2 ⟨hb, by simp [State.memRead], hidct, taint_or_finite_settle _ _ fun hfin => ?_, hcarry⟩
    simp only [Bool.and_eq_true] at hfin
    exact hfin.1.2
  · rwa [length_settleWords, length_dctForward]

theorem mdctInvEffect_inv {i : InstNo} {m : MdctInst} {s : State} (h : s.Inv) (hm : s.mdctAt i = .configured m)
    (hr : mdctRangesOk s (2 * m.b) m.b = true) : (mdctInvEffect i m s).Inv := by
  obtain ⟨hi, hok⟩ := h.mdctSlots.of_configured hm
  obtain ⟨hb, hdct, -, hblock, -⟩ := (mdctInst_ok_iff _ _).1 hok
  obtain ⟨-, hout⟩ := ranges_in_hm hr
  unfold mdctInvEffect
  refine ((h.putMdct hi ?_).memWrite ?_).complete
  · refine (mdctInst_ok_iff _ _).2 ⟨hb, hdct, by simp [mdctCarry], hblock, taint_or_finite_settle _ _ fun hfin => ?_⟩
    simp only [Bool.and_eq_true] at hfin
    exact hfin.2
  · rwa [length_settleWords, mdctOut, length_vec]

theorem execMdctCfg_inv {i : InstNo} {s t : State} (h : s.Inv) (hi : i.toNat < s.cfg.ninst)
    (he : execMdctCfg i s = .next t) : t.Inv := by
  obtain ⟨hb, rfl⟩ | ⟨-, rfl⟩ := execMdctCfg_cases he
  · exact (h.putMdct hi (MdctInst.fresh_ok hb)).complete
  · exact h.raise _

theorem execMdctFwd_inv {i : InstNo} {s t : State} (h : s.Inv) (he : execMdctFwd i s = .next t) : t.Inv := by
  obtain ⟨m, hm, hr, rfl⟩ | ⟨m, -, -, rfl⟩ | ⟨-, rfl⟩ := execMdctFwd_cases he
  · exact mdctFwdEffect_inv h hm hr
  · exact h.raise _
  · exact h.raise _

theorem execMdctInv_inv {i : InstNo} {s t : State} (h : s.Inv) (he : execMdctInv i s = .next t) : t.Inv := by
  obtain ⟨m, hm, hr, rfl⟩ | ⟨m, -, -, rfl⟩ | ⟨-, rfl⟩ := execMdctInv_cases he
  · exact mdctInvEffect_inv h hm hr
  · exact h.raise _
  · exact h.raise _

/-! ### The commands of the wrappers -/

/-- A wrapper whose buffers come under U1 only has to have the lengths of rule R28. -/
theorem OlaInst.spoil_ok_of_sized {c : Config} {o : OlaInst} (hb : blockSizeOk c o.b = true) (hs : o.sized) (t i : Nat) :
    (o.spoil t i).ok c = true := (olaInst_ok_iff _ _).2 ⟨hb, o.sized_spoil t i hs, .inl rfl⟩

/-- The wrapper as `OLA.PROC` leaves it when it ends with `OK`. -/
theorem olaProcess_settled_ok {c : Config} {tick i : Nat} {env : Word} {o : OlaInst} {blk : List Word} {ok : Bool}
    {ip : IPState} (ho : o.ok c = true) (hl : blk.length = o.b) :
    ((olaProcess c tick i env o blk ok ip).o.settled (olaProcess c tick i env o blk ok ip).ok tick i).ok c = true := by
  obtain ⟨hb, hs, -⟩ := (olaInst_ok_iff c o).1 ho
  cases hok : (olaProcess c tick i env o blk ok ip).ok with
  | true => exact olaProcess_inst_ok ho hl (.inl hok)
  | false =>
    exact OlaInst.spoil_ok_of_sized ((olaProcess_same c tick i env o blk ok ip).1.symm ▸ hb)
      (olaProcess_sized c tick i env ok ip hs hl) tick i

theorem olaEffect_inv {i : InstNo} {o : OlaInst} {s : State} (h : s.Inv) (ho : s.olaAt i = .configured o)
    (hr : s.ptr0 + o.b ≤ s.cfg.hmsize) : (olaEffect i o s).Inv := by
  obtain ⟨hi, hok⟩ := h.olaSlots.of_configured ho
  have hblk : (s.memRead s.ptr0 o.b).length = o.b := Memory.length_read ..
  have hip : (olaProcess s.cfg s.tick i.toNat s.env o (s.memRead s.ptr0 o.b) true s.ip).ip.wf :=
    (olaProcess_ip ..).symm ▸ callPort_wf _ _ _ _ h.ip_wf
  unfold olaEffect
  dsimp only
  split
  · next diag hres =>
    have hfailed := olaProcess_inst_ok hok hblk (.inr ⟨diag, hres⟩)
    exact ((h.putOla (x := .faulted _) hi hfailed).setIp hip).raiseInner 0 diag
  · next msg _ =>
    refine ((((h.putOla (x := .configured _) hi (olaProcess_settled_ok hok hblk)).setIp hip).memWrite ?_).setMsg msg).complete
    rwa [length_settleWords, length_olaProcess]

theorem execOlaCfg_inv {i : InstNo} {pre post : Bool} {s t : State} (h : s.Inv) (hi : i.toNat < s.cfg.ninst)
    (he : execOlaCfg i pre post s = .next t) : t.Inv := by
  obtain ⟨hb, -, rfl⟩ | ⟨-, rfl⟩ | ⟨-, -, rfl⟩ := execOlaCfg_cases he
  · exact (h.putOla (x := .configured _) hi (OlaInst.fresh_ok hb s.tick i.toNat pre post (Memory.length_read ..))).complete
  · exact h.raise _
  · exact h.raise _

theorem execOlaProc_inv {i : InstNo} {s t : State} (h : s.Inv) (he : execOlaProc i s = .next t) : t.Inv := by
  obtain ⟨o, ho, hr, rfl⟩ | ⟨o, -, -, rfl⟩ | ⟨-, rfl⟩ := execOlaProc_cases he
  · exact olaEffect_inv h ho hr
  · exact h.raise _
  · exact h.raise _

/-! ### Construction of the segmenter -/

theorem chan_ok_iff (b : Nat) (ch : Chan) :
    ch.ok b = true ↔ ch.ovf.length = b ∧ ch.fill < b ∧ (ch.taint = true ∨ allFinite ch.ovf = true) := by
  simp only [Chan.ok, Bool.and_eq_true, Bool.or_eq_true, beq_iff_eq, decide_eq_true_eq, and_assoc]

theorem segInst_ok_iff (c : Config) (g : SegInst) : g.ok c = true ↔ segSizeOk c g.b g.c = true ∧ g.chans.length = g.c ∧
    (∀ ch ∈ g.chans, ch.ok g.b = true) ∧ (g.inner = .ext ∨ isPow2 g.b = true) := by
  simp only [SegInst.ok, Bool.and_eq_true, Bool.or_eq_true, beq_iff_eq, List.all_eq_true, and_assoc]

theorem Chan.fresh_ok {b : Nat} (hb : 1 ≤ b) (ok : Bool) (tick c : Nat) : (Chan.fresh ok tick c b).ok b = true :=
  (chan_ok_iff _ _).2 ⟨by simp [Chan.fresh], hb, taint_or_finite_settle _ _ fun _ => allFinite_replicate_zero b⟩

theorem SegInst.fresh_ok {c : Config} {b n : Nat} (hsize : segSizeOk c b n = true) {inner : Binding}
    (hpow : inner = .ext ∨ isPow2 b = true) (ok : Bool) (tick : Nat) : (SegInst.fresh ok tick b n inner).ok c = true := by
  refine (segInst_ok_iff _ _).2 ⟨hsize, length_vec _ _, fun ch hch => ?_, hpow⟩
  obtain ⟨j, -, rfl⟩ := mem_vec.1 hch
  exact Chan.fresh_ok ((segSizeOk_iff _ _ _).1 hsize).1 ok tick j

theorem SlotsInv.splice {α : Type} [DecidableEq α] {n : Nat} {p : α → Bool} {m : Cells (Slot α)} (h : SlotsInv n p m)
    {a : Nat} {v : List (Slot α)} (hlt : a + v.length ≤ n) (hv : ∀ x ∈ v, x.all p = true) :
    SlotsInv n p (Cells.splice .unconfigured m a v) := by
  refine ⟨Cells.splice_wf a v h.1, fun k => ?_⟩
  rw [Cells.get_splice]
  split
  · next hk =>
    rw [List.getD_eq_getElem _ _ (by omega)]
    exact ⟨hv _ (List.getElem_mem _), fun _ => by omega⟩
  · exact h.2 k

theorem execSegCfgExt_inv {s t : State} (h : s.Inv) (he : execSegCfgExt s = .next t) : t.Inv := by
  obtain ⟨hsize, rfl⟩ | ⟨-, rfl⟩ := execSegCfgExt_cases he
  · exact (h.setSeg (x := .configured _) (SegInst.fresh_ok hsize (.inl rfl) true s.tick)).complete
  · exact h.raise _

theorem segCfgOlaEffect_inv {pre post : Bool} {s : State} (h : s.Inv) (hsize : segSizeOk s.cfg s.len s.nch = true)
    (hpow : isPow2 s.len = true) : (segCfgOlaEffect pre post s).Inv := by
  obtain ⟨hb, hmax, -, hnch⟩ := (segSizeOk_iff _ _ _).1 hsize
  have hblock : blockSizeOk s.cfg s.len = true := (blockSizeOk_iff _ _).2 ⟨(isPow2_iff _).1 hpow, hb, hmax⟩
  unfold segCfgOlaEffect
  refine ((h.setSeg (x := .configured _) (SegInst.fresh_ok hsize (.inr hpow) _ s.tick)).setOla
    (h.olaSlots.splice ?_ fun x hx => ?_)).complete
  · rwa [length_vec, Nat.zero_add]
  · obtain ⟨c, -, rfl⟩ := mem_vec.1 hx
    exact OlaInst.fresh_ok hblock s.tick c pre post (Memory.length_read ..)

theorem execSegCfgOla_inv {pre post : Bool} {s t : State} (h : s.Inv) (he : execSegCfgOla pre post s = .next t) :
    t.Inv := by
  obtain ⟨hsize, hpow, -, rfl⟩ | ⟨-, rfl⟩ | ⟨-, -, -, rfl⟩ := execSegCfgOla_cases he
  · exact segCfgOlaEffect_inv h hsize hpow
  · exact h.raise _
  · exact h.raise _

/-! ### The segmenter's run -/

theorem spoilRows_range {n tick p : Nat} {k : SegOps} {m : Memory} (h : ∀ e ∈ m, e.1 < n)
    (hk : ∀ c < p, k.n = 0 ∨ k.addr c + k.n ≤ n) : ∀ e ∈ spoilRows tick k p m, e.1 < n := by
  induction p with
  | zero => exact h
  | succ p ih =>
    rw [spoilRows_succ]
    refine range_write (ih fun c hc => hk c (by omega)) ?_
    rw [length_freeWords]
    exact hk p (Nat.lt_succ_self p)

/-- Spoiling the rows of a `SEG.PROC` keeps HM as the invariant asks. -/
theorem spoilRows_inv {s : State} {p : Nat} (hrows : rowsOk s.cfg.hmsize s.ptr0 s.stride p s.len = true) {m : Memory}
    (hm : m.wf) (hrange : ∀ e ∈ m, e.1 < s.cfg.hmsize) :
    (spoilRows s.tick s.segOps p m).wf ∧ ∀ e ∈ spoilRows s.tick s.segOps p m, e.1 < s.cfg.hmsize := by
  refine ⟨spoilRows_wf _ _ _ hm, spoilRows_range hrange fun c hc => ?_⟩
  exact ((rowsOk_iff ..).1 hrows).imp id fun h => h.1 c hc

/-- The channels of a run that ends with `OK`. -/
theorem settleChans_ok {s : State} {g : SegInst} {p : Nat} {r : SegRun} (R : SegRunInv s g p r) :
    ∀ ch ∈ settleChans r.ok s.tick g.b p r.chans, ch.ok g.b = true := by
  have hkept : ∀ j < g.c, r.ok = true ∨ p ≤ j → (r.chans.getD j default).ok g.b = true := fun j hj h =>
    have ⟨hovf, hfill, hfin⟩ := R.chans j hj
    (chan_ok_iff _ _).2 ⟨hovf, hfill, hfin h⟩
  intro ch hch
  rw [settleChans] at hch
  split at hch
  · next hok =>
    rw [eq_vec r.chans default] at hch
    obtain ⟨j, hj, rfl⟩ := mem_vec.1 hch
    exact hkept j (R.len ▸ hj) (.inl hok)
  · obtain ⟨j, hj, rfl⟩ := mem_vec.1 hch
    rw [R.len] at hj
    split
    · exact (chan_ok_iff _ _).2 ⟨length_freeVec .., (R.chans j hj).2.1, .inl rfl⟩
    · next hp => exact hkept j hj (.inr (Nat.not_lt.1 hp))

theorem Chan.lost_ok {b : Nat} (hb : 1 ≤ b) (tick c : Nat) : (Chan.lost tick b c).ok b = true :=
  (chan_ok_iff _ _).2 ⟨length_freeVec .., Nat.mod_lt _ hb, .inl rfl⟩

/-- The wrappers of a run whose channels below `q` completed: those that the run touched and that are not under U1 are spoiled,
so only the wrappers from `q` on have to be good already. -/
theorem settleWrappers_inv {s : State} {g : SegInst} {p q : Nat} {r : SegRun} (h : s.Inv) (R : SegRunInv s g p r)
    (hq : ∀ k, q ≤ k → (olaSlot r.ola k).all (OlaInst.ok s.cfg) = true) :
    SlotsInv s.cfg.ninst (OlaInst.ok s.cfg) (settleWrappers r.ok s.tick g.b s.len q g.inner g.chans r.ola) := by
  have hold : ∀ k, olaSlot r.ola k = olaSlot s.ola k → (olaSlot r.ola k).all (OlaInst.ok s.cfg) = true := fun k hk =>
    hk ▸ (h.olaSlots.2 k).1
  unfold settleWrappers
  split
  · refine ⟨spoilWrappers_wf _ _ _ _ _ R.wf, fun k => ?_⟩
    change (olaSlot _ k).all _ = true ∧ (olaSlot _ k ≠ _ → _)
    rw [olaSlot_spoilWrappers]
    have hkey := R.key k
    have hgeo := R.geo k
    cases hk : olaSlot r.ola k with
    | unconfigured => exact ⟨rfl, fun hne => absurd rfl hne⟩
    | faulted o => exact ⟨R.live k o hk, fun _ => hkey (hk ▸ nofun)⟩
    | configured o =>
      rw [hk] at hgeo
      obtain ⟨hb, hs⟩ := (OlaInst.geo_iff _ _).1 hgeo
      dsimp only
      split
      · exact ⟨OlaInst.spoil_ok_of_sized hb hs s.tick k, fun _ => hkey (hk ▸ nofun)⟩
      · next hnot =>
        refine ⟨?_, fun _ => hkey (hk ▸ nofun)⟩
        rw [← hk]
        rcases Nat.lt_or_ge k q with hlt | hge
        · exact hold k (R.untouched k (.inr (.inl (by omega))))
        · exact hq k hge
  · next hcond =>
    refine ⟨R.wf, fun k => ⟨?_, R.key k⟩⟩
    cases hok : r.ok with
    | true => exact R.fin hok k
    | false =>
      cases hinner : g.inner with
      | ext => exact hold k (R.untouched k (.inr (.inr hinner)))
      | ola => exact absurd (by simp [hok, hinner]) hcond

section
variable {s : State} {g : SegInst} {p : Nat} {r : SegRun} (h : s.Inv) (hg : s.seg = .configured g)
  (hrows : rowsOk s.cfg.hmsize s.ptr0 s.stride p s.len = true) (R : SegRunInv s g p r)
include h hg hrows R

theorem segOk_inv : (segOk s.segOps p g r s).Inv := by
  have hok : (Slot.configured g).all (SegInst.ok s.cfg) = true := hg ▸ h.seg
  obtain ⟨hsize, -, -, hpow⟩ := (segInst_ok_iff _ _).1 hok
  have hlen : (settleChans r.ok s.tick g.b p r.chans).length = g.c := by
    rw [settleChans]
    split <;> simp [R.len]
  have hseg : (Slot.configured { g with chans := settleChans r.ok s.tick g.b p r.chans }).all (SegInst.ok s.cfg) = true :=
    (segInst_ok_iff _ _).2 ⟨hsize, hlen, settleChans_ok R, hpow⟩
  have hola := settleWrappers_inv h R fun k hk => by
    rw [R.untouched k (.inl hk)]
    exact (h.olaSlots.2 k).1
  have hhm : (if r.ok then r.hm else spoilRows s.tick s.segOps p r.hm).wf ∧
      ∀ e ∈ (if r.ok then r.hm else spoilRows s.tick s.segOps p r.hm), e.1 < s.cfg.hmsize := by
    split
    · exact ⟨R.hm, R.range⟩
    · exact spoilRows_inv hrows R.hm R.range
  exact ((((h.setHm hhm.1 hhm.2).setSeg hseg).setOla hola).setIp R.ip).complete

theorem segErr_inv {c : Nat} {d : Word} (herr : r.err = some (c, d)) : (segErr s.segOps p g r c d s).Inv := by
  have hok : (Slot.configured g).all (SegInst.ok s.cfg) = true := hg ▸ h.seg
  obtain ⟨hsize, -, -, hpow⟩ := (segInst_ok_iff _ _).1 hok
  have hseg : (Slot.faulted { g with chans := vec g.c fun j => Chan.lost s.tick g.b j }).all (SegInst.ok s.cfg) = true := by
    refine (segInst_ok_iff _ _).2 ⟨hsize, length_vec _ _, fun ch hch => ?_, hpow⟩
    obtain ⟨j, -, rfl⟩ := mem_vec.1 hch
    exact Chan.lost_ok ((segSizeOk_iff _ _ _).1 hsize).1 s.tick j
  have hola := settleWrappers_inv (q := c) h R fun k hk => by
    rcases Nat.eq_or_lt_of_le hk with rfl | hlt
    · rcases (R.failed c d herr).2 with hsame | ⟨q, hq, hqok⟩
      · rw [hsame]
        exact (h.olaSlots.2 c).1
      · rw [hq]
        exact hqok
    · rw [R.after c d herr k hlt]
      exact (h.olaSlots.2 k).1
  obtain ⟨hhm, hrange⟩ := spoilRows_inv hrows R.hm R.range
  exact ((((h.setHm hhm hrange).setSeg hseg).setOla hola).setIp R.ip).raiseInner c d

end

theorem segEffect_inv {s : State} {g : SegInst} (h : s.Inv) (hg : s.seg = .configured g)
    (hrows : rowsOk s.cfg.hmsize s.ptr0 s.stride (s.procChans g) s.len = true)
    (hwrappers : wrappersOk g (s.procChans g) s.ola = true) : (segEffect g (s.procChans g) s).Inv := by
  have R := segRun_inv s g h hg (s.procChans g) (Nat.min_le_right _ _) hrows hwrappers _ (Nat.le_refl _)
  obtain ⟨-, he⟩ | ⟨c, d, -, herr, he⟩ := segEffect_cases g (s.procChans g) s
  · exact he ▸ segOk_inv h hg hrows R
  · exact he ▸ segErr_inv h hg hrows R herr

theorem execSegProc_inv {s t : State} (h : s.Inv) (he : execSegProc s = .next t) : t.Inv := by
  obtain ⟨g, hg, -, hrows, hwrappers, rfl⟩ | ⟨g, -, -, rfl⟩ | ⟨g, -, -, -, rfl⟩ | ⟨g, -, -, -, -, rfl⟩ | ⟨-, rfl⟩ :=
    execSegProc_cases he
  · exact segEffect_inv h hg hrows hwrappers
  · exact h.raise _
  · exact h.raise _
  · exact h.raise _
  · exact h.raise _

/-! ### A step -/

/-- A legal command word passes the check of rule R83. -/
theorem wf_of_classify {ninst : Nat} {w : Word} {i : Instr} (h : classify ninst w = .ok i) : i.wf ninst = true := by
  unfold classify at h
  split at h
  · split at h
    · next hwf =>
      injection h with h
      exact h ▸ hwf
    · cases h
  · cases h

theorem exec_inv {i : Instr} {s t : State} (h : s.Inv) (hwf : i.wf s.cfg.ninst = true) (he : exec i s = .next t) : t.Inv := by
  cases i with
  | sysReset => exact execSysReset_cases he ▸ h.resetBlock
  | dctCfg i => exact execDctCfg_inv h (of_decide_eq_true hwf) he
  | dctFwd i => exact dctProcess_inv h (fun n _ x => length_dctForward _ n x) he
  | dctInv i => exact dctProcess_inv h (fun n hn x => length_dctInverse _ x hn) he
  | mdctCfg i => exact execMdctCfg_inv h (of_decide_eq_true hwf) he
  | mdctFwd i => exact execMdctFwd_inv h he
  | mdctInv i => exact execMdctInv_inv h he
  | olaCfg i pre post => exact execOlaCfg_inv h (of_decide_eq_true hwf) he
  | olaProc i => exact execOlaProc_inv h he
  | segCfgExt => exact execSegCfgExt_inv h he
  | segCfgOla pre post => exact execSegCfgOla_inv h he
  | segProc => exact execSegProc_inv h he

/-- Settles O41: a command keeps the invariant by its own lemma, every other action of the host by what its updates ask for. -/
theorem stepKeepsInvariant : Obligations.StepKeepsInvariant := by
  unfold Obligations.StepKeepsInvariant
  intro s t h hstep
  obtain ⟨-, rfl⟩ | ⟨a, rest, -, haction⟩ := step_cases hstep
  · exact h
  · obtain ⟨w, i, -, hw, he⟩ | ⟨w, e, -, -, rfl⟩ | ⟨k, w, -, -, rfl⟩ | ⟨k, -, rfl⟩ | ⟨k, w, -, hk, rfl⟩ | ⟨k, -, -, rfl⟩ |
      ⟨-, rfl⟩ := haction
    · exact exec_inv h.issued (wf_of_classify hw) he
    · exact h.issued.raise _
    · exact (h.setPending rest).setOps _
    · exact (h.setPending rest).setRdata _
    · exact (h.setPending rest).memWrite hk
    · exact (h.setPending rest).setRdata _
    · exact (h.setPending rest).resetBlock

end Sys2Proof.Machine
end

