-- ==== Sys2Proof/Proofs/CommandFrame.lean ====
section
/-! What each command may change, said once for every field of the state: `Frame`, and that every command obeys it (`exec_frame`).
The slots of the four unit classes share one relation, `SlotChange`. The statements about what commands keep are read off. -/
namespace Sys2Proof.Machine
open Sys2Proof.Stated

/-! ### Slots -/

/-- What a command may do to a slot: leave it, clear it if the command resets, fill it if the command builds it, and, if the command
processes it, go from `CONFIGURED` to `CONFIGURED`, or to `FAULTED` when it fails, with what construction fixed the `same`. -/
inductive SlotChange {α : Type} (same : α → α → Prop) (reset built run fails : Prop) : Slot α → Slot α → Prop
  | kept (x : Slot α) : SlotChange same reset built run fails x x
  | cleared (x : Slot α) (h : reset) : SlotChange same reset built run fails x .unconfigured
  | filled (x : Slot α) (a : α) (h : built) : SlotChange same reset built run fails x (.configured a)
  | processed {x : Slot α} {a : α} (b : α) (hx : x = .configured a) (h : run) (hs : same a b) :
      SlotChange same reset built run fails x (.configured b)
  | failed {x : Slot α} {a : α} (b : α) (hx : x = .configured a) (h : run) (hf : fails) (hs : same a b) :
      SlotChange same reset built run fails x (.faulted b)

namespace SlotChange

variable {α : Type} {same : α → α → Prop} {reset built run fails : Prop} {x y : Slot α}

/-- A map of slots after one of them was replaced. -/
theorem set [DecidableEq α] {m : Cells (Slot α)} {a k : Nat} {z : Slot α}
    (h : k = a → SlotChange same reset built run fails (Cells.get .unconfigured m a) z) :
    SlotChange same reset built run fails (Cells.get .unconfigured m k)
      (Cells.get .unconfigured (Cells.set .unconfigured m a z) k) := by
  by_cases hk : k = a
  · subst hk
    rw [Cells.get_set_same]
    exact h rfl
  · rw [Cells.get_set_other _ _ _ hk]
    exact .kept _

theorem of_ne (h : SlotChange same reset built run fails x y) (hne : y ≠ x) : reset ∨ built ∨ run := by
  cases h with
  | kept => exact absurd rfl hne
  | cleared h => exact .inl h
  | filled _ h => exact .inr (.inl h)
  | processed _ _ h => exact .inr (.inr h)
  | failed _ _ h => exact .inr (.inr h)

theorem of_enters_faulted (h : SlotChange same reset built run fails x y) (hx : x.isFaulted = false)
    (hy : y.isFaulted = true) : run ∧ fails := by
  cases h with
  | kept => exact absurd (hx.symm.trans hy) nofun
  | cleared => cases hy
  | filled => cases hy
  | processed => cases hy
  | failed _ _ h hf => exact ⟨h, hf⟩

theorem of_leaves_faulted (h : SlotChange same reset built run fails x y) (hx : x.isFaulted = true)
    (hy : y.isFaulted = false) : reset ∨ built := by
  cases h with
  | kept => exact absurd (hx.symm.trans hy) nofun
  | cleared h => exact .inl h
  | filled _ h => exact .inr h
  | processed _ hconf => rw [hconf] at hx; cases hx
  | failed => cases hy

/-- A function of what construction fixes has the value it had, unless the slot was cleared or filled. -/
theorem fixed {β : Type} {f : Slot α → β} (h : SlotChange same reset built run fails x y)
    (hf : ∀ a b, same a b → f (.configured b) = f (.configured a) ∧ f (.faulted b) = f (.configured a))
    (hreset : ¬ reset) (hbuilt : ¬ built) : f y = f x := by
  cases h with
  | kept => rfl
  | cleared h => exact absurd h hreset
  | filled _ h => exact absurd h hbuilt
  | processed b hx _ hs => exact hx ▸ (hf _ b hs).1
  | failed b hx _ _ hs => exact hx ▸ (hf _ b hs).2

/-- What `SEG.PROC` does to a wrapper. -/
theorem of_slotStep {x y : Slot OlaInst} {inner : Binding} {p c : Nat} (h : slotStep inner p c x y)
    (hrun : inner = .ola → c < p → run) (hfails : (∀ o, x ≠ .faulted o) → ∀ q, y = .faulted q → fails) :
    SlotChange OlaInst.same reset built run fails x y := by
  obtain rfl | ⟨hinner, hc, o, q, rfl, rfl | rfl, hs⟩ := h
  · exact .kept _
  · exact .processed q rfl (hrun hinner hc) hs
  · exact .failed q rfl (hrun hinner hc) (hfails (fun _ => nofun) q rfl) hs

end SlotChange

/-! ### The frame of a command -/

/-- The command constructs the wrapper `c`: it names it, or binds it to the segmenter (rules R106, R108). -/
def OlaBuilt (i : Instr) (s : State) (c : Nat) : Prop :=
  (∃ (j : InstNo) (pre post : Bool), i = .olaCfg j pre post ∧ j.toNat = c) ∨ ((∃ pre post, i = .segCfgOla pre post) ∧ c < s.nch)

/-- The command processes the wrapper `c`: it names it, or runs the channel it is bound to (rules R125, R141). -/
def OlaRuns (i : Instr) (s : State) (c : Nat) : Prop :=
  (∃ j : InstNo, i = .olaProc j ∧ j.toNat = c) ∨
    (i = .segProc ∧ ∃ g, s.seg = .configured g ∧ g.inner = .ola ∧ c < min s.nch g.c)

/-- The command constructs the segmenter (rules R107, R108). -/
def SegBuilt (i : Instr) : Prop := i = .segCfgExt ∨ ∃ pre post, i = .segCfgOla pre post

/-- What construction fixes of a segmenter is the same in `g` and `q` (rule R29). -/
def SegInst.same (g q : SegInst) : Prop := q.b = g.b ∧ q.c = g.c ∧ q.inner = g.inner

/-- What the command `i` may change when it takes the state `s` to `t`. -/
structure Frame (i : Instr) (s t : State) : Prop where
  outside : SameOutside s t
  status : ∃ code chan, t.status = statusWord code chan ∧ code.toNat ≤ 6 ∧ (chan ≠ 0#8 → code = innerCode ∧ i = .segProc)
  ops : i ≠ .sysReset → t.ops = s.ops
  msg : t.msg = s.msg ∨ i = .sysReset ∨ ((∃ j, i = .olaProc j) ∧ t.status = 0#32)
  diag : t.diag = s.diag ∨ i = .sysReset ∨ statusCode t.status = innerCode
  ip : t.ip = s.ip ∨ i = .segProc ∨ ∃ j, i = .olaProc j
  dctMap : t.dct = s.dct ∨ i = .sysReset ∨ ∃ j, i = .dctCfg j
  dct : ∀ k, SlotChange (fun _ _ => False) (i = .sysReset) (∃ j : InstNo, i = .dctCfg j ∧ j.toNat = k) False False
    (Cells.get .unconfigured s.dct k) (Cells.get .unconfigured t.dct k)
  mdct : ∀ k, SlotChange (fun m q => q.b = m.b) (i = .sysReset) (∃ j : InstNo, i = .mdctCfg j ∧ j.toNat = k)
    (∃ j : InstNo, (i = .mdctFwd j ∨ i = .mdctInv j) ∧ j.toNat = k) False
    (Cells.get .unconfigured s.mdct k) (Cells.get .unconfigured t.mdct k)
  ola : ∀ c, SlotChange OlaInst.same (i = .sysReset) (OlaBuilt i s c) (OlaRuns i s c) (statusCode t.status = innerCode)
    (olaSlot s.ola c) (olaSlot t.ola c)
  seg : SlotChange SegInst.same (i = .sysReset) (SegBuilt i) (i = .segProc) (statusCode t.status = innerCode) s.seg t.seg

namespace Frame

variable {s : State}

/-- A command that changes `STATUS` only. -/
theorem setStatus (i : Instr) (s : State) {code : BitVec 8} (h : code.toNat ≤ 6) :
    Frame i s (s.setStatus (statusWord code 0)) where
  outside := ⟨rfl, rfl, rfl, rfl⟩
  status := ⟨code, 0, rfl, h, fun hne => absurd rfl hne⟩
  ops _ := rfl
  msg := .inl rfl
  diag := .inl rfl
  ip := .inl rfl
  dctMap := .inl rfl
  dct _ := .kept _
  mdct _ := .kept _
  ola _ := .kept _
  seg := .kept _

theorem complete (i : Instr) (s : State) : Frame i s s.complete := setStatus i s (by decide)

theorem raise (i : Instr) (s : State) (e : Err) : Frame i s (s.raise e) := setStatus i s e.toNat_code_le

theorem resetBlock (s : State) : Frame .sysReset s s.resetBlock where
  outside := ⟨rfl, rfl, rfl, rfl⟩
  status := ⟨0, 0, rfl, by decide, fun hne => absurd rfl hne⟩
  ops hne := absurd rfl hne
  msg := .inr (.inl rfl)
  diag := .inr (.inl rfl)
  ip := .inl rfl
  dctMap := .inr (.inl rfl)
  dct _ := .cleared _ rfl
  mdct _ := .cleared _ rfl
  ola _ := .cleared _ rfl
  seg := .cleared _ rfl

theorem dctCfg {i : InstNo} {t : State} (h : execDctCfg i s = .next t) : Frame (.dctCfg i) s t := by
  obtain ⟨-, rfl⟩ | ⟨-, rfl⟩ := execDctCfg_cases h
  · exact { complete (.dctCfg i) s with
      dctMap := .inr (.inr ⟨i, rfl⟩)
      dct := fun k => .set fun hk => .filled _ _ ⟨i, rfl, hk.symm⟩ }
  · exact raise _ s _

theorem dctProcess {f : Nat → List Word → List Word} {i : InstNo} {t : State} (h : Machine.dctProcess f i s = .next t)
    (instr : Instr) : Frame instr s t := by
  obtain ⟨d, -, -, rfl⟩ | ⟨d, -, -, rfl⟩ | ⟨-, rfl⟩ := dctProcess_cases h
  · exact { complete instr s with }
  · exact raise _ s _
  · exact raise _ s _

theorem mdctCfg {i : InstNo} {t : State} (h : execMdctCfg i s = .next t) : Frame (.mdctCfg i) s t := by
  obtain ⟨-, rfl⟩ | ⟨-, rfl⟩ := execMdctCfg_cases h
  · exact { complete (.mdctCfg i) s with mdct := fun k => .set fun hk => .filled _ _ ⟨i, rfl, hk.symm⟩ }
  · exact raise _ s _

theorem mdctFwd {i : InstNo} {t : State} (h : execMdctFwd i s = .next t) : Frame (.mdctFwd i) s t := by
  obtain ⟨m, hm, -, rfl⟩ | ⟨m, -, -, rfl⟩ | ⟨-, rfl⟩ := execMdctFwd_cases h
  · exact { complete (.mdctFwd i) s with
      mdct := fun k => .set fun hk => .processed _ hm ⟨i, .inl rfl, hk.symm⟩ rfl }
  · exact raise _ s _
  · exact raise _ s _

theorem mdctInv {i : InstNo} {t : State} (h : execMdctInv i s = .next t) : Frame (.mdctInv i) s t := by
  obtain ⟨m, hm, -, rfl⟩ | ⟨m, -, -, rfl⟩ | ⟨-, rfl⟩ := execMdctInv_cases h
  · exact { complete (.mdctInv i) s with
      mdct := fun k => .set fun hk => .processed _ hm ⟨i, .inr rfl, hk.symm⟩ rfl }
  · exact raise _ s _
  · exact raise _ s _

theorem olaCfg {i : InstNo} {pre post : Bool} {t : State} (h : execOlaCfg i pre post s = .next t) :
    Frame (.olaCfg i pre post) s t := by
  obtain ⟨-, -, rfl⟩ | ⟨-, rfl⟩ | ⟨-, -, rfl⟩ := execOlaCfg_cases h
  · exact { complete (.olaCfg i pre post) s with
      ola := fun c => .set fun hc => .filled _ _ (.inl ⟨i, pre, post, rfl, hc.symm⟩) }
  · exact raise _ s _
  · exact raise _ s _

theorem olaEffect {i : InstNo} {o : OlaInst} (ho : s.olaAt i = .configured o) :
    Frame (.olaProc i) s (Machine.olaEffect i o s) := by
  have hsame := olaProcess_same s.cfg s.tick i.toNat s.env o (s.memRead s.ptr0 o.b) true s.ip
  unfold Machine.olaEffect
  dsimp only
  split
  · exact { complete (.olaProc i) s with
      status := ⟨innerCode, 0, rfl, by decide, fun hne => absurd rfl hne⟩
      msg := .inl rfl
      diag := .inr (.inr (statusCode_statusWord _ _))
      ip := .inr (.inr ⟨i, rfl⟩)
      ola := fun c => .set fun hc => .failed _ ho (.inl ⟨i, rfl, hc.symm⟩) (statusCode_statusWord _ _) hsame
      seg := .kept _ }
  · exact { complete (.olaProc i) s with
      msg := .inr (.inr ⟨⟨i, rfl⟩, rfl⟩)
      ip := .inr (.inr ⟨i, rfl⟩)
      ola := fun c => .set fun hc => .processed _ ho (.inl ⟨i, rfl, hc.symm⟩)
        (OlaInst.same_trans hsame (OlaInst.same_settled ..)) }

theorem olaProc {i : InstNo} {t : State} (h : execOlaProc i s = .next t) : Frame (.olaProc i) s t := by
  obtain ⟨o, ho, -, rfl⟩ | ⟨o, -, -, rfl⟩ | ⟨-, rfl⟩ := execOlaProc_cases h
  · exact olaEffect ho
  · exact raise _ s _
  · exact raise _ s _

theorem segCfgExt {t : State} (h : execSegCfgExt s = .next t) : Frame .segCfgExt s t := by
  obtain ⟨-, rfl⟩ | ⟨-, rfl⟩ := execSegCfgExt_cases h
  · exact { complete .segCfgExt s with seg := .filled _ _ (.inl rfl) }
  · exact raise _ s _

/-- What binding the first `n` wrappers leaves at an index. -/
theorem olaSlot_bindWrappers (tick b n : Nat) (pre post : Bool) (w : List Word) (m : Cells (Slot OlaInst)) (c : Nat) :
    olaSlot (bindWrappers tick b n pre post w m) c =
      if c < n then .configured (OlaInst.fresh tick c b pre post w) else olaSlot m c := by
  rw [olaSlot, bindWrappers, Cells.get_splice, length_vec, Nat.zero_add, Nat.sub_zero, getD_vec]
  by_cases hc : c < n
  · simp only [hc, Nat.zero_le, and_self, if_true]
  · simp only [hc, and_false, if_false, olaSlot]

theorem segCfgOla {pre post : Bool} {t : State} (h : execSegCfgOla pre post s = .next t) :
    Frame (.segCfgOla pre post) s t := by
  obtain ⟨-, -, -, rfl⟩ | ⟨-, rfl⟩ | ⟨-, -, -, rfl⟩ := execSegCfgOla_cases h
  · refine { complete (.segCfgOla pre post) s with
      ola := fun c => ?_
      seg := .filled _ _ (.inr ⟨pre, post, rfl⟩) }
    change SlotChange _ _ _ _ _ _ (olaSlot (bindWrappers ..) c)
    rw [olaSlot_bindWrappers]
    split
    · next hc => exact .filled _ _ (.inr ⟨⟨pre, post, rfl⟩, hc⟩)
    · exact .kept _
  · exact raise _ s _
  · exact raise _ s _

section
variable {g : SegInst} {r : SegRun} (hg : s.seg = .configured g)
include hg

theorem olaRuns_segProc {c : Nat} (hinner : g.inner = .ola) (hc : c < s.procChans g) : OlaRuns .segProc s c :=
  .inr ⟨rfl, g, hg, hinner, hc⟩

/-- `SEG.PROC` without an inner error, when it faults no wrapper. -/
theorem segOk {p : Nat}
    (hola : ∀ c, slotStep g.inner (s.procChans g) c (olaSlot s.ola c) (olaSlot (Machine.segOk s.segOps p g r s).ola c))
    (hlive : ∀ c, (∀ o, olaSlot s.ola c ≠ .faulted o) → ∀ q, olaSlot (Machine.segOk s.segOps p g r s).ola c ≠ .faulted q) :
    Frame .segProc s (Machine.segOk s.segOps p g r s) :=
  { complete .segProc s with
    ip := .inr (.inl rfl)
    ola := fun c => .of_slotStep (hola c) (olaRuns_segProc hg) fun hx q hq => absurd hq (hlive c hx q)
    seg := .processed _ hg rfl ⟨rfl, rfl, rfl⟩ }

/-- `SEG.PROC` with an inner error. -/
theorem segErr {p c : Nat} {d : Word}
    (hola : ∀ k, slotStep g.inner (s.procChans g) k (olaSlot s.ola k) (olaSlot (Machine.segErr s.segOps p g r c d s).ola k)) :
    Frame .segProc s (Machine.segErr s.segOps p g r c d s) :=
  have hcode : statusCode (Machine.segErr s.segOps p g r c d s).status = innerCode := statusCode_statusWord _ _
  { complete .segProc s with
    status := ⟨innerCode, _, rfl, by decide, fun _ => ⟨rfl, rfl⟩⟩
    msg := .inl rfl
    diag := .inr (.inr hcode)
    ip := .inr (.inl rfl)
    ola := fun k => .of_slotStep (hola k) (olaRuns_segProc hg) fun _ _ _ => hcode
    seg := .failed _ hg rfl hcode ⟨rfl, rfl, rfl⟩ }

theorem segEffect : Frame .segProc s (Machine.segEffect g (s.procChans g) s) := by
  have hola := segEffect_ola g (s.procChans g) s
  obtain ⟨herr, he⟩ | ⟨c, d, -, -, he⟩ := segEffect_cases g (s.procChans g) s <;> rw [he] at hola ⊢
  · refine segOk hg (fun c => (hola c).1) fun c hx q hq => ?_
    obtain ⟨d, hd⟩ := (hola c).2 hx q hq
    exact absurd (herr.symm.trans hd) nofun
  · exact segErr hg fun c => (hola c).1

end

theorem segProc {t : State} (h : execSegProc s = .next t) : Frame .segProc s t := by
  obtain ⟨g, hg, -, -, -, rfl⟩ | ⟨g, -, -, rfl⟩ | ⟨g, -, -, -, rfl⟩ | ⟨g, -, -, -, -, rfl⟩ | ⟨-, rfl⟩ := execSegProc_cases h
  · exact segEffect hg
  · exact raise _ s _
  · exact raise _ s _
  · exact raise _ s _
  · exact raise _ s _

end Frame

theorem exec_frame {i : Instr} {s t : State} (h : exec i s = .next t) : Frame i s t := by
  cases i with
  | sysReset => exact execSysReset_cases h ▸ Frame.resetBlock s
  | dctCfg i => exact Frame.dctCfg h
  | dctFwd i => exact Frame.dctProcess h _
  | dctInv i => exact Frame.dctProcess h _
  | mdctCfg i => exact Frame.mdctCfg h
  | mdctFwd i => exact Frame.mdctFwd h
  | mdctInv i => exact Frame.mdctInv h
  | olaCfg i pre post => exact Frame.olaCfg h
  | olaProc i => exact Frame.olaProc h
  | segCfgExt => exact Frame.segCfgExt h
  | segCfgOla pre post => exact Frame.segCfgOla h
  | segProc => exact Frame.segProc h

/-! ### Every command ends -/

theorem dctProcess_next (f : Nat → List Word → List Word) (i : InstNo) (s : State) : ∃ t, dctProcess f i s = .next t := by
  unfold dctProcess
  split
  · split <;> exact ⟨_, rfl⟩
  · exact ⟨_, rfl⟩

/-- No command ends in a fault or a refusal (rules R210, R257). -/
theorem exec_next (i : Instr) (s : State) : ∃ t, exec i s = .next t := by
  cases i with
  | sysReset => exact ⟨_, rfl⟩
  | dctCfg i => simp only [exec, execDctCfg]; split <;> exact ⟨_, rfl⟩
  | dctFwd i => exact dctProcess_next _ i s
  | dctInv i => exact dctProcess_next _ i s
  | mdctCfg i => simp only [exec, execMdctCfg]; split <;> exact ⟨_, rfl⟩
  | mdctFwd i => simp only [exec, execMdctFwd]; (repeat' split) <;> exact ⟨_, rfl⟩
  | mdctInv i => simp only [exec, execMdctInv]; (repeat' split) <;> exact ⟨_, rfl⟩
  | olaCfg i pre post => simp only [exec, execOlaCfg]; (repeat' split) <;> exact ⟨_, rfl⟩
  | olaProc i => simp only [exec, execOlaProc]; (repeat' split) <;> exact ⟨_, rfl⟩
  | segCfgExt => simp only [exec, execSegCfgExt]; split <;> exact ⟨_, rfl⟩
  | segCfgOla pre post => simp only [exec, execSegCfgOla]; (repeat' split) <;> exact ⟨_, rfl⟩
  | segProc => simp only [exec, execSegProc]; (repeat' split) <;> exact ⟨_, rfl⟩

/-- Settles O32: the command ends (`exec_next`), and its frame gives the form of `STATUS`. -/
theorem everyCommandEndsWithStatus : Obligations.EveryCommandEndsWithStatus := by
  unfold Obligations.EveryCommandEndsWithStatus
  intro i s
  obtain ⟨t, ht⟩ := exec_next i s
  obtain ⟨code, chan, hstatus, hcode, hchan⟩ := (exec_frame ht).status
  refine ⟨t, ht, ?_⟩
  rw [hstatus, statusHigh_statusWord, statusCode_statusWord, statusChan_statusWord]
  exact ⟨rfl, hcode, hchan⟩

/-! ### What commands keep -/

/-- Settles O35: each clause is a field of the frame. -/
theorem controlRegistersAreKept : Obligations.ControlRegistersAreKept := by
  unfold Obligations.ControlRegistersAreKept
  intro i s t h
  have F := exec_frame h
  exact ⟨F.outside, F.ops, F.msg.resolve_left, F.diag.resolve_left, F.ip.resolve_left⟩

/-- Settles O37: a slot that changed was reset, constructed or processed, and its frame says by which command. -/
theorem instancesAreNotShared : Obligations.InstancesAreNotShared := by
  unfold Obligations.InstancesAreNotShared
  intro i s t j h hreset
  have F := exec_frame h
  refine ⟨fun hne => ?_, fun hne => ?_, fun hne => ?_, fun hne => ?_⟩
  · obtain ⟨k, rfl, hk⟩ | hrun := ((F.dct j.toNat).of_ne hne).resolve_left hreset
    · exact BitVec.eq_of_toNat_eq hk ▸ rfl
    · exact hrun.elim
  · obtain ⟨k, rfl, hk⟩ | ⟨k, hi, hk⟩ := ((F.mdct j.toNat).of_ne hne).resolve_left hreset
    · exact BitVec.eq_of_toNat_eq hk ▸ .inl rfl
    · exact .inr (BitVec.eq_of_toNat_eq hk ▸ hi)
  · obtain (⟨k, pre, post, rfl, hk⟩ | hbound) | ⟨k, rfl, hk⟩ | hrun := ((F.ola j.toNat).of_ne hne).resolve_left hreset
    · exact .inl ⟨pre, post, BitVec.eq_of_toNat_eq hk ▸ rfl⟩
    · exact .inr (.inr (.inl hbound))
    · exact .inr (.inl (BitVec.eq_of_toNat_eq hk ▸ rfl))
    · exact .inr (.inr (.inr hrun))
  · exact or_assoc.1 ((F.seg.of_ne hne).resolve_left hreset)

section
variable {i : Instr} (hi : ¬ Constructs i)
include hi

theorem ne_sysReset_of_not_constructs : i ≠ .sysReset := by
  rintro rfl
  exact hi trivial

theorem not_olaBuilt_of_not_constructs (s : State) (c : Nat) : ¬ OlaBuilt i s c := by
  rintro (⟨j, pre, post, rfl, -⟩ | ⟨⟨pre, post, rfl⟩, -⟩) <;> exact hi trivial

theorem not_segBuilt_of_not_constructs : ¬ SegBuilt i := by
  rintro (rfl | ⟨pre, post, rfl⟩) <;> exact hi trivial

end

/-- Settles O38: a command that neither resets nor constructs leaves what construction fixed in every slot. -/
theorem constructionValuesAreKept : Obligations.ConstructionValuesAreKept := by
  unfold Obligations.ConstructionValuesAreKept
  intro i s t h hi
  have F := exec_frame h
  have hreset := ne_sysReset_of_not_constructs hi
  refine ⟨?_, fun j => ?_, fun c => ?_, ?_⟩
  · refine F.dctMap.resolve_right ?_
    rintro (rfl | ⟨j, rfl⟩) <;> exact hi trivial
  · refine (F.mdct j.toNat).fixed (fun m q hs => ?_) hreset ?_
    · exact ⟨congrArg some hs, congrArg some hs⟩
    · rintro ⟨k, rfl, -⟩
      exact hi trivial
  · refine (F.ola c).fixed (fun o q hs => ?_) hreset (not_olaBuilt_of_not_constructs hi s c)
    obtain ⟨hb, hpre, hpost, hw⟩ := hs
    simp only [olaFixed, hb, hpre, hpost, hw, and_self]
  · refine F.seg.fixed (fun g q hs => ?_) hreset (not_segBuilt_of_not_constructs hi)
    obtain ⟨hb, hc, hinner⟩ := hs
    simp only [segFixed, hb, hc, hinner, and_self]

/-- Settles O39: a slot enters `FAULTED` only in a failing run and leaves it only by reset or construction. -/
theorem faultedComesAndGoesAsSpecified : Obligations.FaultedComesAndGoesAsSpecified := by
  unfold Obligations.FaultedComesAndGoesAsSpecified
  intro i s t h
  have F := exec_frame h
  refine ⟨fun c hx hy => ?_, fun hx hy => ?_, fun c hx hy => ?_, fun hx hy => ?_, fun j => ⟨fun hx => ?_, fun hx => ?_,
    fun hx hy => ?_, fun hx hy => ?_⟩⟩
  · obtain ⟨hrun, hcode⟩ := (F.ola c).of_enters_faulted hx hy
    exact ⟨hcode, hrun.imp id And.left⟩
  · exact (F.seg.of_enters_faulted hx hy).symm
  · exact (F.ola c).of_leaves_faulted hx hy
  · exact F.seg.of_leaves_faulted hx hy
  · exact Bool.eq_false_of_not_eq_true fun hy => ((F.dct j.toNat).of_enters_faulted hx hy).2
  · exact Bool.eq_false_of_not_eq_true fun hy => ((F.mdct j.toNat).of_enters_faulted hx hy).2
  · refine ((F.dct j.toNat).of_leaves_faulted hx hy).imp id ?_
    rintro ⟨k, rfl, hk⟩
    exact BitVec.eq_of_toNat_eq hk ▸ rfl
  · refine ((F.mdct j.toNat).of_leaves_faulted hx hy).imp id ?_
    rintro ⟨k, rfl, hk⟩
    exact BitVec.eq_of_toNat_eq hk ▸ rfl

end Sys2Proof.Machine
end

