-- ==== Sys2Proof/Proofs/HostActions.lean ====
section
/-! A step for each action of the host that the statements speak of (rules R40, R41, R45, R240), the register bank as it reads after
a write, and the state that reset leaves. -/
namespace Sys2Proof.Machine
open Sys2Proof.Stated

/-! ### A step, by the host's next action -/

section
variable {s : State} {rest : List HostAction}

/-- An action that is no command is over at once. -/
theorem step_of_done {a : HostAction} {o : Host.Outcome State Fault Refusal} (hp : s.pending = a :: rest)
    (ha : hostAct a (s.setPending rest) = .done o) : step s = o := by
  simp only [step, fetch, hp, ha]

theorem step_of_command {w : Word} {i : Instr} (hp : s.pending = .regWrite 0 w :: rest)
    (hw : classify s.cfg.ninst w = .ok i) : step s = exec i ((s.setPending rest).setTick (s.tick + 1)) := by
  simp only [step, fetch, hp, hostAct, cmdOffset, if_true, State.setTick_cfg, State.setPending_cfg, State.setPending_tick, hw]

theorem step_of_regWrite {a : Nat} {v : Word} (hp : s.pending = .regWrite a v :: rest) (ha : a ≠ 0) :
    step s = .next ((s.setPending rest).setOps (s.ops.write a v)) := step_of_done hp (if_neg ha)

theorem step_of_regRead {b : Nat} (hp : s.pending = .regRead b :: rest) :
    step s = .next ((s.setPending rest).setRdata (s.readReg b)) := step_of_done hp rfl

theorem step_of_hardReset (hp : s.pending = .hardReset :: rest) : step s = .next (s.setPending rest).resetBlock :=
  step_of_done hp rfl

end

/-- Settles O6: `step_of_command`. -/
theorem stepRunsDecodedCommand : Obligations.StepRunsDecodedCommand := by
  unfold Obligations.StepRunsDecodedCommand
  intro s w rest i hp hw
  rw [step_of_command hp hw]
  rfl

/-! ### The register bank -/

/-- Table T40 as a chain of conditions. -/
theorem readReg_eq (s : State) (b : Nat) : s.readReg b =
    if b = 1 then s.status else if b = 2 then s.msg else if b = 3 then s.diag
    else if b = 4 then s.ops.ptr0 else if b = 5 then s.ops.ptr1 else if b = 6 then s.ops.len
    else if b = 7 then s.ops.stride else if b = 8 then s.ops.nch else if b = 9 then s.ops.env else 0#32 := by
  unfold State.readReg
  split
  case h_10 h1 h2 h3 h4 h5 h6 h7 h8 h9 =>
    simp only [if_neg h1, if_neg h2, if_neg h3, if_neg h4, if_neg h5, if_neg h6, if_neg h7, if_neg h8, if_neg h9]
    rfl
  all_goals rfl

/-- The registers at the offsets below 4 and above 9 ignore a write. -/
theorem write_of_readOnly (o : OpRegs) {a : Nat} (v : Word) (ha : a < 4 ∨ 9 < a) : o.write a v = o := by
  unfold OpRegs.write
  split
  case h_7 => rfl
  all_goals omega

/-- READ AFTER WRITE on the register bank: an operand register holds what was written, every other register what it held. -/
theorem readReg_write (s : State) (a b : Nat) (v : Word) : (s.setOps (s.ops.write a v)).readReg b =
    if b = a ∧ 4 ≤ a ∧ a ≤ 9 then v else s.readReg b := by
  by_cases hoperand : 4 ≤ a ∧ a ≤ 9
  · obtain ⟨hlow, hhigh⟩ := hoperand
    by_cases hb : b = a
    · subst hb
      rw [if_pos ⟨rfl, hlow, hhigh⟩]
      interval_cases b <;> rfl
    · rw [if_neg fun h => hb h.1, readReg_eq, readReg_eq]
      interval_cases a <;> simp [OpRegs.write, hb]
  · rw [if_neg fun h => hoperand h.2, write_of_readOnly _ _ (by omega)]
    rfl

/-- Settles O8: the write changes the operand registers only, the read the value read only, and `readReg_write` gives that value. -/
theorem registerBankReadsBack : Obligations.RegisterBankReadsBack := by
  unfold Obligations.RegisterBankReadsBack
  intro s a b v rest ha hp
  refine ⟨_, _, step_of_regWrite hp ha, step_of_regRead rfl, ?_, fun hr => write_of_readOnly s.ops v hr, rfl⟩
  have hread := readReg_write (s.setPending (.regRead b :: rest)) a b v
  rwa [readReg_eq (s.setPending _)] at hread

/-! ### Reset -/

theorem blockReset_resetBlock (s : State) : BlockReset s.resetBlock :=
  ⟨rfl, rfl, rfl, rfl, fun _ => rfl, fun _ => rfl, fun _ => rfl, rfl⟩

/-- Settles O12: both ways to reset end in `resetBlock`, which keeps HM and `IPState`. -/
theorem hardwareResetGivesSpecifiedState : Obligations.HardwareResetGivesSpecifiedState := by
  unfold Obligations.HardwareResetGivesSpecifiedState
  refine ⟨fun s rest hp => ?_, fun s t h => execSysReset_cases h ▸ rfl⟩
  exact ⟨_, step_of_hardReset hp, blockReset_resetBlock _, rfl, rfl, rfl, rfl, rfl, rfl⟩

end Sys2Proof.Machine
end

