-- ==== Sys2Proof/Proofs/HostMemory.lean ====
section
/-! HM from both sides: what the host's own accesses do to it (rules R60, R71), and the range each command may write (table T86,
rule R62). -/
namespace Sys2Proof.Machine
open Sys2Proof.Stated

/-! ### The host's accesses -/

section
variable {s : State} {rest : List HostAction} {a : Nat} {v : Word}

theorem step_of_hmStore (hp : s.pending = .hmStore a v :: rest) (ha : a < s.cfg.hmsize) :
    step s = .next ((s.setPending rest).memWrite a [.known v]) := (step_of_done hp rfl).trans (if_pos ha)

theorem step_of_hmStore_beyond (hp : s.pending = .hmStore a v :: rest) (ha : s.cfg.hmsize ≤ a) :
    step s = .fault (.hostAddress a) := (step_of_done hp rfl).trans (if_neg (Nat.not_lt.2 ha))

theorem step_of_hmLoad (hp : s.pending = .hmLoad a :: rest) (ha : a < s.cfg.hmsize) :
    step s = .next ((s.setPending rest).setRdata (s.hm.get a)) := (step_of_done hp rfl).trans (if_pos ha)

theorem step_of_hmLoad_beyond (hp : s.pending = .hmLoad a :: rest) (ha : s.cfg.hmsize ≤ a) :
    step s = .fault (.hostAddress a) := (step_of_done hp rfl).trans (if_neg (Nat.not_lt.2 ha))

end

/-- HM after one word was stored. -/
theorem Memory.get_write_known (m : Memory) (a : Nat) (v : Word) (k : Nat) :
    (m.write a [.known v]).get k = if k = a then v else m.get k := by
  by_cases hk : k = a
  · subst hk
    rw [Memory.get_write, if_pos ⟨Nat.le_refl k, Nat.lt_succ_self k⟩, Nat.sub_self, if_pos rfl]
    rfl
  · rw [if_neg hk, Memory.get_write_outside _ _ _ _ (Nat.lt_or_gt_of_ne hk)]

/-- Settles O9: the store's step writes one word, which `Memory.get_write_known` reads back; beyond `HMSIZE` both steps stop. -/
theorem hostMemoryReadsBack : Obligations.HostMemoryReadsBack := by
  unfold Obligations.HostMemoryReadsBack
  intro s a b v rest hp
  refine ⟨fun ha => ?_, step_of_hmStore_beyond hp⟩
  refine ⟨_, step_of_hmStore hp ha, rfl, s.hm.get_write_known a v, fun hb => ?_, fun hb => step_of_hmLoad_beyond rfl hb⟩
  exact ⟨_, step_of_hmLoad rfl hb, s.hm.get_write_known a v b, rfl⟩

/-! ### The ranges a command writes -/

/-- A word that a write changes lies in the written range. -/
theorem Memory.mem_range_of_write_ne {m : Memory} {addr a : Nat} {v : List HmWord} (h : (m.write addr v).get a ≠ m.get a) :
    addr ≤ a ∧ a < addr + v.length := by
  by_contra hout
  exact h (Memory.get_write_outside m addr v a (by omega))

section
variable {s t : State} {a : Nat}

/-- A DCT command writes its data range and its scratch range. -/
theorem dctEffect_writes {f : List Word → List Word} {n : Nat} (hf : ∀ x, (f x).length = n)
    (hne : (dctEffect f n s).hm.get a ≠ s.hm.get a) :
    (s.ptr0 ≤ a ∧ a < s.ptr0 + n) ∨ (s.ptr1 ≤ a ∧ a < s.ptr1 + n) := by
  by_contra hnot
  refine hne ((Memory.get_write_outside _ _ _ a ?_).trans (Memory.get_write_outside _ _ _ a ?_))
  · rw [length_freeWords]
    omega
  · rw [length_settleWords, hf]
    omega

theorem dctProcess_writes {f : Nat → List Word → List Word} {i : InstNo} (h : s.Inv)
    (hf : ∀ n, (∃ d, n = 2 ^ (d + 1)) → ∀ x, (f n x).length = n) (he : dctProcess f i s = .next t)
    (hne : t.hm.get a ≠ s.hm.get a) :
    ∃ d, s.dctAt i = .configured d ∧ ((s.ptr0 ≤ a ∧ a < s.ptr0 + d.n) ∨ (s.ptr1 ≤ a ∧ a < s.ptr1 + d.n)) := by
  obtain ⟨d, hd, -, rfl⟩ | ⟨d, -, -, rfl⟩ | ⟨-, rfl⟩ := dctProcess_cases he
  · have hlen : dctLengthOk s.cfg d.n = true := (h.dctSlots.of_configured hd).2
    obtain ⟨hpow, htwo, -⟩ := (dctLengthOk_iff s.cfg d.n).1 hlen
    exact ⟨d, hd, dctEffect_writes (hf d.n (isPow2_succ ((isPow2_iff d.n).2 hpow) htwo)) hne⟩
  · exact absurd rfl hne
  · exact absurd rfl hne

theorem execMdctFwd_writes {i : InstNo} (he : execMdctFwd i s = .next t) (hne : t.hm.get a ≠ s.hm.get a) :
    ∃ m, s.mdctAt i = .configured m ∧ s.ptr1 ≤ a ∧ a < s.ptr1 + 2 * m.b := by
  obtain ⟨m, hm, -, rfl⟩ | ⟨m, -, -, rfl⟩ | ⟨-, rfl⟩ := execMdctFwd_cases he
  · have hrange := Memory.mem_range_of_write_ne hne
    rw [length_settleWords, length_dctForward] at hrange
    exact ⟨m, hm, hrange⟩
  · exact absurd rfl hne
  · exact absurd rfl hne

theorem execMdctInv_writes {i : InstNo} (he : execMdctInv i s = .next t) (hne : t.hm.get a ≠ s.hm.get a) :
    ∃ m, s.mdctAt i = .configured m ∧ s.ptr1 ≤ a ∧ a < s.ptr1 + m.b := by
  obtain ⟨m, hm, -, rfl⟩ | ⟨m, -, -, rfl⟩ | ⟨-, rfl⟩ := execMdctInv_cases he
  · have hrange := Memory.mem_range_of_write_ne hne
    rw [length_settleWords, mdctOut, length_vec] at hrange
    exact ⟨m, hm, hrange⟩
  · exact absurd rfl hne
  · exact absurd rfl hne

/-- `OLA.PROC` writes nothing on `Err` and the block it gives back on `Ok`. -/
theorem olaEffect_writes {i : InstNo} {o : OlaInst} (hne : (olaEffect i o s).hm.get a ≠ s.hm.get a) :
    s.ptr0 ≤ a ∧ a < s.ptr0 + o.b := by
  unfold olaEffect at hne
  dsimp only at hne
  split at hne
  · exact absurd rfl hne
  · have hrange := Memory.mem_range_of_write_ne hne
    rwa [length_settleWords, length_olaProcess] at hrange

theorem execOlaProc_writes {i : InstNo} (he : execOlaProc i s = .next t) (hne : t.hm.get a ≠ s.hm.get a) :
    ∃ o, s.olaAt i = .configured o ∧ s.ptr0 ≤ a ∧ a < s.ptr0 + o.b := by
  obtain ⟨o, ho, -, rfl⟩ | ⟨o, -, -, rfl⟩ | ⟨-, rfl⟩ := execOlaProc_cases he
  · exact ⟨o, ho, olaEffect_writes hne⟩
  · exact absurd rfl hne
  · exact absurd rfl hne

/-- A word that a `SEG.PROC` changes lies in the row of a processed channel. -/
theorem segEffect_writes {g : SegInst} {p : Nat} (hne : (segEffect g p s).hm.get a ≠ s.hm.get a) :
    ∃ c < p, s.segOps.addr c ≤ a ∧ a < s.segOps.addr c + s.segOps.n := by
  by_contra hnone
  refine hne (segEffect_hm g p s a fun c hc => ?_)
  by_contra hin
  exact hnone ⟨c, hc, by omega⟩

theorem execSegProc_writes (he : execSegProc s = .next t) (hne : t.hm.get a ≠ s.hm.get a) :
    ∃ g, s.seg = .configured g ∧
      ∃ c < s.procChans g, s.segOps.addr c ≤ a ∧ a < s.segOps.addr c + s.segOps.n := by
  obtain ⟨g, hg, -, -, -, rfl⟩ | ⟨g, -, -, rfl⟩ | ⟨g, -, -, -, rfl⟩ | ⟨g, -, -, -, -, rfl⟩ | ⟨-, rfl⟩ := execSegProc_cases he
  · exact ⟨g, hg, segEffect_writes hne⟩
  · exact absurd rfl hne
  · exact absurd rfl hne
  · exact absurd rfl hne
  · exact absurd rfl hne

/-- `SYS.RESET` and the construction commands leave HM as it was (rules R101 to R108). -/
theorem exec_keeps_hm_of_constructs {i : Instr} (hi : Constructs i) (he : exec i s = .next t) : t.hm = s.hm := by
  cases i with
  | sysReset => exact execSysReset_cases he ▸ rfl
  | dctCfg i => obtain ⟨-, rfl⟩ | ⟨-, rfl⟩ := execDctCfg_cases he <;> rfl
  | mdctCfg i => obtain ⟨-, rfl⟩ | ⟨-, rfl⟩ := execMdctCfg_cases he <;> rfl
  | olaCfg i pre post => obtain ⟨-, -, rfl⟩ | ⟨-, rfl⟩ | ⟨-, -, rfl⟩ := execOlaCfg_cases he <;> rfl
  | segCfgExt => obtain ⟨-, rfl⟩ | ⟨-, rfl⟩ := execSegCfgExt_cases he <;> rfl
  | segCfgOla pre post => obtain ⟨-, -, -, rfl⟩ | ⟨-, rfl⟩ | ⟨-, -, -, rfl⟩ := execSegCfgOla_cases he <;> rfl
  | dctFwd | dctInv | mdctFwd | mdctInv | olaProc | segProc => exact hi.elim

end

/-- Settles O36: the construction commands keep HM, and each processing command has its own lemma. The invariant serves the
DCT commands only: the image of an inverse transform has as many samples as its range when the length is a power of two. -/
theorem commandsWriteOnlyTheirRanges : Obligations.CommandsWriteOnlyTheirRanges := by
  unfold Obligations.CommandsWriteOnlyTheirRanges
  intro i s t a h he hne
  have hkept : ¬ Constructs i := fun hi => hne (by rw [exec_keeps_hm_of_constructs hi he])
  cases i with
  | dctFwd i => exact dctProcess_writes h (fun n _ x => length_dctForward _ n x) he hne
  | dctInv i => exact dctProcess_writes h (fun n hn x => length_dctInverse _ x hn) he hne
  | mdctFwd i => exact execMdctFwd_writes he hne
  | mdctInv i => exact execMdctInv_writes he hne
  | olaProc i => exact execOlaProc_writes he hne
  | segProc => exact execSegProc_writes he hne
  | sysReset | dctCfg | mdctCfg | olaCfg | segCfgExt | segCfgOla => exact absurd trivial hkept

end Sys2Proof.Machine
end

