-- ==== Sys2Proof/Proofs/CommandWords.lean ====
section
/-! The decoder and the encoder are each other's inverses (rules R81 to R84). A word matches a row of table T84 exactly when it is
the word of the command that the row reads from it (`accepts_iff_encode_read`); with the rows exclusive, both directions follow. -/
namespace Sys2Proof.Machine

/-! ### The fields of a word of format CW -/

theorem instField_cw (unit op : BitVec 4) (inst : InstNo) (inner post pre : Bool) :
    instField (cw unit op inst inner post pre) = inst := by
  obtain ⟨-, -, hinst, -⟩ := Laws.Format.cw_fields unit op inst inner post pre
  exact hinst

theorem flags_cw (unit op : BitVec 4) (inst : InstNo) (inner post pre : Bool) :
    (cw unit op inst inner post pre).getLsbD 2 = inner ∧ postFlag (cw unit op inst inner post pre) = post ∧
      preFlag (cw unit op inst inner post pre) = pre := by
  simp only [cw, postFlag, preFlag, BitVec.getLsbD_append]
  simp

/-- Every word is its fields, the reserved one among them, in the order of format CW. -/
theorem word_eq_fields (w : Word) :
    w = w.extractLsb' 28 4 ++ w.extractLsb' 24 4 ++ instField w ++ w.extractLsb' 3 13 ++ BitVec.ofBool (w.getLsbD 2) ++
      BitVec.ofBool (postFlag w) ++ BitVec.ofBool (preFlag w) := by
  have hbit (k : Nat) : BitVec.ofBool (w.getLsbD k) = w.extractLsb' k 1 := by
    apply BitVec.eq_of_getLsbD_eq
    simp
  rw [instField, postFlag, preFlag, hbit, hbit, hbit]
  repeat rw [BitVec.extractLsb'_append_extractLsb'_eq_extractLsb' (by decide)]
  exact BitVec.extractLsb'_eq_self.symm

theorem word_eq_cw {w : Word} (h : w.extractLsb' 3 13 = 0#13) :
    w = cw (w.extractLsb' 28 4) (w.extractLsb' 24 4) (instField w) (w.getLsbD 2) (postFlag w) (preFlag w) := by
  rw [cw, ← h]
  exact word_eq_fields w

/-! ### The rows of table T84 -/

/-- The bits that a row's mask leaves open (rule R84): `INST` where the row has `ii`, and `POST` and `PRE` where it has them. -/
def openBits (inst flags : Bool) : Word := cw 0 0 (bif inst then 0xFF else 0) false flags flags

theorem and_openBits (w : Word) (inst flags : Bool) :
    w &&& openBits inst flags =
      cw 0 0 (bif inst then instField w else 0) false (flags && postFlag w) (flags && preFlag w) := by
  have hinst : instField w &&& (bif inst then 0xFF#8 else 0#8) = bif inst then instField w else 0#8 := by
    cases inst
    · exact BitVec.and_zero
    · exact BitVec.and_allOnes
  conv_lhs => rw [word_eq_fields w]
  unfold openBits cw
  repeat refine Eq.trans BitVec.and_append (congrArg₂ _ ?_ ?_)
  all_goals simp [hinst, Bool.and_comm]

theorem or_cw (unit op : BitVec 4) (inst : InstNo) (inner post pre : Bool) :
    cw unit op 0 inner false false ||| cw 0 0 inst false post pre = cw unit op inst inner post pre := by
  unfold cw
  repeat refine Eq.trans BitVec.or_append (congrArg₂ _ ?_ ?_)
  all_goals simp

/-- A word agrees with a pattern outside the open bits when it is the pattern completed by the word's own open bits. -/
theorem and_not_eq_iff_or_eq {n : Nat} {w bits pattern : BitVec n} (h : pattern &&& bits = 0#n) :
    w &&& ~~~bits = pattern ↔ pattern ||| (w &&& bits) = w := by
  have hsplit (v : BitVec n) : v &&& ~~~bits ||| v &&& bits = v := by
    rw [← BitVec.and_or_distrib_left, BitVec.or_comm, BitVec.or_not_self, BitVec.and_allOnes]
  constructor
  · rintro rfl
    exact hsplit w
  · intro hw
    have hpattern : pattern &&& ~~~bits = pattern := by simpa [h] using hsplit pattern
    have hopen : w &&& bits &&& ~~~bits = 0#n := by simp [BitVec.and_assoc]
    rw [← hw, BitVec.and_comm, BitVec.and_or_distrib_left, BitVec.and_comm, hpattern, BitVec.and_comm, hopen, BitVec.or_zero]

/-- The word of the command that a row reads from `w` is the row's pattern completed by the open bits of `w`. -/
theorem accepts_iff {r : OpRow} (unit op : BitVec 4) (inner inst flags : Bool)
    (hmask : r.mask = ~~~openBits inst flags) (hpattern : r.pattern = cw unit op 0 inner false false)
    (hread : ∀ w, encode (r.read w) =
      cw unit op (bif inst then instField w else 0) inner (flags && postFlag w) (flags && preFlag w)) (w : Word) :
    r.accepts w = true ↔ encode (r.read w) = w := by
  have hclosed : cw unit op 0 inner false false &&& openBits inst flags = 0#32 := by
    obtain ⟨-, hpost, hpre⟩ := flags_cw unit op 0 inner false false
    rw [and_openBits, instField_cw, hpost, hpre]
    cases inst <;> cases flags <;> rfl
  rw [OpRow.accepts, beq_iff_eq, hmask, hpattern, and_not_eq_iff_or_eq hclosed, and_openBits, or_cw, hread]

/-- Table T84: for each row its `UNIT`, `OP` and `INNER`, and whether `INST` and the flags are open. -/
theorem accepts_iff_encode_read : ∀ r ∈ opTable, ∀ w, r.accepts w = true ↔ encode (r.read w) = w := by
  simp only [opTable, List.forall_mem_cons]
  exact ⟨accepts_iff 0 1 false false false rfl rfl fun _ => rfl,
    accepts_iff 1 0 false true false rfl rfl fun _ => rfl,
    accepts_iff 1 1 false true false rfl rfl fun _ => rfl,
    accepts_iff 1 2 false true false rfl rfl fun _ => rfl,
    accepts_iff 2 0 false true false rfl rfl fun _ => rfl,
    accepts_iff 2 1 false true false rfl rfl fun _ => rfl,
    accepts_iff 2 2 false true false rfl rfl fun _ => rfl,
    accepts_iff 3 0 false true true rfl rfl fun _ => rfl,
    accepts_iff 3 1 false true false rfl rfl fun _ => rfl,
    accepts_iff 4 0 false false false rfl rfl fun _ => rfl,
    accepts_iff 4 0 true false true rfl rfl fun _ => rfl,
    accepts_iff 4 1 false false false rfl rfl fun _ => rfl, List.forall_mem_nil _⟩

/-- Settles O3: the patterns of two rows that match one word agree on the bits of both masks, and those of no two rows do. -/
theorem tableRowsExclusive : Obligations.TableRowsExclusive := by
  unfold Obligations.TableRowsExclusive
  have hdiffer : opTable.Pairwise fun r q => r.pattern &&& q.mask ≠ q.pattern &&& r.mask := by decide
  refine hdiffer.imp fun {r q} hne w hboth => hne ?_
  simp only [OpRow.accepts, beq_iff_eq] at hboth
  obtain ⟨hr, hq⟩ := hboth
  rw [← hr, ← hq, BitVec.and_assoc, BitVec.and_assoc, BitVec.and_comm r.mask]

/-! ### The decoder -/

/-- The row that a word matches is the one the decoder reads: no row before it matches the word. -/
theorem decode_of_accepts {r : OpRow} {w : Word} (hr : r ∈ opTable) (hw : r.accepts w = true) :
    decode w = .ok (r.read w) := by
  obtain ⟨before, after, htable⟩ := List.append_of_mem hr
  have hexclusive := tableRowsExclusive
  rw [Obligations.TableRowsExclusive, htable, List.pairwise_append] at hexclusive
  obtain ⟨-, -, hbefore⟩ := hexclusive
  have hfind : opTable.find? (fun q => q.accepts w) = some r := by
    refine List.find?_eq_some_iff_append.2 ⟨hw, before, after, htable, fun q hq => ?_⟩
    simpa [hw] using hbefore q hq r List.mem_cons_self w
  rw [decode, hfind]

theorem row_of_decode {w : Word} {i : Instr} (h : decode w = .ok i) :
    ∃ r ∈ opTable, r.accepts w = true ∧ r.read w = i := by
  unfold decode at h
  split at h
  · next r hfind =>
    exact ⟨r, List.mem_of_find?_eq_some hfind, by simpa using List.find?_some hfind, Except.ok.inj h⟩
  · cases h

/-- Table T84 has a row for every command, which reads the command's arguments back from its word. -/
theorem exists_row_of_instr (i : Instr) : ∃ r ∈ opTable, r.read (encode i) = i := by
  cases i <;> simp [opTable, encode, instField_cw, flags_cw]

theorem decode_encode (i : Instr) : decode (encode i) = .ok i := by
  obtain ⟨r, hr, hread⟩ := exists_row_of_instr i
  have haccepts : r.accepts (encode i) = true := (accepts_iff_encode_read r hr _).2 (congrArg encode hread)
  rw [decode_of_accepts hr haccepts, hread]

theorem encode_of_decode {w : Word} {i : Instr} (h : decode w = .ok i) : encode i = w := by
  obtain ⟨r, hr, haccepts, rfl⟩ := row_of_decode h
  exact (accepts_iff_encode_read r hr w).1 haccepts

theorem classify_encode {ninst : Nat} {i : Instr} (h : i.wf ninst = true) : classify ninst (encode i) = .ok i := by
  simp only [classify, decode_encode, h, if_true]

/-- Settles O1: `decode_encode`, and the check of rule R83 on top of it. -/
theorem decodeAfterEncode : Obligations.DecodeAfterEncode := by
  unfold Obligations.DecodeAfterEncode
  exact fun i => ⟨decode_encode i, fun _ => classify_encode⟩

/-- Settles O2: `encode_of_decode`. -/
theorem encodeAfterDecode : Obligations.EncodeAfterDecode := by
  unfold Obligations.EncodeAfterDecode
  exact fun _ _ => encode_of_decode

end Sys2Proof.Machine
end

