-- ==== Sys2Proof/Proofs/IllegalWords.lean ====
section
/-! The illegal words of rule R87. A word is legal exactly when it is the word of a command with `INST < NINST`
(`classify_eq_ok_iff`); so the conditions of rule R87 need only be compared with the fields of the twelve commands' words. -/
namespace Sys2Proof.Machine

/-! ### The legal words -/

theorem decode_of_classify {ninst : Nat} {w : Word} {i : Instr} (h : classify ninst w = .ok i) : decode w = .ok i := by
  unfold classify at h
  split at h
  · next hdecode =>
    split at h
    · exact hdecode.trans h
    · cases h
  · cases h

theorem classify_eq_ok_iff {ninst : Nat} {w : Word} {i : Instr} :
    classify ninst w = .ok i ↔ encode i = w ∧ i.wf ninst = true := by
  constructor
  · exact fun h => ⟨encode_of_decode (decode_of_classify h), wf_of_classify h⟩
  · rintro ⟨rfl, h⟩
    exact classify_encode h

theorem classify_error_iff {ninst : Nat} {w : Word} :
    (∃ e, classify ninst w = .error e) ↔ ¬∃ i : Instr, encode i = w ∧ i.wf ninst = true := by
  simp only [← classify_eq_ok_iff]
  cases classify ninst w <;> simp

/-! ### The conditions of rule R87 -/

/-- Rule R87 in the fields of a word; `flags` says whether `PRE` or `POST` is set. -/
def IllegalFields (ninst unit op inst : Nat) (reserved : BitVec 13) (inner flags : Bool) : Prop :=
  5 ≤ unit ∨
    (unit = 0 ∧ op ≠ 1) ∨ ((unit = 1 ∨ unit = 2) ∧ 3 ≤ op) ∨ ((unit = 3 ∨ unit = 4) ∧ 2 ≤ op) ∨
    reserved ≠ 0#13 ∨
    (inner = true ∧ ¬ (unit = 4 ∧ op = 0)) ∨
    (flags = true ∧ ¬ (unit = 3 ∧ op = 0) ∧ ¬ (unit = 4 ∧ op = 0 ∧ inner = true)) ∨
    ((unit = 1 ∨ unit = 2 ∨ unit = 3) ∧ ninst ≤ inst) ∨ ((unit = 0 ∨ unit = 4) ∧ inst ≠ 0)

/-- Rule R87 of a word: the right side of the statement `Obligations.IllegalWordsAreThose`. -/
def IllegalWord (ninst : Nat) (w : Word) : Prop :=
  IllegalFields ninst (w.extractLsb' 28 4).toNat (w.extractLsb' 24 4).toNat (w.extractLsb' 16 8).toNat (w.extractLsb' 3 13)
    (w.getLsbD 2) (w.getLsbD 1 || w.getLsbD 0)

theorem illegalWord_cw (ninst : Nat) (unit op : BitVec 4) (inst : InstNo) (inner post pre : Bool) :
    IllegalWord ninst (cw unit op inst inner post pre) ↔
      IllegalFields ninst unit.toNat op.toNat inst.toNat 0#13 inner (post || pre) := by
  obtain ⟨hunit, hop, hinst, hreserved⟩ := Laws.Format.cw_fields unit op inst inner post pre
  obtain ⟨hinner, hpost, hpre⟩ := flags_cw unit op inst inner post pre
  rw [instField] at hinst
  rw [postFlag] at hpost
  rw [preFlag] at hpre
  rw [IllegalWord, hunit, hop, hinst, hreserved, hinner, hpost, hpre]

theorem not_illegalWord_encode {ninst : Nat} {i : Instr} (h : i.wf ninst = true) : ¬IllegalWord ninst (encode i) := by
  cases i with
  | sysReset | segCfgExt | segCfgOla | segProc => simp [encode, illegalWord_cw, IllegalFields]
  | dctCfg | dctFwd | dctInv | mdctCfg | mdctFwd | mdctInv | olaCfg | olaProc =>
    simpa [encode, illegalWord_cw, IllegalFields] using of_decide_eq_true h

/-- Fields that meet no condition of rule R87 are those of a command: by unit, then by operation (columns UNIT, OP and flags of
table T84). -/
theorem exists_encode_of_not_illegalFields {ninst : Nat} {unit op : BitVec 4} {inst : InstNo} {inner post pre : Bool}
    (h : ¬IllegalFields ninst unit.toNat op.toNat inst.toNat 0#13 inner (post || pre)) :
    ∃ i : Instr, encode i = cw unit op inst inner post pre ∧ i.wf ninst = true := by
  have hunit : unit = 0#4 ∨ unit = 1#4 ∨ unit = 2#4 ∨ unit = 3#4 ∨ unit = 4#4 := by
    have : ¬5 ≤ unit.toNat := fun hu => h (.inl hu)
    bv_omega
  rcases hunit with rfl | rfl | rfl | rfl | rfl
  · obtain ⟨hop, rfl, ⟨rfl, rfl⟩, hinst⟩ :
        op.toNat = 1 ∧ inner = false ∧ (post = false ∧ pre = false) ∧ inst.toNat = 0 := by simpa [IllegalFields] using h
    obtain rfl : op = 1#4 := BitVec.eq_of_toNat_eq hop
    obtain rfl : inst = 0#8 := BitVec.eq_of_toNat_eq hinst
    exact ⟨.sysReset, rfl, rfl⟩
  · obtain ⟨hop, rfl, ⟨rfl, rfl⟩, hinst⟩ :
        op.toNat < 3 ∧ inner = false ∧ (post = false ∧ pre = false) ∧ inst.toNat < ninst := by simpa [IllegalFields] using h
    obtain rfl | rfl | rfl : op = 0#4 ∨ op = 1#4 ∨ op = 2#4 := by bv_omega
    · exact ⟨.dctCfg inst, rfl, decide_eq_true hinst⟩
    · exact ⟨.dctFwd inst, rfl, decide_eq_true hinst⟩
    · exact ⟨.dctInv inst, rfl, decide_eq_true hinst⟩
  · obtain ⟨hop, rfl, ⟨rfl, rfl⟩, hinst⟩ :
        op.toNat < 3 ∧ inner = false ∧ (post = false ∧ pre = false) ∧ inst.toNat < ninst := by simpa [IllegalFields] using h
    obtain rfl | rfl | rfl : op = 0#4 ∨ op = 1#4 ∨ op = 2#4 := by bv_omega
    · exact ⟨.mdctCfg inst, rfl, decide_eq_true hinst⟩
    · exact ⟨.mdctFwd inst, rfl, decide_eq_true hinst⟩
    · exact ⟨.mdctInv inst, rfl, decide_eq_true hinst⟩
  · obtain ⟨hop, rfl, hflags, hinst⟩ :
        op.toNat ≤ 1 ∧ inner = false ∧ (post = true ∨ pre = true → op.toNat = 0) ∧ inst.toNat < ninst := by
      simpa [IllegalFields] using h
    obtain rfl | rfl : op = 0#4 ∨ op = 1#4 := by bv_omega
    · exact ⟨.olaCfg inst pre post, rfl, decide_eq_true hinst⟩
    · obtain ⟨rfl, rfl⟩ : post = false ∧ pre = false := by simpa using hflags
      exact ⟨.olaProc inst, rfl, decide_eq_true hinst⟩
  · obtain ⟨hop, hinner, hflags, hinst⟩ : op.toNat ≤ 1 ∧ (inner = true → op.toNat = 0) ∧
        (post = true ∨ pre = true → op.toNat = 0 ∧ inner = true) ∧ inst.toNat = 0 := by simpa [IllegalFields] using h
    obtain rfl : inst = 0#8 := BitVec.eq_of_toNat_eq hinst
    obtain rfl | rfl : op = 0#4 ∨ op = 1#4 := by bv_omega
    · cases inner with
      | true => exact ⟨.segCfgOla pre post, rfl, rfl⟩
      | false =>
        obtain ⟨rfl, rfl⟩ : post = false ∧ pre = false := by simpa using hflags
        exact ⟨.segCfgExt, rfl, rfl⟩
    · obtain rfl : inner = false := by simpa using hinner
      obtain ⟨rfl, rfl⟩ : post = false ∧ pre = false := by simpa using hflags
      exact ⟨.segProc, rfl, rfl⟩

theorem exists_encode_of_not_illegalWord {ninst : Nat} {w : Word} (h : ¬IllegalWord ninst w) :
    ∃ i : Instr, encode i = w ∧ i.wf ninst = true := by
  have hreserved : w.extractLsb' 3 13 = 0#13 := by
    by_contra hne
    exact h (.inr (.inr (.inr (.inr (.inl hne)))))
  rw [word_eq_cw hreserved] at h ⊢
  exact exists_encode_of_not_illegalFields (mt (illegalWord_cw ..).2 h)

/-- Settles O4: a legal word is the word of a command, which meets none of the conditions; and a word that meets none is the word
of a command. -/
theorem illegalWordsAreThose : Obligations.IllegalWordsAreThose := by
  unfold Obligations.IllegalWordsAreThose
  intro ninst w
  change _ ↔ IllegalWord ninst w
  rw [classify_error_iff]
  constructor
  · exact fun hnone => by_contra fun hlegal => hnone (exists_encode_of_not_illegalWord hlegal)
  · rintro hillegal ⟨i, rfl, hwf⟩
    exact not_illegalWord_encode hwf hillegal

end Sys2Proof.Machine
end

