-- ==== Sys2Proof/Proofs/Construction.lean ====
section
/-! The construction commands (40_config.md) and `SYS.RESET` (rule R101): what each answers for each outcome of its checks, and what
a freshly built slot holds (rule R51). -/
namespace Sys2Proof.Machine
open Sys2Proof.Stated

/-! ### Command words, with the fields put together as table T84 prints them -/

theorem cw_eq_append (unit op : BitVec 4) (inst : InstNo) (inner post pre : Bool) : cw unit op inst inner post pre =
    unit ++ op ++ inst ++ (0#13 ++ BitVec.ofBool inner ++ BitVec.ofBool post ++ BitVec.ofBool pre) := by
  simp only [cw, BitVec.append_assoc, BitVec.cast_eq]

theorem decode_of_encode_eq {w : Word} {i : Instr} (h : encode i = w) : decode w = .ok i := h ▸ decode_encode i

/-! ### Slots -/

/-- A construction leaves the other instances of its class as they were. -/
theorem Cells.get_set_otherInst {α : Type} [DecidableEq α] (d : α) (m : Cells α) {i j : InstNo} (x : α) (h : j ≠ i) :
    Cells.get d (Cells.set d m i.toNat x) j.toNat = Cells.get d m j.toNat :=
  Cells.get_set_other d m x (mt BitVec.eq_of_toNat_eq h)

/-! ### Fresh instances (rule R51) -/

theorem OlaInst.fresh_fixed (tick i b : Nat) (pre post : Bool) (w : List Word) :
    (OlaInst.fresh tick i b pre post w).b = b ∧ (OlaInst.fresh tick i b pre post w).pre = pre ∧
      (OlaInst.fresh tick i b pre post w).post = post := by
  unfold OlaInst.fresh
  split <;> exact ⟨rfl, rfl, rfl⟩

/-- With a finite window nothing is under U1: the window is the one given, and the buffers are zero. -/
theorem OlaInst.fresh_of_finite (tick i b : Nat) (pre post : Bool) {w : List Word} (hw : allFinite w = true) :
    OlaInst.fresh tick i b pre post w =
      { b := b, pre := pre, post := post, w := w, inBuf := List.replicate (2 * b) zeroSample,
        outCarry := List.replicate b zeroSample, taint := false } := by
  simp only [OlaInst.fresh, settle, hw, if_true]

theorem SegInst.fresh_chans (tick b n : Nat) (inner : Binding) : (SegInst.fresh true tick b n inner).chans =
    List.replicate n { ovf := List.replicate b zeroSample, fill := 0, taint := false } := by
  simp [SegInst.fresh, Chan.fresh, settle, vec, List.map_const']

/-! ### The checks, in their order (rules R106, R108) -/

section
variable {s : State} {pre post : Bool}

theorem windowRangeOk_eq_false_iff (b : Nat) : windowRangeOk s b = false ↔ s.cfg.hmsize < s.ptr0 + 2 * b := by
  rw [← Bool.not_eq_true, windowRangeOk_iff, Nat.not_le]

theorem execOlaCfg_config {i : InstNo} (hsize : blockSizeOk s.cfg s.len = false) :
    execOlaCfg i pre post s = .next (s.raise .config) := by
  simp [execOlaCfg, hsize]

theorem execOlaCfg_operand {i : InstNo} (hsize : blockSizeOk s.cfg s.len = true) (hwin : windowRangeOk s s.len = false) :
    execOlaCfg i pre post s = .next (s.raise .operand) := by
  simp [execOlaCfg, hsize, hwin]

theorem execOlaCfg_ok {i : InstNo} (hsize : blockSizeOk s.cfg s.len = true) (hwin : windowRangeOk s s.len = true) :
    execOlaCfg i pre post s = .next (s.putOla i (.configured
      (OlaInst.fresh s.tick i.toNat s.len pre post (s.memRead s.ptr0 (2 * s.len))))).complete := by
  simp [execOlaCfg, hsize, hwin]

/-- The configuration check of `SEG.CFG.OLA`. -/
theorem segCfgOlaSizeOk_iff (c : Config) (b n : Nat) :
    (segSizeOk c b n && isPow2 b) = true ↔ PowerOfTwo b ∧ 1 ≤ b ∧ b ≤ c.bmax ∧ 1 ≤ n ∧ n ≤ c.ninst := by
  rw [Bool.and_eq_true, segSizeOk_iff, isPow2_iff, and_comm, PowerOfTwo]

theorem execSegCfgOla_config (hsize : (segSizeOk s.cfg s.len s.nch && isPow2 s.len) = false) :
    execSegCfgOla pre post s = .next (s.raise .config) := by
  simp only [execSegCfgOla, hsize, Bool.not_false, if_true]

theorem execSegCfgOla_operand (hsize : (segSizeOk s.cfg s.len s.nch && isPow2 s.len) = true)
    (hwin : windowRangeOk s s.len = false) : execSegCfgOla pre post s = .next (s.raise .operand) := by
  simp [execSegCfgOla, hsize, hwin]

theorem execSegCfgOla_ok (hsize : (segSizeOk s.cfg s.len s.nch && isPow2 s.len) = true)
    (hwin : windowRangeOk s s.len = true) : execSegCfgOla pre post s = .next (segCfgOlaEffect pre post s) := by
  simp [execSegCfgOla, hsize, hwin]

end

/-! ### The construction commands -/

/-- Settles O13: the check of rule R102 decides between its two outcomes. -/
theorem dctCfgConstructs : Obligations.DctCfgConstructs := by
  unfold Obligations.DctCfgConstructs
  refine ⟨fun i => decode_of_encode_eq (cw_eq_append 1 0 i false false false), fun i s => ⟨fun hgood => ?_, fun hbad => ?_⟩⟩
  · exact ⟨_, if_pos ((dctLengthOk_iff _ _).2 hgood), rfl, Cells.get_set_same .., fun _ => Cells.get_set_otherInst _ _ _, rfl⟩
  · exact if_neg (mt (dctLengthOk_iff _ _).1 hbad)

/-- Settles O14: the check of rule R104 decides between its two outcomes. -/
theorem mdctCfgConstructs : Obligations.MdctCfgConstructs := by
  unfold Obligations.MdctCfgConstructs
  refine ⟨fun i => decode_of_encode_eq (cw_eq_append 2 0 i false false false), fun i s => ⟨fun hgood => ?_, fun hbad => ?_⟩⟩
  · exact ⟨_, if_pos ((blockSizeOk_iff _ _).2 hgood), rfl, Cells.get_set_same .., fun _ => Cells.get_set_otherInst _ _ _, rfl⟩
  · exact if_neg (mt (blockSizeOk_iff _ _).1 hbad)

/-- Settles O15: the checks of rule R106 in their order, and the fresh wrapper. -/
theorem olaCfgConstructs : Obligations.OlaCfgConstructs := by
  unfold Obligations.OlaCfgConstructs
  refine ⟨fun i pre post => decode_of_encode_eq (cw_eq_append 3 0 i false post pre), fun i pre post s => ?_⟩
  intro good
  have hsize : blockSizeOk s.cfg s.len = true ↔ good := blockSizeOk_iff _ _
  refine ⟨fun hbad => ?_, fun hgood hwin => ?_, fun hgood hwin => ?_⟩
  · exact execOlaCfg_config (Bool.eq_false_iff.2 (mt hsize.1 hbad))
  · exact execOlaCfg_operand (hsize.2 hgood) ((windowRangeOk_eq_false_iff _).2 hwin)
  · obtain ⟨hb, hpre, hpost⟩ := OlaInst.fresh_fixed s.tick i.toNat s.len pre post (s.memRead s.ptr0 (2 * s.len))
    refine ⟨_, _, execOlaCfg_ok (hsize.2 hgood) ((windowRangeOk_iff _ _).2 hwin), rfl, olaSlot_putOla_same .., hb, hpre, hpost,
      fun _ => Cells.get_set_otherInst _ _ _, rfl, fun hfinite => ?_⟩
    rw [OlaInst.fresh_of_finite _ _ _ _ _ hfinite]
    exact ⟨rfl, rfl, rfl, rfl⟩

/-- Settles O16: the check of rule R107 decides between its two outcomes. -/
theorem segCfgExtConstructs : Obligations.SegCfgExtConstructs := by
  unfold Obligations.SegCfgExtConstructs
  refine ⟨decode_of_encode_eq rfl, fun s => ⟨fun hgood => ?_, fun hbad => ?_⟩⟩
  · refine ⟨_, if_pos ((segSizeOk_iff _ _ _).2 hgood), rfl, ?_, rfl⟩
    exact congrArg (fun chans => Slot.configured (SegInst.mk _ _ _ chans)) (SegInst.fresh_chans _ _ _ .ext)
  · exact if_neg (mt (segSizeOk_iff _ _ _).1 hbad)

/-- Settles O17: the checks of rule R108 in their order; the wrappers bound are those that `OLA.CFG` constructs, since its checks
are among those of `SEG.CFG.OLA`. -/
theorem segCfgOlaConstructs : Obligations.SegCfgOlaConstructs := by
  unfold Obligations.SegCfgOlaConstructs
  refine ⟨fun pre post => decode_of_encode_eq rfl, fun pre post s => ?_⟩
  intro good
  have hsize : (segSizeOk s.cfg s.len s.nch && isPow2 s.len) = true ↔ good := segCfgOlaSizeOk_iff _ _ _
  refine ⟨fun hbad => ?_, fun hgood hwin => ?_, fun hgood hwin => ?_⟩
  · exact execSegCfgOla_config (Bool.eq_false_iff.2 (mt hsize.1 hbad))
  · exact execSegCfgOla_operand (hsize.2 hgood) ((windowRangeOk_eq_false_iff _).2 hwin)
  · have hwindow : windowRangeOk s s.len = true := (windowRangeOk_iff _ _).2 hwin
    refine ⟨_, _, execSegCfgOla_ok (hsize.2 hgood) hwindow, rfl, rfl, rfl, rfl, rfl, fun hfinite => ?_, fun c u hc hu => ?_,
      fun c hc => ?_, rfl⟩
    · rw [hfinite]
      exact SegInst.fresh_chans ..
    · obtain ⟨hpow, hb, hmax, -⟩ := hgood
      have hblock : blockSizeOk s.cfg s.len = true := (blockSizeOk_iff _ _).2 ⟨hpow, hb, hmax⟩
      obtain rfl := Host.Outcome.next.inj ((execOlaCfg_ok hblock hwindow).symm.trans hu)
      exact ((Frame.olaSlot_bindWrappers ..).trans (if_pos hc)).trans (olaSlot_putOla_same ..).symm
    · exact (Frame.olaSlot_bindWrappers ..).trans (if_neg (Nat.not_lt.2 hc))

/-! ### Reset -/

/-- Reset gives every field it sets a constant. -/
theorem State.resetBlock_resetBlock (s : State) : s.resetBlock.resetBlock = s.resetBlock := by
  cases s
  rfl

/-- Settles O11: `SYS.RESET` is `resetBlock`, which is idempotent. -/
theorem resetGivesSpecifiedState : Obligations.ResetGivesSpecifiedState := by
  unfold Obligations.ResetGivesSpecifiedState
  exact ⟨blockReset_resetBlock State.reset, decode_of_encode_eq rfl,
    fun s => ⟨s.resetBlock, rfl, blockReset_resetBlock s, rfl, ⟨rfl, rfl, rfl, rfl⟩,
      congrArg Host.Outcome.next s.resetBlock_resetBlock⟩⟩

end Sys2Proof.Machine
end

