-- ==== Sys2Proof/Proofs/SegInner.lean ====
section
/-! `seg_inner` (rule R125) in the words of the statements: the one invocation it makes, and the channel it leaves, for each
binding and each answer of the inner processor. -/
namespace Sys2Proof.Machine
open Sys2Proof.Stated

/-- The invocation that `seg_inner` makes for the complete block of channel `c`. -/
def innerCall (e : SegEnv) (c : Nat) (r : ChanRun) : PortRun := callPort e.cfg (handed e c r).1 (handed e c r).2 e.env r.ip

section
variable {e : SegEnv} {c : Nat} {r : ChanRun}

/-! ### What is handed over -/

theorem handed_port (h : r.wrapper = none) : handed e c r = (.seg c, settle r.ok e.tick (.portIn r.ip.calls) r.ovf) := by
  simp only [handed, h]

/-- The model's steps 1 and 2 of `ola_process` are the statements'. -/
theorem olaWork_eq_handedOver (cfg : Config) (o : OlaInst) (blk : List Word) : olaWork cfg o blk = handedOver o blk := rfl

theorem handed_wrapper {o : OlaInst} (h : r.wrapper = some o) :
    handed e c r = (.ola c, settle (olaOkIn e.cfg o r.ovf r.ok) e.tick (.portIn r.ip.calls) (handedOver o r.ovf)) := by
  simp only [handed, h]
  rfl

theorem innerCall_port (h : r.wrapper = none) (hok : r.ok = true) :
    innerCall e c r = callPort e.cfg (.seg c) r.ovf e.env r.ip := by
  simp only [innerCall, handed_port h, hok, settle_true]

theorem innerCall_wrapper {o : OlaInst} (h : r.wrapper = some o) (hok : olaOkIn e.cfg o r.ovf r.ok = true) :
    innerCall e c r = callPort e.cfg (.ola c) (handedOver o r.ovf) e.env r.ip := by
  simp only [innerCall, handed_wrapper h, hok, settle_true]

/-- The invocation inside `ola_process` is the one the statements speak of. -/
theorem olaCall_eq_innerCall {o : OlaInst} (h : r.wrapper = some o) :
    olaCall e.cfg e.tick c e.env o r.ovf r.ok r.ip = innerCall e c r := by
  simp only [innerCall, handed_wrapper h]
  rfl

/-! ### The channel that `seg_inner` leaves -/

theorem segInner_port_ok {m : Word} (hw : r.wrapper = none) (h : (innerCall e c r).res = .ok m) :
    segInner e c r =
      { r with ovf := (innerCall e c r).out, ip := (innerCall e c r).ip, ok := r.ok && allFinite (innerCall e c r).out } := by
  simp only [innerCall, handed_port hw] at h ⊢
  simp only [segInner, hw, h]

theorem segInner_port_err {d : Word} (hw : r.wrapper = none) (h : (innerCall e c r).res = .err d) :
    segInner e c r = { r with ip := (innerCall e c r).ip, err := some d } := by
  simp only [innerCall, handed_port hw] at h ⊢
  simp only [segInner, hw, h]

theorem segInner_wrapper_ok {o : OlaInst} {m : Word} (hw : r.wrapper = some o) (h : (innerCall e c r).res = .ok m) :
    segInner e c r =
      { r with
        ovf := summed o (innerCall e c r).out, wrapper := some (advanced o r.ovf (innerCall e c r).out),
        ip := (innerCall e c r).ip,
        ok := olaOkIn e.cfg o r.ovf r.ok && allFinite (innerCall e c r).out && allFinite (reweighted o (innerCall e c r).out) &&
          allFinite o.outCarry && allFinite (summed o (innerCall e c r).out) } := by
  rw [← olaCall_eq_innerCall hw] at h ⊢
  simp only [segInner, hw, olaProcess_ok h]
  rfl

theorem segInner_wrapper_err {o : OlaInst} {d : Word} (hw : r.wrapper = some o) (h : (innerCall e c r).res = .err d) :
    segInner e c r =
      { r with wrapper := some (o.spoil e.tick c), ip := (innerCall e c r).ip, ok := olaOkIn e.cfg o r.ovf r.ok,
               err := some d } := by
  rw [← olaCall_eq_innerCall hw] at h ⊢
  simp only [segInner, hw, olaProcess_err h]

/-! ### What holds for both bindings -/

theorem segInner_ip : (segInner e c r).ip = (innerCall e c r).ip := by
  cases hw : r.wrapper with
  | none =>
    cases h : (innerCall e c r).res with
    | ok m => rw [segInner_port_ok hw h]
    | err d => rw [segInner_port_err hw h]
  | some o =>
    cases h : (innerCall e c r).res with
    | ok m => rw [segInner_wrapper_ok hw h]
    | err d => rw [segInner_wrapper_err hw h]

theorem segInner_err_of_ok {m : Word} (h : (innerCall e c r).res = .ok m) : (segInner e c r).err = r.err := by
  cases hw : r.wrapper with
  | none => rw [segInner_port_ok hw h]
  | some o => rw [segInner_wrapper_ok hw h]

theorem segInner_of_err {d : Word} (h : (innerCall e c r).res = .err d) :
    (segInner e c r).err = some d ∧ (segInner e c r).ovf = r.ovf := by
  cases hw : r.wrapper with
  | none => rw [segInner_port_err hw h]; exact ⟨rfl, rfl⟩
  | some o => rw [segInner_wrapper_err hw h]; exact ⟨rfl, rfl⟩

/-- Without an error afterwards the inner processor answered `Ok`. -/
theorem innerCall_res_of_no_err (h : (segInner e c r).err = none) : ∃ m, (innerCall e c r).res = .ok m := by
  cases hr : (innerCall e c r).res with
  | ok m => exact ⟨m, rfl⟩
  | err d => exact absurd (h.symm.trans (segInner_of_err hr).1) nofun

theorem olaFixed_eq_of_same {o q : OlaInst} (h : o.same q) : olaFixed (.configured q) = olaFixed (.configured o) := by
  obtain ⟨hb, hpre, hpost, hw⟩ := h
  simp only [olaFixed, hb, hpre, hpost, hw]

end

/-- Settles O55: `seg_inner` is one of four updates of the channel, by its binding and the answer of the inner processor. -/
theorem segInnerRunsItsBinding : Obligations.SegInnerRunsItsBinding := by
  unfold Obligations.SegInnerRunsItsBinding
  intro e c r
  refine ⟨⟨segInner_ip, segInner_out e c r, segInner_fill e c r, (segInner_wrapper e c r).1, fun o ho => ?_,
    fun m hm => segInner_err_of_ok hm, fun d hd => segInner_of_err hd⟩, fun hok hw => ?_, fun hok o hw htaint hslid hover => ?_⟩
  · obtain ⟨w, hq, hsame⟩ := (segInner_wrapper e c r).2 o ho
    exact ⟨w, hq, olaFixed_eq_of_same hsame⟩
  · intro p
    have hcall : innerCall e c r = p := innerCall_port hw hok
    refine ⟨fun m hm => ?_, fun d hd => ?_⟩
    · rw [segInner_port_ok hw (hcall ▸ hm), hcall, hok, Bool.true_and]
    · rw [segInner_port_err hw (hcall ▸ hd), hcall]
  · intro p
    have hin : olaOkIn e.cfg o r.ovf r.ok = true := by
      simp only [olaOkIn, olaWork_eq_handedOver, hok, htaint, hover, Bool.not_false, Bool.and_true, Bool.true_and]
      exact hslid
    have hcall : innerCall e c r = p := innerCall_wrapper hw hin
    refine ⟨fun m hm => ?_, fun d hd => ⟨o.spoil e.tick c, ?_⟩⟩
    · rw [segInner_wrapper_ok hw (hcall ▸ hm), hcall, hin, Bool.true_and]
    · rw [segInner_wrapper_err hw (hcall ▸ hd), hcall, hin, hok]

end Sys2Proof.Machine
end

