-- ==== Sys2Proof/Proofs/SegmenterForms.lean ====
section
/-! The two forms of `seg_channel` (rules R124, R126): a run of samples that goes no further than the end of the block is one
exchange of the samples with a stretch of `OVF`, and the block is processed when the run reaches its end. -/
namespace Sys2Proof.Machine
open Sys2Proof.Stated

/-! ### Exchanging samples with the overflow buffer -/

/-- `swap` where `OVF` is written as what lies before, in, and after the stretch exchanged. -/
theorem swapBlock_of_split {r : ChanRun} {front old rest xs : List Word} (h : r.ovf = front ++ (old ++ rest))
    (hold : old.length = xs.length) :
    swapBlock xs front.length r =
      { r with out := r.out ++ old, ovf := front ++ (xs ++ rest), ok := r.ok && allFinite xs && allFinite old } := by
  have hafter : (front ++ (old ++ rest)).drop (front.length + old.length) = rest := by
    rw [← List.drop_drop, List.drop_left, List.drop_left]
  simp only [swapBlock, h, ← hold, hafter, List.drop_left, List.take_left, List.append_assoc]

theorem exchange_of_split {r : ChanRun} {front rest : List Word} {y : Word} (h : r.ovf = front ++ (y :: rest))
    (hfill : r.fill = front.length) (x : Word) :
    exchange r x =
      { r with out := r.out ++ [y], ovf := front ++ (x :: rest), fill := r.fill + 1,
               ok := r.ok && isFinite x && isFinite y } := by
  simp [exchange, h, hfill]

/-- Samples exchanged one by one, as long as the block has room for them, are exchanged at once. -/
theorem foldl_exchange (xs : List Word) {r : ChanRun} {front old rest : List Word} (h : r.ovf = front ++ (old ++ rest))
    (hfill : r.fill = front.length) (hold : old.length = xs.length) :
    xs.foldl exchange r = { swapBlock xs r.fill r with fill := r.fill + xs.length } := by
  rw [hfill, swapBlock_of_split h hold]
  induction xs generalizing r front old with
  | nil =>
    obtain rfl := List.eq_nil_of_length_eq_zero hold
    cases r
    simp_all
  | cons x xs ih =>
    obtain ⟨y, old, rfl⟩ := List.exists_cons_of_length_eq_add_one hold
    rw [List.foldl_cons, exchange_of_split h hfill, ih (front := front ++ [x]) (old := old)]
    · simp [allFinite, Nat.add_assoc, Nat.add_comm 1, Bool.and_assoc, Bool.and_left_comm]
    · simp
    · simp [hfill]
    · simpa using hold

theorem foldl_exchange_eq_swapBlock {xs : List Word} {r : ChanRun} (h : r.fill + xs.length ≤ r.ovf.length) :
    xs.foldl exchange r = { swapBlock xs r.fill r with fill := r.fill + xs.length } := by
  refine foldl_exchange xs (front := r.ovf.take r.fill) (old := (r.ovf.drop r.fill).take xs.length)
    (rest := (r.ovf.drop r.fill).drop xs.length) ?_ ?_ ?_
  · rw [List.take_append_drop, List.take_append_drop]
  · rw [List.length_take, Nat.min_eq_left (by omega)]
  · rw [List.length_take, List.length_drop, Nat.min_eq_left (by omega)]

section
variable {e : SegEnv} {c : Nat} {r : ChanRun}

/-! ### A run of samples within one block -/

/-- A run that stays below the end of the block makes no invocation. -/
theorem segRow_eq_foldl_exchange {xs : List Word} (herr : r.err = none) (h : r.fill + xs.length < e.b) :
    segRow e c xs r = xs.foldl exchange r := by
  induction xs generalizing r with
  | nil => rfl
  | cons x xs ih =>
    rw [List.length_cons] at h
    rw [segRow_cons, segSample_ok herr, if_neg (by omega), List.foldl_cons]
    refine ih herr ?_
    change r.fill + 1 + xs.length < e.b
    omega

theorem segRow_of_short {xs : List Word} (hs : r.sized e) (herr : r.err = none) (h : r.fill + xs.length < e.b) :
    segRow e c xs r = { swapBlock xs r.fill r with fill := r.fill + xs.length } :=
  (segRow_eq_foldl_exchange herr h).trans (foldl_exchange_eq_swapBlock (hs.ovf ▸ h.le))

/-- A run that reaches the end of the block has it processed. -/
theorem segRow_of_completing {xs : List Word} (hs : r.sized e) (herr : r.err = none) (hfill : r.fill < e.b)
    (h : r.fill + xs.length = e.b) : segRow e c xs r = { segInner e c (swapBlock xs r.fill r) with fill := 0 } := by
  obtain rfl | ⟨init, x, rfl⟩ := xs.eq_nil_or_concat
  · rw [List.length_nil] at h
    omega
  · rw [List.concat_eq_append] at *
    have hroom : r.fill + (init ++ [x]).length ≤ r.ovf.length := hs.ovf ▸ h.le
    rw [List.length_append, List.length_singleton] at h
    have hinit := foldl_exchange_eq_swapBlock (xs := init) (r := r) (by rw [hs.ovf]; omega)
    have hwhole : exchange (init.foldl exchange r) x = _ := List.foldl_append.symm.trans (foldl_exchange_eq_swapBlock hroom)
    have herr' : (init.foldl exchange r).err = none := by rw [hinit]; exact herr
    have hfill' : (init.foldl exchange r).fill + 1 = e.b := by rw [hinit]; exact h
    rw [segRow_append, segRow_eq_foldl_exchange herr (by omega), segRow_cons, segRow_nil, segSample_ok herr', if_pos hfill',
      hwhole, segInner_with_fill]

/-- A run of one whole block. -/
theorem segRow_block {xs : List Word} (hs : r.sized e) (herr : r.err = none) (hb : 1 ≤ e.b) (hfill : r.fill = 0)
    (h : xs.length = e.b) : segRow e c xs r = segInner e c (swapBlock xs 0 r) := by
  have hkept : (segInner e c (swapBlock xs 0 r)).fill = 0 := (segInner_fill e c _).trans hfill
  rw [segRow_of_completing hs herr (by omega) (by omega), hfill]
  generalize segInner e c (swapBlock xs 0 r) = q at hkept
  cases q
  exact congrArg (fun f => ChanRun.mk _ _ f _ _ _ _) hkept.symm

/-- The first block of a longer row. -/
theorem segRow_first_block {xs : List Word} (hs : r.sized e) (herr : r.err = none) (hb : 1 ≤ e.b) (hfill : r.fill = 0)
    (h : e.b ≤ xs.length) :
    segRow e c xs r = segRow e c (xs.drop e.b) (segInner e c (swapBlock (xs.take e.b) 0 r)) := by
  rw [← segRow_block hs herr hb hfill (List.length_take_of_le h), ← segRow_append, List.take_append_drop]

theorem sized_swapBlock {xs : List Word} (hs : r.sized e) (h : xs.length = e.b) : (swapBlock xs 0 r).sized e := by
  refine ⟨?_, hs.wrapper⟩
  simp [swapBlock, h, hs.ovf]

/-! ### The block-wise procedure -/

/-- The loop of rule R124 from a block boundary, with fuel for every chunk of the row. -/
theorem chunkLoop_eq_segRow {fuel : Nat} {xs : List Word} (hb : 1 ≤ e.b) (hs : r.sized e) (hfill : r.fill = 0)
    (hfuel : xs.length < fuel) : chunkLoop e c fuel xs r = segRow e c xs r := by
  induction fuel generalizing xs r with
  | zero => exact absurd hfuel (Nat.not_lt_zero _)
  | succ fuel ih =>
    cases herr : r.err with
    | some d => simp only [chunkLoop, herr, segRow_err xs herr]
    | none =>
      by_cases hlen : e.b ≤ xs.length
      · have hs' := ChanRun.sized_segInner c (sized_swapBlock hs (List.length_take_of_le hlen))
        simp only [chunkLoop, herr, if_pos hlen]
        rw [segRow_first_block hs herr hb hfill hlen]
        exact ih hs' ((segInner_fill e c _).trans hfill) (by rw [List.length_drop]; omega)
      · simp only [chunkLoop, herr, if_neg hlen]
        rw [segRow_of_short hs herr (by omega), hfill, Nat.zero_add]

/-- The two forms of `seg_channel` on a channel whose buffers have the lengths of its construction. -/
theorem segRow_eq_channelByBlocks (row : List Word) (hb : 1 ≤ e.b) (hs : r.sized e) (hfill : r.fill < e.b)
    (herr : r.err = none) : segRow e c row r = channelByBlocks e c row r := by
  unfold channelByBlocks
  split
  · dsimp only
    split
    · exact segRow_of_short hs herr (by omega)
    · next hlen =>
      have htake : (row.take (e.b - r.fill)).length = e.b - r.fill := List.length_take_of_le (by omega)
      have hfirst := segRow_of_completing (c := c) hs herr hfill (xs := row.take (e.b - r.fill)) (by omega)
      rw [segInner_with_fill, ← hfirst, chunkLoop_eq_segRow hb (ChanRun.sized_segRow c _ hs) (by rw [hfirst])
        (by rw [List.length_drop]; omega), ← segRow_append, List.take_append_drop]
  · exact (chunkLoop_eq_segRow hb hs (by omega) (Nat.lt_succ_self _)).symm

end

/-- Settles O26: both forms exchange samples up to the next block boundary and process the block there. -/
theorem perSampleEqualsBlockwise : Obligations.PerSampleEqualsBlockwise := by
  unfold Obligations.PerSampleEqualsBlockwise
  intro e c row r hb hovf hfill herr hw
  exact segRow_eq_channelByBlocks row hb ⟨hovf, hw⟩ hfill herr

end Sys2Proof.Machine
end

