-- ==== Sys2Proof/Proofs/Invocations.lean ====
section
/-! The invocations a channel makes over a row (rules R125, R133): `IPState` passes from one to the next, each has the site
and the vector length of the channel's binding, and there is one for each block completed. -/
namespace Sys2Proof.Machine
open Sys2Proof.Stated

/-! ### A sequence of invocations -/

/-- `IPState` after the invocations of a list, one after another. -/
def ipAfter (e : SegEnv) (v : List (Site × List Word)) (ip : IPState) : IPState :=
  v.foldl (fun ip x => (callPort e.cfg x.1 x.2 e.env ip).ip) ip

theorem calls_ipAfter (e : SegEnv) (v : List (Site × List Word)) (ip : IPState) :
    (ipAfter e v ip).calls = ip.calls + v.length := by
  induction v generalizing ip with
  | nil => rfl
  | cons x v ih =>
    refine (ih _).trans ?_
    rw [calls_callPort, List.length_cons]
    omega

/-! ### A channel between two samples -/

/-- What holds of a channel between two samples: buffers of the lengths construction fixed, room for a sample, and a wrapper
whose `INBUF` holds two blocks (rules R28, R29). -/
structure ChanRun.Ready (e : SegEnv) (r : ChanRun) : Prop where
  sized : r.sized e
  fill : r.fill < e.b
  inBuf : ∀ o, r.wrapper = some o → o.inBuf.length = 2 * e.b

section
variable {e : SegEnv} {c : Nat} {r : ChanRun}

/-- `seg_inner` keeps the length of `INBUF`: it slides by one block on `Ok`, and is unspecified on `Err`. -/
theorem segInner_inBuf (hs : r.sized e) (h : ∀ o, r.wrapper = some o → o.inBuf.length = 2 * e.b) {q : OlaInst}
    (hq : (segInner e c r).wrapper = some q) : q.inBuf.length = 2 * e.b := by
  cases hw : r.wrapper with
  | none => exact absurd (((segInner_wrapper e c r).1 hw).symm.trans hq) nofun
  | some o =>
    have hb := hs.wrapper o hw
    cases hres : (innerCall e c r).res with
    | ok m =>
      rw [segInner_wrapper_ok hw hres] at hq
      obtain rfl := Option.some.inj hq
      exact hb ▸ length_olaSlide (hb ▸ h o hw) (hb ▸ hs.ovf)
    | err d =>
      rw [segInner_wrapper_err hw hres] at hq
      obtain rfl := Option.some.inj hq
      exact (length_freeVec ..).trans (hb ▸ rfl)

/-- What one sample does to a channel. -/
theorem segSample_cases (herr : r.err = none) (hfill : r.fill < e.b) (x : Word) :
    (r.fill + 1 < e.b ∧ segSample e c r x = exchange r x) ∨
      (r.fill + 1 = e.b ∧ segSample e c r x = { segInner e c (exchange r x) with fill := 0 }) := by
  rw [segSample_ok herr]
  by_cases h : r.fill + 1 = e.b
  · exact .inr ⟨h, if_pos h⟩
  · exact .inl ⟨by omega, if_neg h⟩

theorem ChanRun.Ready.segSample (h : r.Ready e) (x : Word) : (segSample e c r x).Ready e := by
  cases herr : r.err with
  | some d => rwa [segSample_err herr]
  | none =>
    have hx := ChanRun.sized_exchange h.sized x
    obtain ⟨hroom, heq⟩ | ⟨-, heq⟩ := segSample_cases herr h.fill x <;> rw [heq]
    · exact ⟨hx, hroom, h.inBuf⟩
    · have hin := ChanRun.sized_segInner c hx
      exact ⟨⟨hin.ovf, hin.wrapper⟩, Nat.zero_lt_of_lt h.fill, fun q hq => segInner_inBuf hx h.inBuf hq⟩

/-- A row that ends without an inner error began without one. -/
theorem segRow_err_start {row : List Word} (h : (segRow e c row r).err = none) : r.err = none := by
  cases herr : r.err with
  | none => rfl
  | some d =>
    rw [segRow_err row herr] at h
    exact absurd (h.symm.trans herr) nofun

/-! ### The invocations of a row -/

theorem invocations_err {d : Word} (herr : r.err = some d) (row : List Word) : invocations e c row r = [] := by
  induction row with
  | nil => rfl
  | cons x row ih => rw [invocations, herr, if_neg (fun h => nomatch h.1), segSample_err herr, ih, List.append_nil]

/-- A sample that leaves room in the block makes no invocation. -/
theorem invocations_cons_of_room {x : Word} (row : List Word) (h : r.fill + 1 < e.b) :
    invocations e c (x :: row) r = invocations e c row (segSample e c r x) := by
  rw [invocations, if_neg (fun hc => absurd hc.2 h.ne), List.nil_append]

/-- The sample that completes the block makes the one invocation of `seg_inner`. -/
theorem invocations_cons_of_complete {x : Word} (row : List Word) (hs : r.sized e) (herr : r.err = none)
    (h : r.fill + 1 = e.b) :
    invocations e c (x :: row) r = handed e c (exchange r x) :: invocations e c row (segSample e c r x) := by
  have hswap : exchange r x = { swapBlock [x] r.fill r with fill := r.fill + 1 } :=
    foldl_exchange_eq_swapBlock (xs := [x]) (hs.ovf.symm ▸ h.le)
  rw [invocations, if_pos ⟨herr, h⟩, List.singleton_append, hswap]
  rfl

theorem segRow_ip_eq_ipAfter (row : List Word) (h : r.Ready e) :
    (segRow e c row r).ip = ipAfter e (invocations e c row r) r.ip := by
  induction row generalizing r with
  | nil => rfl
  | cons x row ih =>
    cases herr : r.err with
    | some d =>
      rw [segRow_err _ herr, invocations_err herr]
      rfl
    | none =>
      rw [segRow_cons, ih (h.segSample x)]
      obtain ⟨hroom, heq⟩ | ⟨hfull, heq⟩ := segSample_cases (c := c) herr h.fill x
      · rw [invocations_cons_of_room row hroom, heq]
        rfl
      · rw [invocations_cons_of_complete row h.sized herr hfull, heq]
        exact congrArg (ipAfter e _) segInner_ip

/-- The site, and the length of the vector, of every invocation of a channel: `B` samples at the port, `2B` at a wrapper. -/
def siteOf (e : SegEnv) (c : Nat) (w : Option OlaInst) : Site × Nat :=
  match w with
  | none => (.seg c, e.b)
  | some _ => (.ola c, 2 * e.b)

theorem length_handedOver {o : OlaInst} {blk : List Word} (hin : o.inBuf.length = 2 * o.b) (hblk : blk.length = o.b) :
    (handedOver o blk).length = 2 * o.b := by
  have hslid : (slid o blk).length = 2 * o.b := length_olaSlide hin hblk
  unfold handedOver
  split
  · simp only [windowed, List.length_map, List.length_range]
  · exact hslid

theorem handed_site (hs : r.sized e) (h : ∀ o, r.wrapper = some o → o.inBuf.length = 2 * e.b) :
    ((handed e c r).1, (handed e c r).2.length) = siteOf e c r.wrapper := by
  cases hw : r.wrapper with
  | none => rw [handed_port hw, length_settle, hs.ovf]; rfl
  | some o =>
    have hb := hs.wrapper o hw
    rw [handed_wrapper hw, length_settle, length_handedOver (hb ▸ h o hw) (hb ▸ hs.ovf), hb]
    rfl

/-- A channel keeps its binding. -/
theorem siteOf_segSample (x : Word) : siteOf e c (segSample e c r x).wrapper = siteOf e c r.wrapper := by
  obtain ⟨hnone, hsome⟩ := segRow_wrapper e c [x] r
  rw [segRow_cons, segRow_nil] at hnone hsome
  cases hw : r.wrapper with
  | none => rw [hnone hw]
  | some o =>
    obtain ⟨q, hq, -⟩ := hsome o hw
    rw [hq]
    rfl

theorem site_of_mem_invocations {row : List Word} (h : r.Ready e) {v : Site × List Word} (hv : v ∈ invocations e c row r) :
    (v.1, v.2.length) = siteOf e c r.wrapper := by
  induction row generalizing r with
  | nil => cases hv
  | cons x row ih =>
    have hlater := ih (h.segSample (c := c) x)
    rw [siteOf_segSample x] at hlater
    cases herr : r.err with
    | some d =>
      rw [invocations_err herr] at hv
      cases hv
    | none =>
      obtain ⟨hroom, -⟩ | ⟨hfull, -⟩ := segSample_cases (c := c) herr h.fill x
      · rw [invocations_cons_of_room row hroom] at hv
        exact hlater hv
      · rw [invocations_cons_of_complete row h.sized herr hfull] at hv
        obtain rfl | hv := List.mem_cons.1 hv
        · exact handed_site (ChanRun.sized_exchange h.sized x) h.inBuf
        · exact hlater hv

/-- One invocation for each block completed; the samples of the last one, not complete, are the fill pointer. -/
theorem length_invocations {row : List Word} (h : r.Ready e) (hend : (segRow e c row r).err = none) :
    (invocations e c row r).length = (r.fill + row.length) / e.b ∧ (segRow e c row r).fill = (r.fill + row.length) % e.b := by
  induction row generalizing r with
  | nil => exact ⟨(Nat.div_eq_of_lt h.fill).symm, (Nat.mod_eq_of_lt h.fill).symm⟩
  | cons x row ih =>
    have herr := segRow_err_start hend
    rw [segRow_cons] at hend ⊢
    obtain ⟨hcount, hfill⟩ := ih (h.segSample x) hend
    rw [hfill]
    obtain ⟨hroom, heq⟩ | ⟨hfull, heq⟩ := segSample_cases (c := c) herr h.fill x
    · have hlen : (segSample e c r x).fill + row.length = r.fill + (x :: row).length := by
        rw [heq, List.length_cons, Nat.add_comm row.length, ← Nat.add_assoc]
        rfl
      rw [invocations_cons_of_room row hroom, hcount, hlen]
      exact ⟨rfl, rfl⟩
    · have hlen : (segSample e c r x).fill + row.length + e.b = r.fill + (x :: row).length := by
        rw [heq, ← hfull, List.length_cons]
        change 0 + _ + _ = _
        omega
      rw [invocations_cons_of_complete row h.sized herr hfull, List.length_cons, hcount, ← hlen,
        Nat.add_div_right _ (Nat.zero_lt_of_lt h.fill), Nat.add_mod_right]
      exact ⟨rfl, rfl⟩

end

/-- Settles O28: the threads of `IPState`, the sites and the count, each by its own induction over the row. -/
theorem oneInvocationPerCompletedBlock : Obligations.OneInvocationPerCompletedBlock := by
  unfold Obligations.OneInvocationPerCompletedBlock
  intro e c row r _ hovf hfill _ hw
  have h : r.Ready e := ⟨⟨hovf, fun o ho => (hw o ho).1⟩, hfill, fun o ho => (hw o ho).2⟩
  have hip := segRow_ip_eq_ipAfter (c := c) row h
  refine ⟨hip, fun hnone x hx => ?_, fun hsome x hx => ?_, fun hend => ?_⟩
  · have hsite := site_of_mem_invocations h hx
    rw [hnone] at hsite
    exact Prod.mk.inj hsite
  · obtain ⟨o, ho⟩ := Option.ne_none_iff_exists'.1 hsome
    have hsite := site_of_mem_invocations h hx
    rw [ho] at hsite
    exact Prod.mk.inj hsite
  · obtain ⟨hcount, hfill'⟩ := length_invocations h hend
    exact ⟨hcount, hip ▸ calls_ipAfter e _ r.ip, hfill', (ChanRun.sized_segRow c row h.sized).ovf,
      (segRow_out e c row r).2.2 hend⟩

end Sys2Proof.Machine
end

