-- ==== Sys2Proof/Proofs/StreamLaw.lean ====
section
/-! The stream law of one channel (rule R127): from a block boundary a run gives back what the overflow buffer held, and then
the outputs of the inner processor, each one block late. -/
namespace Sys2Proof.Machine
open Sys2Proof.Stated

/-- A stream cut into parts is the stream (rule R127). -/
theorem foldl_segRow (e : SegEnv) (c : Nat) (parts : List (List Word)) (r : ChanRun) :
    parts.foldl (fun r part => segRow e c part r) r = segRow e c parts.flatten r := List.foldl_flatten.symm

/-- Exchanging a whole block. -/
theorem swapBlock_whole {xs : List Word} {r : ChanRun} (h : r.ovf.length = xs.length) :
    swapBlock xs 0 r = { r with out := r.out ++ r.ovf, ovf := xs, ok := r.ok && allFinite xs && allFinite r.ovf } := by
  have hsplit : r.ovf = [] ++ (r.ovf ++ []) := (List.append_nil _).symm
  simpa using swapBlock_of_split hsplit h

section
variable {e : SegEnv} {c : Nat} {r : ChanRun}

/-- The block in the overflow buffer is the next one of the stream: `seg_inner` leaves in its place what the stream's inner
processor gives for it, and the wrapper and `IPState` of the rest of the stream. -/
theorem streamRun_succ {x : List Word} (m : Nat) (hovf : r.ovf = x.take e.b) (herr : (segInner e c r).err = none)
    (hok : (segInner e c r).ok = true) :
    streamRun e c (m + 1) x r.wrapper r.ip =
      (let q := segInner e c r
      let y := streamRun e c m (x.drop e.b) q.wrapper q.ip
      (q.ovf ++ y.1, y.2)) := by
  obtain ⟨a, hres⟩ := innerCall_res_of_no_err herr
  cases hw : r.wrapper with
  | none =>
    have hcall := innerCall_port (e := e) (c := c) hw (segInner_ok_start e c hok)
    rw [segInner_port_ok hw hres, hcall, hw, hovf]
    rfl
  | some o =>
    rw [segInner_wrapper_ok hw hres] at hok ⊢
    simp only [Bool.and_eq_true] at hok
    obtain ⟨⟨⟨⟨hin, -⟩, -⟩, -⟩, -⟩ := hok
    rw [innerCall_wrapper hw hin, hovf]
    rfl

/-- The stream law from a block boundary. -/
theorem segRow_stream {m : Nat} {x : List Word} (hb : 1 ≤ e.b) (hs : r.sized e) (hfill : r.fill = 0) (hm : x.length / e.b = m)
    (herr : (segRow e c x r).err = none) (hok : (segRow e c x r).ok = true) :
    let y := streamRun e c m x r.wrapper r.ip
    (segRow e c x r).out = r.out ++ (r.ovf ++ y.1).take x.length ∧ (segRow e c x r).fill = x.length % e.b ∧
      (segRow e c x r).wrapper = y.2.1 ∧ (segRow e c x r).ip = y.2.2 := by
  have hstart := segRow_err_start herr
  induction m generalizing x r with
  | zero =>
    have hlt : x.length < e.b := (Nat.div_eq_zero_iff_lt hb).1 hm
    rw [segRow_of_short hs hstart (by omega), hfill, Nat.zero_add, Nat.mod_eq_of_lt hlt]
    refine ⟨?_, rfl, rfl, rfl⟩
    rw [streamRun, List.append_nil]
    rfl
  | succ m ih =>
    have hle : e.b ≤ x.length := by
      by_contra hlt
      rw [Nat.div_eq_of_lt (Nat.lt_of_not_le hlt)] at hm
      cases hm
    have htake : (x.take e.b).length = e.b := List.length_take_of_le hle
    have hdrop : (x.drop e.b).length = x.length - e.b := List.length_drop
    have hwhole := swapBlock_whole (hs.ovf.trans htake.symm)
    have hs' := ChanRun.sized_segInner c (sized_swapBlock hs htake)
    have hfill' : (segInner e c (swapBlock (x.take e.b) 0 r)).fill = 0 := (segInner_fill e c _).trans hfill
    have hout : (segInner e c (swapBlock (x.take e.b) 0 r)).out = r.out ++ r.ovf := by rw [segInner_out, hwhole]
    have hnext := streamRun_succ (e := e) (c := c) (r := swapBlock (x.take e.b) 0 r) (x := x) m (by rw [hwhole])
    rw [segRow_first_block hs hstart hb hfill hle] at herr hok ⊢
    generalize segInner e c (swapBlock (x.take e.b) 0 r) = q at *
    have herr' := segRow_err_start herr
    have hnext : streamRun e c (m + 1) x r.wrapper r.ip = _ := hnext herr' (segRow_ok_start _ hok)
    have hdiv : (x.drop e.b).length / e.b = m := by
      rw [Nat.div_eq_sub_div hb hle] at hm
      exact hdrop ▸ Nat.succ.inj hm
    obtain ⟨hrow, hmod, hw, hip⟩ := ih hs' hfill' hdiv herr hok herr'
    rw [hnext]
    refine ⟨?_, ?_, hw, hip⟩
    · rw [hrow, hout, hdrop, List.append_assoc, List.take_append (l₁ := r.ovf), List.take_of_length_le (hs.ovf.trans_le hle),
        hs.ovf]
    · rw [hmod, hdrop, ← Nat.mod_eq_sub_mod hle]

end

/-- Settles O27: the parts make one run from a fresh channel, which starts at a block boundary with `+0.0` in the overflow
buffer. -/
theorem segmenterDelaysStreamByBlock : Obligations.SegmenterDelaysStreamByBlock := by
  unfold Obligations.SegmenterDelaysStreamByBlock
  intro e c parts w ip hb hw
  dsimp only
  rw [foldl_segRow]
  exact segRow_stream hb ⟨List.length_replicate, hw⟩ rfl rfl

end Sys2Proof.Machine
end

