-- ==== Sys2Proof/Proofs/ChannelLocality.lean ====
section
/-! Channels do not interfere (rule R132): what the step of one channel writes, and what its result depends on. -/
namespace Sys2Proof.Machine
open Sys2Proof.Stated

/-! ### What a channel's step writes -/

/-- A channel's step changes the state components of its own two sites only. -/
theorem segChannel_at (e : SegEnv) (inner : Binding) (k : SegOps) (r : SegRun) {c : Nat} {x : Site} (hs : x ≠ .seg c)
    (ho : x ≠ .ola c) : (segChannel e inner k r c).ip.at x = r.ip.at x := by
  cases herr : r.err with
  | some d => rw [segChannel_err c herr]
  | none =>
    rw [segChannel_ok c herr]
    exact segRow_at e c _ _ hs ho

/-- Settles O30: each part of the state has its own law of a channel's step. -/
theorem channelTouchesOnlyItsOwn : Obligations.ChannelTouchesOnlyItsOwn := by
  unfold Obligations.ChannelTouchesOnlyItsOwn
  intro e inner k r c
  refine ⟨segChannel_hm e inner k r c, fun j hj => ⟨segChannel_chans e inner k r c hj, segChannel_ola e inner k r c hj, ?_, ?_⟩⟩
  · exact segChannel_at e inner k r (fun h => hj (Site.seg.inj h)) nofun
  · exact segChannel_at e inner k r nofun (fun h => hj (Site.ola.inj h))

/-! ### What an invocation depends on -/

/-- The two sites of channel `c`. -/
def OwnSite (c : Nat) (x : Site) : Prop := x = .seg c ∨ x = .ola c

/-- Two states of the inner processors agree on what the invocations of channel `c` can see. -/
structure IPState.Agree (c : Nat) (p q : IPState) : Prop where
  calls : p.calls = q.calls
  own : ∀ x, OwnSite c x → p.at x = q.at x

theorem IPState.Agree.count {c : Nat} {p q : IPState} (h : p.Agree c q) : p.count.Agree c q.count where
  calls := congrArg (· + 1) h.calls
  own x hx := by
    rw [IPState.at_count, IPState.at_count]
    exact h.own x hx

theorem IPState.Agree.put {c : Nat} {p q : IPState} (h : p.Agree c q) (x : Site) (st : Nat) :
    (p.put x st).Agree c (q.put x st) where
  calls := by
    rw [IPState.calls_put, IPState.calls_put]
    exact h.calls
  own y hy := by
    by_cases hyx : y = x
    · rw [hyx, IPState.at_put_same, IPState.at_put_same]
    · rw [IPState.at_put_other p st hyx, IPState.at_put_other q st hyx]
      exact h.own y hy

/-- An invocation at a site of the channel: the answer is the same, and the states after it agree again. -/
theorem callPort_agree (cfg : Config) {c : Nat} {x : Site} (hx : OwnSite c x) (v : List Word) (env : Word) {p q : IPState}
    (h : p.Agree c q) :
    (callPort cfg x v env p).out = (callPort cfg x v env q).out ∧ (callPort cfg x v env p).res = (callPort cfg x v env q).res ∧
      (callPort cfg x v env p).ip.Agree c (callPort cfg x v env q).ip := by
  unfold callPort
  cases cfg.port with
  | platform =>
    dsimp only
    rw [h.own x hx]
    exact ⟨rfl, rfl, (h.put x _).count⟩
  | fFail3 =>
    dsimp only
    rw [h.calls]
    split <;> exact ⟨rfl, rfl, h.count⟩
  | _ => exact ⟨rfl, rfl, h.count⟩

/-! ### What a channel's run depends on -/

/-- Two channels that differ at most in `IPState`, and there in nothing the channel can see. -/
def ChanRun.Agree (c : Nat) (r u : ChanRun) : Prop := ∃ p, u = { r with ip := p } ∧ r.ip.Agree c p

section
variable {e : SegEnv} {c : Nat} {r u : ChanRun}

theorem handed_with_ip {p : IPState} (h : r.ip.calls = p.calls) : handed e c { r with ip := p } = handed e c r := by
  obtain hw | ⟨o, hw⟩ := r.wrapper.eq_none_or_eq_some
  · rw [handed_port hw, handed_port (r := { r with ip := p }) hw, h]
  · rw [handed_wrapper hw, handed_wrapper (r := { r with ip := p }) hw, h]

theorem handed_ownSite : OwnSite c (handed e c r).1 := by
  cases hw : r.wrapper with
  | none => rw [handed_port hw]; exact .inl rfl
  | some o => rw [handed_wrapper hw]; exact .inr rfl

theorem innerCall_agree {p : IPState} (h : r.ip.Agree c p) :
    (innerCall e c { r with ip := p }).out = (innerCall e c r).out ∧
      (innerCall e c { r with ip := p }).res = (innerCall e c r).res ∧
      (innerCall e c r).ip.Agree c (innerCall e c { r with ip := p }).ip := by
  obtain ⟨hout, hres, hip⟩ := callPort_agree e.cfg (handed_ownSite (e := e) (r := r)) (handed e c r).2 e.env h
  rw [innerCall, innerCall, handed_with_ip h.calls]
  exact ⟨hout.symm, hres.symm, hip⟩

theorem segInner_agree (h : r.Agree c u) : (segInner e c r).Agree c (segInner e c u) := by
  obtain ⟨p, rfl, hp⟩ := h
  obtain ⟨hout, hres, hip⟩ := innerCall_agree (e := e) hp
  refine ⟨_, ?_, segInner_ip (r := r) ▸ hip⟩
  obtain hw | ⟨o, hw⟩ := r.wrapper.eq_none_or_eq_some
  · cases h : (innerCall e c r).res with
    | ok m => rw [segInner_port_ok hw h, segInner_port_ok (r := { r with ip := p }) hw (hres.trans h), hout]
    | err d => rw [segInner_port_err hw h, segInner_port_err (r := { r with ip := p }) hw (hres.trans h)]
  · cases h : (innerCall e c r).res with
    | ok m => rw [segInner_wrapper_ok hw h, segInner_wrapper_ok (r := { r with ip := p }) hw (hres.trans h), hout]
    | err d => rw [segInner_wrapper_err hw h, segInner_wrapper_err (r := { r with ip := p }) hw (hres.trans h)]

theorem exchange_agree (h : r.Agree c u) (x : Word) : (exchange r x).Agree c (exchange u x) := by
  obtain ⟨p, rfl, hp⟩ := h
  exact ⟨p, rfl, hp⟩

theorem segSample_agree (h : r.Agree c u) (x : Word) : (segSample e c r x).Agree c (segSample e c u x) := by
  have hx := exchange_agree h x
  have hin := segInner_agree (e := e) hx
  obtain ⟨p, rfl, hp⟩ := h
  obtain herr | ⟨d, herr⟩ := r.err.eq_none_or_eq_some
  · rw [segSample_ok herr, segSample_ok (r := { r with ip := p }) herr]
    split
    · obtain ⟨q, hq, hqp⟩ := hin
      rw [hq]
      exact ⟨q, rfl, hqp⟩
    · exact hx
  · rw [segSample_err herr, segSample_err (r := { r with ip := p }) herr]
    exact ⟨p, rfl, hp⟩

theorem segRow_agree (row : List Word) (h : r.Agree c u) : (segRow e c row r).Agree c (segRow e c row u) := by
  induction row generalizing r u with
  | nil => exact h
  | cons x row ih => exact ih (segSample_agree h x)

end

/-! ### What a channel's step depends on -/

/-- Two runs of `SEG.PROC` that agree on what is channel `c`'s own: its row, its buffer and fill pointer, its wrapper, and what
its invocations can see; and on the well-formedness flag. -/
structure SegRun.Agree (k : SegOps) (c : Nat) (r u : SegRun) : Prop where
  row : ∀ j < k.n, r.hm.get (k.addr c + j) = u.hm.get (k.addr c + j)
  chan : r.chans.getD c default = u.chans.getD c default
  ola : olaSlot r.ola c = olaSlot u.ola c
  ip : r.ip.Agree c u.ip
  ok : r.ok = u.ok

section
variable {e : SegEnv} {inner : Binding} {k : SegOps} {r u : SegRun} {c : Nat}

theorem chanRow_agree (h : r.Agree k c u) : (chanRow e inner k r c).Agree c (chanRow e inner k u c) := by
  have hrow : r.hm.read (k.addr c) k.n = u.hm.read (k.addr c) k.n := vec_congr h.row
  have hbound : boundWrapper inner r.ola c = boundWrapper inner u.ola c := by
    simp only [boundWrapper, h.ola]
  rw [chanRow, chanRow, hrow]
  refine segRow_agree _ ⟨u.ip, ?_, h.ip⟩
  simp only [chanStart, h.chan, h.ok, hbound]

/-- Two memories that agree on a word agree on it after the same write. -/
theorem Memory.get_write_congr {m n : Memory} {a : Nat} (h : m.get a = n.get a) (addr : Nat) (v : List HmWord) :
    (m.write addr v).get a = (n.write addr v).get a := by
  rw [Memory.get_write, Memory.get_write, h]

/-- The channel that its step puts back. -/
theorem getD_chanEnd_chans (tick : Nat) (q : ChanRun) (h : c < r.chans.length) :
    (chanEnd tick k c r q).chans.getD c default =
      { ovf := q.ovf, fill := q.fill, taint := (r.chans.getD c default).taint } := by
  simp [chanEnd, List.getD_eq_getElem?_getD, h]

/-- The wrapper that its step puts back. -/
theorem olaSlot_chanEnd (tick : Nat) (q : ChanRun) :
    olaSlot (chanEnd tick k c r q).ola c =
      match q.wrapper with
      | some o => if q.err.isSome then .faulted o else .configured o
      | none => olaSlot r.ola c := by
  unfold chanEnd
  cases q.wrapper with
  | none => rfl
  | some o => exact olaSlot_putOla_same ..

theorem chanEnd_agree (tick : Nat) (h : r.Agree k c u) (hr : c < r.chans.length) (hu : c < u.chans.length) {q v : ChanRun}
    (hq : q.Agree c v) :
    (chanEnd tick k c r q).Agree k c (chanEnd tick k c u v) ∧ (chanEnd tick k c r q).err = (chanEnd tick k c u v).err := by
  obtain ⟨p, rfl, hp⟩ := hq
  refine ⟨⟨fun j hj => Memory.get_write_congr (h.row j hj) _ _, ?_, ?_, hp, rfl⟩, rfl⟩
  · rw [getD_chanEnd_chans _ _ hr, getD_chanEnd_chans _ _ hu, h.chan]
  · rw [olaSlot_chanEnd, olaSlot_chanEnd, h.ola]

end

/-- Settles O31: the relation of agreement passes from the runs before a channel's step through its row to the runs after it. -/
theorem channelDependsOnlyOnItsOwn : Obligations.ChannelDependsOnlyOnItsOwn := by
  unfold Obligations.ChannelDependsOnlyOnItsOwn
  intro e inner k r u c hr hu hrlen hulen hrow hchan hola hseg holaAt hcalls hok
  have hip : r.ip.Agree c u.ip := ⟨hcalls, by rintro x (rfl | rfl) <;> assumption⟩
  have h : r.Agree k c u := ⟨hrow, hchan, hola, hip, hok⟩
  obtain ⟨hend, herr⟩ := chanEnd_agree e.tick h hrlen hulen (chanRow_agree (e := e) (inner := inner) h)
  dsimp only
  rw [segChannel_ok c hr, segChannel_ok c hu]
  exact ⟨herr, hend.ok, hend.ip.calls, hend.ip.own _ (.inl rfl), hend.ip.own _ (.inr rfl), hend.chan, hend.ola, hend.row⟩

end Sys2Proof.Machine
end

