-- ==== Sys2Proof/Proofs/SegProcChecks.lean ====
section
/-! The checks of `SEG.PROC` in their order (rules R121, R218), and the command with nothing to process (rule R131). -/
namespace Sys2Proof.Machine
open Sys2Proof.Stated

/-! ### The checks -/

theorem rowsOk_iff_rowsGood (s : State) (p : Nat) :
    rowsOk s.cfg.hmsize s.ptr0 s.stride p s.len = true ↔ RowsGood s p := rowsOk_iff ..

theorem wrappersOk_iff_wrappersGood (s : State) (g : SegInst) (p : Nat) :
    wrappersOk g p s.ola = true ↔ WrappersGood s g p := wrappersOk_iff ..

theorem execSegProc_unconfigured {s : State} (h : ∀ g, s.seg ≠ .configured g) : execSegProc s = .next (s.raise .state) := by
  unfold execSegProc
  split
  · next g hg => exact absurd hg (h g)
  · rfl

section
variable {s : State} {g : SegInst} (hg : s.seg = .configured g)
include hg

theorem execSegProc_noChannels (hn : s.nch = 0) : execSegProc s = .next (s.raise .noChannels) := by
  simp only [execSegProc, hg, hn, if_true]

theorem execSegProc_operand (hn : s.nch ≠ 0) (hrows : ¬ RowsGood s (s.procChans g)) :
    execSegProc s = .next (s.raise .operand) := by
  rw [← rowsOk_iff_rowsGood, Bool.not_eq_true] at hrows
  simp [execSegProc, hg, hn, hrows]

theorem execSegProc_wrappers (hn : s.nch ≠ 0) (hrows : RowsGood s (s.procChans g))
    (hw : ¬ WrappersGood s g (s.procChans g)) : execSegProc s = .next (s.raise .state) := by
  rw [← rowsOk_iff_rowsGood] at hrows
  rw [← wrappersOk_iff_wrappersGood, Bool.not_eq_true] at hw
  simp [execSegProc, hg, hn, hrows, hw]

theorem execSegProc_runs (hn : s.nch ≠ 0) (hrows : RowsGood s (s.procChans g)) (hw : WrappersGood s g (s.procChans g)) :
    execSegProc s = .next (segEffect g (s.procChans g) s) := by
  rw [← rowsOk_iff_rowsGood] at hrows
  rw [← wrappersOk_iff_wrappersGood] at hw
  simp [execSegProc, hg, hn, hrows, hw]

end

/-- Settles O23: each check that fails ends the command with its error. -/
theorem segProcRefusesInOrder : Obligations.SegProcRefusesInOrder := by
  unfold Obligations.SegProcRefusesInOrder
  intro s
  refine ⟨fun h => execSegProc_unconfigured h, fun g hg => ⟨fun hn => ?_, fun hn hrows => ?_, fun hn hrows hw => ?_⟩⟩
  · exact execSegProc_noChannels hg hn
  · exact execSegProc_operand hg hn hrows
  · exact execSegProc_wrappers hg hn hrows hw

/-! ### Nothing to process -/

/-- Writing what is there already keeps a map in canonical form as it is. -/
theorem Cells.splice_eq_self {α : Type} [DecidableEq α] {d : α} {m : Cells α} (hm : Cells.wf d m) (a : Nat) (v : List α)
    (h : ∀ j, j < v.length → v.getD j d = Cells.get d m (a + j)) : Cells.splice d m a v = m := by
  refine Cells.ext_wf (Cells.splice_wf a v hm) hm fun k => ?_
  rw [Cells.get_splice]
  split
  · next hk => rw [h _ (by omega), Nat.add_sub_cancel' hk.1]
  · rfl

theorem Memory.write_nil {m : Memory} (hm : m.wf) (a : Nat) : m.write a [] = m :=
  Cells.splice_eq_self hm a [] fun _ hj => absurd hj (Nat.not_lt_zero _)

theorem putOla_self {m : Cells (Slot OlaInst)} (hm : Cells.wf .unconfigured m) {c : Nat} {x : Slot OlaInst}
    (h : olaSlot m c = x) : putOla m c x = m := by
  refine Cells.splice_eq_self hm c [x] fun j hj => ?_
  obtain rfl : j = 0 := Nat.lt_one_iff.1 hj
  exact h.symm

theorem set_getD_self {α : Type} (l : List α) (c : Nat) (d : α) : l.set c (l.getD c d) = l := by
  by_cases h : c < l.length
  · rw [List.getD_eq_getElem _ _ h, List.set_getElem_self]
  · exact List.set_eq_of_length_le (Nat.le_of_not_lt h)

theorem boundWrapper_eq_some {inner : Binding} {m : Cells (Slot OlaInst)} {c : Nat} {o : OlaInst} :
    boundWrapper inner m c = some o ↔ inner = .ola ∧ olaSlot m c = .configured o := by
  cases inner <;> cases h : olaSlot m c <;> simp [boundWrapper, h]

section
variable {e : SegEnv} {inner : Binding} {k : SegOps} {r : SegRun}

theorem SegRun.ext_fields {r u : SegRun} (hhm : r.hm = u.hm) (hchans : r.chans = u.chans) (hola : r.ola = u.ola)
    (hip : r.ip = u.ip) (hok : r.ok = u.ok) (herr : r.err = u.err) : r = u := by
  cases r
  cases u
  simp_all

/-- A channel's step on an empty row puts back what it took. -/
theorem segChannel_of_empty (hn : k.n = 0) (hhm : r.hm.wf) (hola : Cells.wf .unconfigured r.ola) (c : Nat) :
    segChannel e inner k r c = r := by
  cases herr : r.err with
  | some d => exact segChannel_err c herr
  | none =>
    have hrow : chanRow e inner k r c = chanStart inner k.n c r := by
      rw [chanRow, List.eq_nil_of_length_eq_zero ((Memory.length_read ..).trans hn), segRow_nil]
    have hok : (r.ok && !((r.chans.getD c default).taint && decide (0 < k.n))) = r.ok := by simp [hn]
    have hchans : r.chans.set c (r.chans.getD c default) = r.chans := set_getD_self _ _ _
    have hwords : ∀ ok, settleWords ok e.tick (.row c) [] = [] := fun _ =>
      List.eq_nil_of_length_eq_zero (length_settleWords ..)
    have hslot : (chanEnd e.tick k c r (chanStart inner k.n c r)).ola = r.ola := by
      cases hw : boundWrapper inner r.ola c with
      | none => simp only [chanEnd, chanStart, hw]
      | some o =>
        simp only [chanEnd, chanStart, hw]
        exact putOla_self hola (boundWrapper_eq_some.1 hw).2
    rw [segChannel_ok c herr, hrow]
    refine SegRun.ext_fields ?_ hchans hslot rfl hok herr.symm
    exact (congrArg (r.hm.write _) (hwords _)).trans (Memory.write_nil hhm _)

theorem segChannels_of_empty (hn : k.n = 0) (hhm : r.hm.wf) (hola : Cells.wf .unconfigured r.ola) (p : Nat) :
    segChannels e inner k p r = r := by
  induction p with
  | zero => rfl
  | succ p ih => rw [segChannels_succ, ih, segChannel_of_empty hn hhm hola]

end

/-- Settles O29: no channel's step does anything, and the end of the command puts every part back. -/
theorem segProcOfNothingChangesNothing : Obligations.SegProcOfNothingChangesNothing := by
  unfold Obligations.SegProcOfNothingChangesNothing
  intro s g h hg hn hlen hw
  have hrun : segRun g (s.procChans g) s =
      { hm := s.hm, chans := g.chans, ola := s.ola, ip := s.ip, ok := true, err := none } :=
    segChannels_of_empty hlen h.hm h.ola _
  refine (execSegProc_runs hg hn (.inl hlen) hw).trans (congrArg Host.Outcome.next ?_)
  rw [segEffect, hrun]
  cases s
  cases hg
  rfl

end Sys2Proof.Machine
end

