-- ==== Sys2Proof/Proofs/SegProcRuns.lean ====
section
/-! A `SEG.PROC` whose checks pass (rules R120, R123, R129): its run over the channels is the runs of rule R124 one after
another, each on the row, the buffer and the wrapper from before the command; and what the two ends of the command leave of them. -/
namespace Sys2Proof.Machine
open Sys2Proof.Stated

/-! ### What the steps of other channels leave of a channel -/

theorem segRun_zero (g : SegInst) (s : State) :
    segRun g 0 s = { hm := s.hm, chans := g.chans, ola := s.ola, ip := s.ip, ok := true, err := none } := rfl

theorem segRun_succ (g : SegInst) (c : Nat) (s : State) :
    segRun g (c + 1) s = segChannel (s.segEnv g) g.inner s.segOps (segRun g c s) c := segChannels_succ ..

section
variable {s : State} {g : SegInst}

/-- What the steps of the channels from `a` to `b - 1` keep. -/
theorem segRun_keeps {β : Type} (f : SegRun → β) {a b : Nat} (hab : a ≤ b)
    (h : ∀ c r, a ≤ c → c < b → f (segChannel (s.segEnv g) g.inner s.segOps r c) = f r) :
    f (segRun g b s) = f (segRun g a s) := by
  induction b, hab using Nat.le_induction with
  | base => rfl
  | succ b hab ih =>
    rw [segRun_succ, h b _ hab (Nat.lt_succ_self b), ih fun c r hc hcb => h c r hc (Nat.lt_succ_of_lt hcb)]

section
variable {a b j : Nat} (hab : a ≤ b) (hj : j < a ∨ b ≤ j)
include hab hj

theorem segRun_keeps_chan : (segRun g b s).chans.getD j default = (segRun g a s).chans.getD j default :=
  segRun_keeps (fun r => r.chans.getD j default) hab fun c r hac hcb => segChannel_chans _ _ _ r c (by omega)

theorem segRun_keeps_wrapper : olaSlot (segRun g b s).ola j = olaSlot (segRun g a s).ola j :=
  segRun_keeps (fun r => olaSlot r.ola j) hab fun c r hac hcb => segChannel_ola _ _ _ r c (by omega)

/-- Rows that do not overlap do not disturb each other. -/
theorem segRun_keeps_row {p : Nat} (hrows : RowsGood s p) (hbp : b ≤ p) (hjp : j < p) :
    (segRun g b s).hm.read (s.segOps.addr j) s.len = (segRun g a s).hm.read (s.segOps.addr j) s.len := by
  refine segRun_keeps (fun r => r.hm.read (s.segOps.addr j) s.len) hab fun c r hac hcb => ?_
  refine vec_congr fun i hi => segChannel_hm _ _ _ r c _ ?_
  change s.ptr0 + j * s.stride + i < s.ptr0 + c * s.stride ∨ s.ptr0 + c * s.stride + s.len ≤ s.ptr0 + j * s.stride + i
  obtain hempty | ⟨-, hdisjoint⟩ := hrows
  · omega
  · obtain hlt | hgt : j < c ∨ c < j := by omega
    · have := hdisjoint c (by omega) j hlt
      omega
    · have := hdisjoint j hjp c hgt
      omega

end

theorem length_segRun_chans (g : SegInst) (c : Nat) (s : State) : (segRun g c s).chans.length = g.chans.length :=
  segRun_keeps (fun r => r.chans.length) (Nat.zero_le c) fun _ _ _ _ => segChannel_chans_length ..

/-- After an inner error no channel is processed (rule R129). -/
theorem segRun_of_err {a b : Nat} (hab : a ≤ b) {d : Nat × Word} (h : (segRun g a s).err = some d) :
    segRun g b s = segRun g a s := by
  induction b, hab using Nat.le_induction with
  | base => rfl
  | succ b _ ih => rw [segRun_succ, ih, segChannel_err b h]

/-! ### The runs of the statements -/

/-- `IPState` before channel `c` is processed. -/
def ipBefore (s : State) (g : SegInst) : (c : Nat) → IPState
  | 0 => s.ip
  | c + 1 => (channelRuns s g c).ip

/-- Whether the command is numerically well-formed before channel `c` is processed. -/
def okBefore (s : State) (g : SegInst) : (c : Nat) → Bool
  | 0 => true
  | c + 1 => (channelRuns s g c).ok

theorem channelRuns_eq_channelRun (s : State) (g : SegInst) (c : Nat) :
    channelRuns s g c = channelRun s g c (ipBefore s g c) (okBefore s g c) := by
  cases c <;> rfl

/-- Channel `c` of the segmenter before the command, as its run starts. -/
def channelStart (s : State) (g : SegInst) (c : Nat) (ip : IPState) (ok : Bool) : ChanRun :=
  { out := [], ovf := (g.chans.getD c default).ovf, fill := (g.chans.getD c default).fill,
    wrapper := boundWrapper g.inner s.ola c, ip := ip, ok := ok && !((g.chans.getD c default).taint && decide (0 < s.len)),
    err := none }

theorem chan_ok_of_segInst_ok {cfg : Config} {c : Nat} (hg : g.ok cfg = true) (hc : c < g.c) :
    (g.chans.getD c default).ok g.b = true := by
  obtain ⟨-, hlen, hchans, -⟩ := (segInst_ok_iff _ _).1 hg
  rw [List.getD_eq_getElem _ _ (hlen ▸ hc)]
  exact hchans _ (List.getElem_mem _)

theorem wrappersGood_bound {p c : Nat} {o : OlaInst} (hw : WrappersGood s g p) (hc : c < p)
    (ho : boundWrapper g.inner s.ola c = some o) : o.b = g.b := by
  obtain ⟨hinner, hslot⟩ := boundWrapper_eq_some.1 ho
  obtain ⟨o', hslot', hb⟩ := hw hinner c hc
  obtain rfl := Slot.configured.inj (hslot.symm.trans hslot')
  exact hb

end

section
variable {s : State} {g : SegInst} (hg : g.ok s.cfg = true) (hw : WrappersGood s g (s.procChans g))
include hg hw

/-- The run of rule R124 is the model's run over the row. -/
theorem channelRun_eq_segRow {c : Nat} (hc : c < s.procChans g) (ip : IPState) (ok : Bool) :
    channelRun s g c ip ok =
      segRow (s.segEnv g) c (s.memRead (s.ptr0 + c * s.stride) s.len) (channelStart s g c ip ok) := by
  obtain ⟨hsize, -⟩ := (segInst_ok_iff _ _).1 hg
  obtain ⟨hb, -⟩ := (segSizeOk_iff _ _ _).1 hsize
  obtain ⟨hovf, hfill, -⟩ := (chan_ok_iff _ _).1 (chan_ok_of_segInst_ok hg (lt_of_lt_of_le hc (Nat.min_le_right _ _)))
  exact (segRow_eq_channelByBlocks _ hb ⟨hovf, fun o ho => wrappersGood_bound hw hc ho⟩ hfill rfl).symm

variable (hrows : RowsGood s (s.procChans g))

/-- A channel keeps its binding. -/
theorem channelRuns_wrapper {c : Nat} (hc : c < s.procChans g) (hinner : g.inner = .ola) :
    ∃ o, (channelRuns s g c).wrapper = some o := by
  obtain ⟨o, ho, -⟩ := hw hinner c hc
  rw [channelRuns_eq_channelRun, channelRun_eq_segRow hg hw hc]
  obtain ⟨q, hq, -⟩ := (segRow_wrapper (s.segEnv g) c _ (channelStart s g c _ _)).2 o (boundWrapper_eq_some.2 ⟨hinner, ho⟩)
  exact ⟨q, hq⟩

theorem channelRuns_ok_start {c : Nat} (hc : c < s.procChans g) (hok : (channelRuns s g c).ok = true) :
    okBefore s g c = true := by
  rw [channelRuns_eq_channelRun, channelRun_eq_segRow hg hw hc] at hok
  exact (Bool.and_eq_true_iff.1 (segRow_ok_start _ hok)).1

/-- A command that is numerically well-formed after channel `c` was so after each channel before it. -/
theorem channelRuns_ok_of_le {j c : Nat} (hjc : j ≤ c) (hc : c < s.procChans g) (hok : (channelRuns s g c).ok = true) :
    (channelRuns s g j).ok = true := by
  induction c, hjc using Nat.le_induction with
  | base => exact hok
  | succ c _ ih => exact ih (by omega) (channelRuns_ok_start hg hw hc hok)

theorem length_channelRuns_out {c : Nat} (hc : c < s.procChans g) (herr : (channelRuns s g c).err = none) :
    (channelRuns s g c).out.length = s.len := by
  rw [channelRuns_eq_channelRun, channelRun_eq_segRow hg hw hc] at herr ⊢
  have hlen := (segRow_out ..).2.2 herr
  rw [hlen]
  exact (Nat.zero_add _).trans (Memory.length_read ..)

include hrows

/-- The model's run over the row of channel `c`, whatever the channels before it have done. -/
theorem chanRow_segRun {c : Nat} (hc : c < s.procChans g) :
    chanRow (s.segEnv g) g.inner s.segOps (segRun g c s) c = channelRun s g c (segRun g c s).ip (segRun g c s).ok := by
  have hrow := segRun_keeps_row (g := g) (Nat.zero_le c) (.inr (Nat.le_refl c)) hrows hc.le hc
  have hchan := segRun_keeps_chan (s := s) (g := g) (Nat.zero_le c) (.inr (Nat.le_refl c))
  have hslot := segRun_keeps_wrapper (s := s) (g := g) (Nat.zero_le c) (.inr (Nat.le_refl c))
  have hbound : boundWrapper g.inner (segRun g c s).ola c = boundWrapper g.inner s.ola c := by
    simp only [boundWrapper, hslot, segRun_zero]
  have hstart : chanStart g.inner s.segOps.n c (segRun g c s) = channelStart s g c (segRun g c s).ip (segRun g c s).ok := by
    simp only [chanStart, hchan, hbound, segRun_zero]
    rfl
  rw [channelRun_eq_segRow hg hw hc, ← hstart]
  exact congrArg (fun row => segRow (s.segEnv g) c row _) hrow

/-- The run up to channel `c`, the channels before it having ended well, and the run of channel `c`. -/
theorem chanRow_eq_channelRuns {c : Nat} (hc : c < s.procChans g) (hprev : ∀ j < c, (channelRuns s g j).err = none) :
    (segRun g c s).err = none ∧ chanRow (s.segEnv g) g.inner s.segOps (segRun g c s) c = channelRuns s g c := by
  rw [chanRow_segRun hg hw hrows hc, channelRuns_eq_channelRun]
  cases c with
  | zero => exact ⟨rfl, rfl⟩
  | succ c =>
    obtain ⟨herr, hrow⟩ := chanRow_eq_channelRuns (c := c) (by omega) fun j hj => hprev j (by omega)
    rw [segRun_succ, segChannel_ok c herr, hrow]
    refine ⟨?_, rfl⟩
    simp only [chanEnd, hprev c (Nat.lt_succ_self c), Option.map_none]

/-- The run after channel `c`. -/
theorem segRun_succ_eq_chanEnd {c : Nat} (hc : c < s.procChans g) (hprev : ∀ j < c, (channelRuns s g j).err = none) :
    segRun g (c + 1) s = chanEnd s.tick s.segOps c (segRun g c s) (channelRuns s g c) := by
  obtain ⟨herr, hrow⟩ := chanRow_eq_channelRuns hg hw hrows hc hprev
  rw [segRun_succ, segChannel_ok c herr, hrow]
  rfl

theorem segRun_after {c : Nat} (hc : c < s.procChans g) (hprev : ∀ j < c, (channelRuns s g j).err = none) :
    (segRun g (c + 1) s).ip = (channelRuns s g c).ip ∧ (segRun g (c + 1) s).ok = (channelRuns s g c).ok ∧
      (segRun g (c + 1) s).err = (channelRuns s g c).err.map fun d => (c, d) := by
  rw [segRun_succ_eq_chanEnd hg hw hrows hc hprev]
  exact ⟨rfl, rfl, rfl⟩

/-! ### What a run has made of the channels it processed -/

section
variable {n : Nat} (hn : n ≤ s.procChans g) (hprev : ∀ j, j + 1 < n → (channelRuns s g j).err = none)
variable {j : Nat} (hj : j < n)
include hn hprev hj

theorem chan_of_segRun : (segRun g n s).chans.getD j default =
    { ovf := (channelRuns s g j).ovf, fill := (channelRuns s g j).fill,
      taint := ((segRun g j s).chans.getD j default).taint } := by
  obtain ⟨-, hlen, -⟩ := (segInst_ok_iff _ _).1 hg
  have hc : j < g.c := lt_of_lt_of_le hj (hn.trans (Nat.min_le_right _ _))
  rw [segRun_keeps_chan hj (.inl (Nat.lt_succ_self j)),
    segRun_succ_eq_chanEnd hg hw hrows (lt_of_lt_of_le hj hn) fun i hi => hprev i (by omega)]
  exact getD_chanEnd_chans _ _ (by rw [length_segRun_chans, hlen]; exact hc)

theorem wrapper_of_segRun : olaSlot (segRun g n s).ola j =
    match (channelRuns s g j).wrapper with
    | some o => if (channelRuns s g j).err.isSome then .faulted o else .configured o
    | none => olaSlot s.ola j := by
  have hbefore := segRun_keeps_wrapper (s := s) (g := g) (Nat.zero_le j) (.inr (Nat.le_refl j))
  rw [segRun_keeps_wrapper hj (.inl (Nat.lt_succ_self j)),
    segRun_succ_eq_chanEnd hg hw hrows (lt_of_lt_of_le hj hn) fun i hi => hprev i (by omega), olaSlot_chanEnd, hbefore]
  rfl

theorem row_of_segRun (herr : (channelRuns s g j).err = none) (hok : (channelRuns s g j).ok = true) :
    (segRun g n s).hm.read (s.segOps.addr j) s.len = (channelRuns s g j).out := by
  have hj' : j < s.procChans g := lt_of_lt_of_le hj hn
  rw [segRun_keeps_row hj (.inl (Nat.lt_succ_self j)) hrows hn hj',
    segRun_succ_eq_chanEnd hg hw hrows hj' fun i hi => hprev i (by omega)]
  have hwritten := Memory.read_write_same (segRun g j s).hm (s.segOps.addr j) ((channelRuns s g j).out.map .known)
  rw [List.length_map, map_value_known, length_channelRuns_out hg hw hj' herr] at hwritten
  rw [chanEnd, hok, settleWords_true]
  exact hwritten

end

end

/-! ### The ends of the command -/

theorem segProcFrame_segEffect (g : SegInst) (p : Nat) (s : State) : SegProcFrame s (segEffect g p s) p := by
  refine ⟨?_, segEffect_hm g p s, fun c hc => ?_⟩
  · obtain ⟨-, he⟩ | ⟨c, d, -, -, he⟩ := segEffect_cases g p s <;> rw [he]
    · simp [segOk]
    · simp [segErr]
  · obtain hsame | ⟨-, hlt, -⟩ := (segEffect_ola g p s c).1
    · exact hsame
    · omega

/-- A segmenter bound to the port changes no wrapper. -/
theorem segEffect_wrapper_of_ext {g : SegInst} (hinner : g.inner = .ext) (p : Nat) (s : State) (c : Nat) :
    olaSlot (segEffect g p s).ola c = olaSlot s.ola c := by
  obtain hsame | ⟨hola, -⟩ := (segEffect_ola g p s c).1
  · exact hsame
  · exact absurd (hinner.symm.trans hola) nofun

theorem settleChans_true (tick b p : Nat) (chans : List Chan) : settleChans true tick b p chans = chans := rfl

theorem getD_settleChans_of_le (ok : Bool) (tick b : Nat) {p c : Nat} (chans : List Chan) (h : p ≤ c) :
    (settleChans ok tick b p chans).getD c default = chans.getD c default := by
  cases ok with
  | true => rfl
  | false =>
    simp only [settleChans, Bool.false_eq_true, if_false, getD_vec, Nat.not_lt.2 h]
    split
    · rfl
    · next hc => exact (List.getD_eq_default _ _ (Nat.le_of_not_lt hc)).symm

theorem settleChans_fill (ok : Bool) (tick b p c : Nat) (chans : List Chan) :
    ((settleChans ok tick b p chans).getD c default).fill = (chans.getD c default).fill := by
  cases ok with
  | true => rfl
  | false =>
    simp only [settleChans, Bool.false_eq_true, if_false, getD_vec]
    split
    · split <;> rfl
    · next hc => rw [List.getD_eq_default _ _ (Nat.le_of_not_lt hc)]

/-- Wrappers from `p` on stay as the run left them. -/
theorem settleWrappers_of_le (ok : Bool) (tick b n : Nat) {p c : Nat} (inner : Binding) (chans : List Chan)
    (m : Cells (Slot OlaInst)) (h : p ≤ c) : olaSlot (settleWrappers ok tick b n p inner chans m) c = olaSlot m c := by
  obtain hsame | ⟨-, hlt, -⟩ := (settleWrappers_slot ok tick b n p inner chans m c).1
  · exact hsame
  · omega

theorem settleWrappers_configured (ok : Bool) (tick b n p : Nat) (inner : Binding) (chans : List Chan)
    {m : Cells (Slot OlaInst)} {c : Nat} {o : OlaInst} (h : olaSlot m c = .configured o) :
    ∃ q, olaSlot (settleWrappers ok tick b n p inner chans m) c = .configured q := by
  obtain ⟨hsame | ⟨-, -, o', q, -, hq | hq, -⟩, hfaulted⟩ := settleWrappers_slot ok tick b n p inner chans m c
  · exact ⟨o, hsame.trans h⟩
  · exact ⟨q, hq⟩
  · exact absurd (h.symm.trans (hfaulted q hq)) nofun

theorem segEffect_of_ok {g : SegInst} {p : Nat} {s : State} (h : (segRun g p s).err = none) :
    segEffect g p s = segOk s.segOps p g (segRun g p s) s := by simp only [segEffect, h]

theorem segEffect_of_err {g : SegInst} {p : Nat} {s : State} {c : Nat} {d : Word} (h : (segRun g p s).err = some (c, d)) :
    segEffect g p s = segErr s.segOps p g (segRun g p s) c d s := by simp only [segEffect, h]

theorem segOk_diag (k : SegOps) (p : Nat) (g : SegInst) (r : SegRun) (s : State) : (segOk k p g r s).diag = s.diag := by
  simp [segOk]

section
variable {k : SegOps} {p : Nat} {g : SegInst} {r : SegRun} {s : State} (h : r.ok = true)
include h

/-- A numerically well-formed `SEG.PROC` leaves HM and the wrappers as its run left them. -/
theorem segOk_hm_of_ok : (segOk k p g r s).hm = r.hm := if_pos h

theorem segOk_ola_of_ok : (segOk k p g r s).ola = r.ola := by
  change settleWrappers r.ok _ _ _ _ _ _ _ = _
  rw [h]
  rfl

theorem segErr_ola_of_ok {c : Nat} {d : Word} : (segErr k p g r c d s).ola = r.ola := by
  change settleWrappers r.ok _ _ _ _ _ _ _ = _
  rw [h]
  rfl

end

/-- Settles O24: the run over the channels is that of `channelRuns`, and the end without an inner error keeps what it left. -/
theorem segProcRunsChannelsInOrder : Obligations.SegProcRunsChannelsInOrder := by
  unfold Obligations.SegProcRunsChannelsInOrder
  intro s g hseg hg p q hn hrows hw herr
  obtain ⟨hsize, -⟩ := (segInst_ok_iff _ _).1 hg
  obtain ⟨-, -, hc, -⟩ := (segSizeOk_iff _ _ _).1 hsize
  have hpos : p - 1 + 1 = p := Nat.sub_add_cancel (Nat.le_min.2 ⟨Nat.one_le_iff_ne_zero.2 hn, hc⟩)
  have hprev : ∀ j, j + 1 < p → (q j).err = none := fun j hj => herr j (by omega)
  have hlast : p - 1 < p := by omega
  obtain ⟨hip, hok, hend⟩ := segRun_after hg hw hrows hlast fun j hj => herr j (by omega)
  rw [hpos] at hip hok hend
  have hexec := execSegProc_runs hseg hn hrows hw
  have hframe := segProcFrame_segEffect g p s
  change execSegProc s = .next (segEffect g p s) at hexec
  rw [segEffect_of_ok (hend.trans (congrArg (Option.map _) (herr _ hlast)))] at hexec hframe
  refine ⟨_, _, hexec, hframe, rfl, segOk_diag .., hip, rfl, rfl, rfl, rfl, fun c hpc => ?_, fun c hcp => ?_,
    fun hfinite c hcp => ?_⟩
  · exact (getD_settleChans_of_le _ _ _ _ hpc).trans (segRun_keeps_chan (Nat.zero_le p) (.inr hpc))
  · exact (settleChans_fill ..).trans (congrArg Chan.fill (chan_of_segRun hg hw hrows (Nat.le_refl p) hprev hcp))
  · have hrun : (segRun g p s).ok = true := hok.trans hfinite
    have hchan := chan_of_segRun hg hw hrows (Nat.le_refl p) hprev hcp
    have hrow := row_of_segRun hg hw hrows (Nat.le_refl p) hprev hcp (herr c hcp)
      (channelRuns_ok_of_le hg hw (Nat.le_sub_one_of_lt hcp) hlast hfinite)
    have hslot := wrapper_of_segRun hg hw hrows (Nat.le_refl p) hprev hcp
    rw [State.memRead, segOk_hm_of_ok hrun, segOk_ola_of_ok hrun, hrun, settleChans_true]
    refine ⟨hrow, congrArg Chan.ovf hchan, fun o ho => ?_, fun hnone => ?_⟩
    · rw [ho, herr c hcp] at hslot
      exact hslot
    · rw [hnone] at hslot
      exact hslot

/-- Settles O25: the run stops at the failing channel, and the end with an inner error keeps the wrappers as it left them. -/
theorem segProcInnerErrorAborts : Obligations.SegProcInnerErrorAborts := by
  unfold Obligations.SegProcInnerErrorAborts
  intro s g hseg hg p q hn hrows hw c hc d hprev hd
  obtain ⟨hip, hok, hend⟩ := segRun_after hg hw hrows hc hprev
  have hprev' : ∀ j, j + 1 < c + 1 → (q j).err = none := fun j hj => hprev j (by omega)
  have hend : (segRun g (c + 1) s).err = some (c, d) := hend.trans (congrArg (Option.map _) hd)
  have hstop : segRun g p s = segRun g (c + 1) s := segRun_of_err hc hend
  have hexec := execSegProc_runs hseg hn hrows hw
  have hframe := segProcFrame_segEffect g p s
  have hport := fun hinner => segEffect_wrapper_of_ext (g := g) hinner p s
  change execSegProc s = .next (segEffect g p s) at hexec
  rw [segEffect_of_err (hstop ▸ hend), hstop] at hexec hframe hport
  refine ⟨_, _, hexec, hframe, rfl, rfl, hip, rfl, rfl, rfl, rfl, fun hinner => ⟨?_, fun j hj => ?_⟩, hport,
    fun hfinite j hj o ho => ?_, fun j hj => ?_⟩
  · obtain ⟨o, ho⟩ := channelRuns_wrapper hg hw hc hinner
    have hslot := wrapper_of_segRun hg hw hrows hc hprev' (Nat.lt_succ_self c)
    rw [ho, show (channelRuns s g c).err = some d from hd] at hslot
    exact ⟨o, (settleWrappers_of_le _ _ _ _ _ _ _ (Nat.le_refl c)).trans hslot⟩
  · obtain ⟨o, ho⟩ := channelRuns_wrapper hg hw (hj.trans hc) hinner
    have hslot := wrapper_of_segRun hg hw hrows hc hprev' (Nat.lt_succ_of_lt hj)
    rw [ho, hprev j hj] at hslot
    exact settleWrappers_configured _ _ _ _ _ _ _ hslot
  · have hslot := wrapper_of_segRun hg hw hrows hc hprev' (Nat.lt_succ_of_lt hj)
    rw [ho, hprev j hj] at hslot
    rw [segErr_ola_of_ok (hok.trans hfinite)]
    exact hslot
  · exact (settleWrappers_of_le _ _ _ _ _ _ _ hj.le).trans (segRun_keeps_wrapper (Nat.zero_le _) (.inr hj))

end Sys2Proof.Machine
end

