-- ==== Sys2Proof/Proofs/OlaProc.lean ====
section
/-! `OLA.PROC` (rules R141, R142, R148, R149) in the words of the statements: its checks, the one invocation it makes, and the
state it leaves for each answer of the inner processor. -/
namespace Sys2Proof.Machine
open Sys2Proof.Stated

/-! ### The checks -/

section
variable {i : InstNo} {o : OlaInst} {s : State}

theorem execOlaProc_unconfigured (h : ∀ o, s.olaAt i ≠ .configured o) : execOlaProc i s = .next (s.raise .state) := by
  unfold execOlaProc
  split
  · next o ho => exact absurd ho (h o)
  · rfl

theorem execOlaProc_operand (ho : s.olaAt i = .configured o) (hr : s.cfg.hmsize < s.ptr0 + o.b) :
    execOlaProc i s = .next (s.raise .operand) := by
  simp only [execOlaProc, ho]
  exact if_neg (mt (Range.valid_iff _ _).1 (Nat.not_le.2 hr))

theorem execOlaProc_runs (ho : s.olaAt i = .configured o) (hr : s.ptr0 + o.b ≤ s.cfg.hmsize) :
    execOlaProc i s = .next (olaEffect i o s) := by
  simp only [execOlaProc, ho]
  exact if_pos ((Range.valid_iff _ _).2 hr)

end

/-! ### The invocation -/

/-- The block that `OLA.PROC` takes in. -/
def procBlock (o : OlaInst) (s : State) : List Word := s.memRead s.ptr0 o.b

/-- The vector that `OLA.PROC` hands to the inner processor: `work` of rule R142, unspecified under U1. -/
def procVector (o : OlaInst) (s : State) : List Word :=
  settle (olaOkIn s.cfg o (procBlock o s) true) s.tick (.portIn s.ip.calls) (handedOver o (procBlock o s))

/-- The invocation that `OLA.PROC` makes. -/
def procCall (i : InstNo) (o : OlaInst) (s : State) : PortRun :=
  callPort s.cfg (.ola i.toNat) (procVector o s) s.ops.env s.ip

/-- Whether an `OLA.PROC` that ends with `OK` is numerically well-formed, `v` being what the inner processor returned. -/
def procOk (o : OlaInst) (s : State) (v : List Word) : Bool :=
  olaOkIn s.cfg o (procBlock o s) true && allFinite v && allFinite (reweighted o v) && allFinite o.outCarry &&
    allFinite (summed o v)

section
variable {i : InstNo} {o : OlaInst} {s : State}

theorem olaOkIn_of_finite {c : Config} {blk : List Word} (ht : o.taint = false) (hx : allFinite (slid o blk) = true)
    (hw : allFinite (handedOver o blk) = true) : olaOkIn c o blk true = true := by
  simp only [olaOkIn, olaWork_eq_handedOver, ht, hw, Bool.not_false, Bool.and_true, Bool.true_and]
  exact hx

/-- The invocation inside `ola_process` is the one the statements speak of. -/
theorem olaCall_eq_procCall :
    olaCall s.cfg s.tick i.toNat s.env o (s.memRead s.ptr0 o.b) true s.ip = procCall i o s := rfl

/-! ### The state that `OLA.PROC` leaves -/

theorem olaEffect_ok {m : Word} (h : (procCall i o s).res = .ok m) :
    olaEffect i o s =
      ((((s.putOla i (.configured ((advanced o (procBlock o s) (procCall i o s).out).settled
        (procOk o s (procCall i o s).out) s.tick i.toNat))).setIp (procCall i o s).ip).memWrite s.ptr0
        (settleWords (procOk o s (procCall i o s).out) s.tick .data (summed o (procCall i o s).out))).setMsg m).complete := by
  rw [← olaCall_eq_procCall] at h ⊢
  simp only [olaEffect, olaProcess_ok h]
  rfl

theorem olaEffect_err {d : Word} (h : (procCall i o s).res = .err d) :
    olaEffect i o s =
      ((s.putOla i (.faulted (o.spoil s.tick i.toNat))).setIp (procCall i o s).ip).raiseInner 0 d := by
  rw [← olaCall_eq_procCall] at h ⊢
  simp only [olaEffect, olaProcess_err h]

theorem olaEffect_ip : (olaEffect i o s).ip = (procCall i o s).ip := by
  cases h : (procCall i o s).res with
  | ok m => rw [olaEffect_ok h]; rfl
  | err d => rw [olaEffect_err h]; rfl

/-- Everything but HM, the wrappers, `IPState` and the registers of the answer is as before. -/
theorem olaEffect_rest :
    { olaEffect i o s with hm := s.hm, ola := s.ola, ip := s.ip, msg := s.msg, diag := s.diag, status := s.status } = s := by
  cases h : (procCall i o s).res with
  | ok m => rw [olaEffect_ok h]; rfl
  | err d => rw [olaEffect_err h]; rfl

theorem olaEffect_olaAt_other {j : InstNo} (hj : j ≠ i) : (olaEffect i o s).olaAt j = s.olaAt j := by
  cases h : (procCall i o s).res with
  | ok m => rw [olaEffect_ok h]; exact Cells.get_set_otherInst _ _ _ hj
  | err d => rw [olaEffect_err h]; exact Cells.get_set_otherInst _ _ _ hj

theorem olaEffect_fixed (ho : s.olaAt i = .configured o) :
    olaFixed ((olaEffect i o s).olaAt i) = olaFixed (s.olaAt i) := by
  refine ((Frame.olaEffect ho).ola i.toNat).fixed (fun a q hs => ?_) nofun ?_
  · exact ⟨olaFixed_eq_of_same hs, olaFixed_eq_of_same hs⟩
  · rintro (⟨j, pre, post, hi, -⟩ | ⟨⟨pre, post, hi⟩, -⟩) <;> cases hi

/-- On `Ok` the block in HM is the sum of step 5, when everything is finite. -/
theorem olaEffect_memRead {m : Word} (h : (procCall i o s).res = .ok m) (hok : procOk o s (procCall i o s).out = true) :
    (olaEffect i o s).memRead s.ptr0 o.b = summed o (procCall i o s).out := by
  have hlen : (summed o (procCall i o s).out).length = o.b := length_vec ..
  have hwritten := Memory.read_write_same s.hm s.ptr0 ((summed o (procCall i o s).out).map .known)
  rw [List.length_map, hlen, map_value_known] at hwritten
  rw [olaEffect_ok h, hok]
  exact hwritten

end

/-- Settles O22: a check that fails ends the command with its error; otherwise the answer of the inner processor decides between
`olaEffect_ok` and `olaEffect_err`. -/
theorem olaProcRunsProcedure : Obligations.OlaProcRunsProcedure := by
  unfold Obligations.OlaProcRunsProcedure
  refine ⟨fun i => decode_of_encode_eq (cw_eq_append 3 1 i false false false), fun i s => ⟨execOlaProc_unconfigured,
    fun o ho => ⟨execOlaProc_operand ho, fun hr => ?_⟩⟩⟩
  refine ⟨olaEffect i o s, procVector o s, execOlaProc_runs ho hr, olaEffect_rest, fun a ha => ?_,
    fun j => olaEffect_olaAt_other, olaEffect_fixed ho, length_settle .., fun hspec => ?_, olaEffect_ip, fun m hm => ?_,
    fun d hd => ?_⟩
  · by_contra hne
    have hrange := olaEffect_writes hne
    omega
  · obtain ⟨ht, hx, hw⟩ := hspec
    rw [procVector, procBlock, olaOkIn_of_finite ht hx hw, settle_true]
  · have hstate := olaEffect_ok hm
    refine ⟨congrArg State.status hstate, congrArg State.msg hstate, (congrArg State.diag hstate :), _,
      (congrArg (State.olaAt · i) hstate).trans (olaSlot_putOla_same ..), ?_⟩
    rintro ⟨ht, hx, hw⟩ hout hre hcarry hsum
    have hok : procOk o s (procCall i o s).out = true := by
      simp only [procOk, Bool.and_eq_true]
      exact ⟨⟨⟨⟨olaOkIn_of_finite ht hx hw, hout⟩, hre⟩, hcarry⟩, hsum⟩
    exact ⟨olaEffect_memRead hm hok, if_pos hok⟩
  · have hstate := olaEffect_err hd
    exact ⟨congrArg State.status hstate, (congrArg State.msg hstate :), congrArg State.diag hstate,
      (congrArg State.hm hstate :), _,
      (congrArg (State.olaAt · i) hstate).trans (olaSlot_putOla_same ..)⟩

end Sys2Proof.Machine
end

