-- ==== Sys2Proof/Proofs/OverlapAddGain.lean ====
section
/-! The overlap-add condition over the reals (rules R145, R146): what a wrapper does to a block between two identity calls of its
inner processor. -/
namespace Sys2Proof.Machine
open Sys2Proof.Stated

section
variable (wm : Nat → Nat → ℝ) {b : Nat} (w : List ℝ) {j : Nat}

/-- An optional application of the window multiplies by the coefficient to the power of 0 or 1. -/
theorem getD_windowIf_real (flag : Bool) (v : List ℝ) (hj : j < 2 * b) :
    (windowIf (realNumerics wm) flag b w v).getD j 0 = v.getD j 0 * w.getD j 0 ^ flag.toNat := by
  cases flag with
  | false => simp [windowIf]
  | true =>
    rw [windowIf, if_pos rfl, applyWindow, getD_vec, if_pos hj, Bool.toNat_true, pow_one]
    rfl

/-- The pre-window and the post-window around an identity inner processor weight a sample by `e[j]` (rule R146). -/
theorem getD_windowIf_windowIf_real (pre post : Bool) (v : List ℝ) (hj : j < 2 * b) :
    (windowIf (realNumerics wm) post b w (windowIf (realNumerics wm) pre b w v)).getD j 0 =
      v.getD j 0 * w.getD j 0 ^ (pre.toNat + post.toNat) := by
  rw [getD_windowIf_real wm w post _ hj, getD_windowIf_real wm w pre _ hj, pow_add, mul_assoc]

end

/-- Settles O54: the block `x1` stands second in the window of one call, from which the carry comes, and first in the window of
the next (rule R145). -/
theorem realOverlapAddGain : Obligations.RealOverlapAddGain := by
  unfold Obligations.RealOverlapAddGain
  intro wm b pre post w x0 x1 x2 N h0 h1 _ e call
  have hcall : ∀ (u : List ℝ) (j : Nat), j < 2 * b → (call u).getD j 0 = u.getD j 0 * e j := fun u j hj =>
    getD_windowIf_windowIf_real wm w pre post u hj
  refine vec_congr fun j hj => ?_
  have hslide : olaSlide b (x0 ++ x1) x2 = x1 ++ x2 := by rw [olaSlide, List.drop_left' h0]
  have hfirst : (call (x1 ++ x2)).getD j 0 = x1.getD j 0 * e j := by
    rw [hcall _ j (by omega), List.getD_append _ _ _ _ (h1.symm ▸ hj)]
  have hcarry : (olaCarry N b (call (x0 ++ x1))).getD j 0 = x1.getD j 0 * e (b + j) := by
    rw [olaCarry, getD_vec, if_pos hj, show N.zero = (0 : ℝ) from rfl, hcall _ (b + j) (by omega),
      List.getD_append_right _ _ _ _ (by omega), h0, Nat.add_sub_cancel_left]
  calc (call (olaSlide b (x0 ++ x1) x2)).getD j 0 + (olaCarry N b (call (x0 ++ x1))).getD j 0
      = x1.getD j 0 * e j + x1.getD j 0 * e (b + j) := by rw [hslide, hfirst, hcarry]
    _ = (e j + e (b + j)) * x1.getD j 0 := by ring

end Sys2Proof.Machine
end

