-- ==== Sys2Proof/Proofs/DctCommands.lean ====
section
/-! The commands of the unit DCT (rules R171, R172): the checks they share, and what is left in HM. -/
namespace Sys2Proof.Machine
open Sys2Proof.Stated

section
variable {f : Nat → List Word → List Word} {i : InstNo} {d : DctInst} {s : State}

theorem dctRangesOk_iff_rangesGood (s : State) (n : Nat) : dctRangesOk s n = true ↔ RangesGood s n n :=
  mdctRangesOk_iff s n n

/-! ### The checks -/

theorem dctProcess_unconfigured (h : ∀ d, s.dctAt i ≠ .configured d) : dctProcess f i s = .next (s.raise .state) := by
  unfold dctProcess
  split
  · next d hd => exact absurd hd (h d)
  · rfl

theorem dctProcess_operand (hd : s.dctAt i = .configured d) (hr : ¬ RangesGood s d.n d.n) :
    dctProcess f i s = .next (s.raise .operand) := by
  simp only [dctProcess, hd]
  exact if_neg (mt (dctRangesOk_iff_rangesGood s d.n).1 hr)

theorem dctProcess_runs (hd : s.dctAt i = .configured d) (hr : RangesGood s d.n d.n) :
    dctProcess f i s = .next (dctEffect (f d.n) d.n s) := by
  simp only [dctProcess, hd]
  exact if_pos ((dctRangesOk_iff_rangesGood s d.n).2 hr)

end

/-! ### The effect on HM -/

/-- The scratch range is written after the data range, and does not touch it (rules R170, R171). -/
theorem dctEffect_memRead {g : List Word → List Word} {n : Nat} {s : State} (hr : RangesGood s n n)
    (hlen : (g (s.memRead s.ptr0 n)).length = n) (hin : allFinite (s.memRead s.ptr0 n) = true)
    (hout : allFinite (g (s.memRead s.ptr0 n)) = true) :
    (dctEffect g n s).memRead s.ptr0 n = g (s.memRead s.ptr0 n) := by
  obtain ⟨-, -, hdisjoint⟩ := hr
  have hscratch (m : Memory) :
      (m.write s.ptr1 (freeWords s.tick .scratch n)).read s.ptr0 n = m.read s.ptr0 n := by
    rcases hdisjoint with rfl | rfl | hdata
    · rfl
    · rfl
    · exact Memory.read_write_disjoint _ _ _ _ _ (by rwa [length_freeWords])
  have hdata := Memory.read_write_same s.hm s.ptr0 ((g (s.memRead s.ptr0 n)).map .known)
  rw [List.length_map, hlen, map_value_known] at hdata
  rw [dctEffect, hin, hout]
  exact (hscratch _).trans hdata

/-- What the two commands share: the checks of rule R171 in their order, and the effect of a transform that keeps the length. -/
theorem dctCommand_of_dctProcess {op : BitVec 8} {command : InstNo → Instr} {f : Config → Nat → List Word → List Word}
    (hword : ∀ i, encode (command i) = op ++ i ++ 0x0000#16)
    (hexec : ∀ i s, exec (command i) s = dctProcess (f s.cfg) i s)
    (hlen : ∀ c d x, (f c (2 ^ (d + 1)) x).length = 2 ^ (d + 1)) : DctCommand op command f := by
  refine ⟨fun i => decode_of_encode_eq (hword i), fun i s => ?_⟩
  rw [hexec]
  refine ⟨dctProcess_unconfigured, fun d hd hpow htwo => ⟨dctProcess_operand hd, fun hr => ?_⟩⟩
  have hkept (x : List Word) : (f s.cfg d.n x).length = d.n := by
    obtain ⟨depth, hn⟩ := isPow2_succ ((isPow2_iff d.n).2 hpow) htwo
    rw [hn]
    exact hlen s.cfg depth x
  refine ⟨_, dctProcess_runs hd hr, rfl, rfl, fun a h0 h1 => ?_, dctEffect_memRead hr (hkept _)⟩
  by_contra hne
  have hrange := dctEffect_writes hkept hne
  omega

/-- Settles O18: `DCT.FWD` is `dctProcess` with the forward transform. -/
theorem dctFwdTransformsInPlace : Obligations.DctFwdTransformsInPlace := by
  unfold Obligations.DctFwdTransformsInPlace
  exact dctCommand_of_dctProcess (fun i => cw_eq_append 1 1 i false false false) (fun _ _ => rfl)
    fun c d => length_dctForward (binary32 c) (2 ^ (d + 1))

/-- Settles O19: `DCT.INV` is `dctProcess` with the inverse transform. -/
theorem dctInvTransformsInPlace : Obligations.DctInvTransformsInPlace := by
  unfold Obligations.DctInvTransformsInPlace
  exact dctCommand_of_dctProcess (fun i => cw_eq_append 1 2 i false false false) (fun _ _ => rfl)
    fun c d x => length_dctInverse (binary32 c) x ⟨d, rfl⟩

end Sys2Proof.Machine
end

