-- ==== Sys2Proof/Proofs/TransformConstants.lean ====
section
/-! The constants of the transforms: the defaults that rules R162 and R192 print, and the global multiplier (rule R163). -/
namespace Sys2Proof.Machine

/-- Settles O46: the constants are closed terms of natural-number arithmetic, which the kernel evaluates. -/
theorem constantsArePrintedOnes : Obligations.ConstantsArePrintedOnes := by
  unfold Obligations.ConstantsArePrintedOnes
  decide +kernel

/-- Settles O47: the multiplier of length `2^k` has the exponent field `128 - k` and the fraction 0, so that its value is
`2^23 * 2^(127 - k)` units. -/
theorem globalMultiplierIsTwoOverN : Obligations.GlobalMultiplierIsTwoOverN := by
  unfold Obligations.GlobalMultiplierIsTwoOverN
  intro k hk1 hk31
  have hconst : gConst (2 ^ k) = packSample false ((127 - k) * 2 ^ 23 + 2 ^ 23) := by
    rw [gConst, Nat.log2_two_pow, show 127 - (k - 1) = 127 - k + 1 by omega, Nat.succ_mul]
  have hbits : (127 - k) * 2 ^ 23 + 2 ^ 23 < 2 ^ 31 := by omega
  rw [hconst, isFinite_packSample _ hbits, exactValue_packSample _ hbits, if_neg Bool.false_ne_true,
    magnitude_packSample _ (by decide) (.inr le_rfl) hbits]
  refine ⟨by omega, ?_⟩
  have hvalue : 2 ^ 23 * 2 ^ (127 - k) * 2 ^ k = 2 * 2 ^ 149 := by
    rw [Nat.mul_assoc, ← Nat.pow_add, Nat.sub_add_cancel (by omega)]
    norm_num
  exact_mod_cast hvalue

end Sys2Proof.Machine
end

