-- ==== Sys2Proof/Proofs/TransformRecursion.lean ====
section
/-! One step of the two recursions on vectors, for vectors given index by index (rules R164 and R167): what the results of the two
nested recursions must be, and how the elements of the result come from them. -/
namespace Sys2Proof.Machine

theorem getD_vec_of_lt {α : Type} {n j : Nat} (f : Nat → α) (d : α) (h : j < n) : (vec n f).getD j d = f j := by
  rw [getD_vec, if_pos h]

variable {α : Type} {N : Numerics α} {d : Nat} {s t x y : Nat → α}

theorem fwdRec_zero_vec : fwdRec N 0 (vec 2 x) = [N.add (x 0) (x 1), N.mul (N.sub (x 0) (x 1)) (N.k 2 0)] := rfl

theorem invRec_zero_vec :
    invRec N 0 (vec 2 x) = [N.add (x 0) (N.mul (x 1) (N.k 2 0)), N.sub (x 0) (N.mul (x 1) (N.k 2 0))] := rfl

/-- If `s` and `t` are the half-length results of rule R164, and `y` is their interleaving, then `y` is the result. -/
theorem fwdRec_succ_eq_vec
    (hs : fwdRec N d (vec (2 ^ (d + 1)) fun j => N.add (x j) (x (2 ^ (d + 2) - 1 - j))) = vec (2 ^ (d + 1)) s)
    (ht : fwdRec N d (vec (2 ^ (d + 1)) fun j => N.mul (N.sub (x j) (x (2 ^ (d + 2) - 1 - j))) (N.k (2 ^ (d + 2)) j)) =
      vec (2 ^ (d + 1)) t)
    (heven : ∀ m < 2 ^ (d + 1), y (2 * m) = s m)
    (hodd : ∀ m, m + 1 < 2 ^ (d + 1) → y (2 * m + 1) = N.add (t m) (t (m + 1)))
    (hlast : ∀ m, m + 1 = 2 ^ (d + 1) → y (2 * m + 1) = t m) :
    fwdRec N (d + 1) (vec (2 ^ (d + 2)) x) = vec (2 ^ (d + 2)) y := by
  have hl : 2 ^ (d + 2) = 2 * 2 ^ (d + 1) := Nat.pow_succ'
  have hx : ∀ i < 2 ^ (d + 2), (vec (2 ^ (d + 2)) x).getD i N.zero = x i := fun i => getD_vec_of_lt x _
  have hsums : (vec (2 ^ (d + 1)) fun j => N.add ((vec (2 ^ (d + 2)) x).getD j N.zero)
      ((vec (2 ^ (d + 2)) x).getD (2 ^ (d + 2) - 1 - j) N.zero)) = _ :=
    vec_congr fun j hj => by rw [hx j (by omega), hx _ (by omega)]
  have hdifferences : (vec (2 ^ (d + 1)) fun j => N.mul (N.sub ((vec (2 ^ (d + 2)) x).getD j N.zero)
      ((vec (2 ^ (d + 2)) x).getD (2 ^ (d + 2) - 1 - j) N.zero)) (N.k (2 ^ (d + 2)) j)) = _ :=
    vec_congr fun j hj => by rw [hx j (by omega), hx _ (by omega)]
  rw [fwdRec, hsums, hdifferences, hs, ht]
  refine vec_congr fun i hi => ?_
  obtain ⟨m, rfl | rfl⟩ := Nat.even_or_odd' i
  · have hm : m < 2 ^ (d + 1) := by omega
    rw [if_pos (by omega), Nat.mul_div_cancel_left _ (by decide), getD_vec_of_lt s _ hm, heven m hm]
  · have hm : m < 2 ^ (d + 1) := by omega
    rw [if_neg (by omega), show (2 * m + 1) / 2 = m by omega, getD_vec_of_lt t _ hm]
    by_cases hnext : m + 1 < 2 ^ (d + 1)
    · rw [if_pos hnext, getD_vec_of_lt t _ hnext, hodd m hnext]
    · rw [if_neg hnext, hlast m (by omega)]

/-- If `s` and `t` are the half-length results of rule R167, and `y` their butterfly, then `y` is the result. -/
theorem invRec_succ_eq_vec
    (hs : invRec N d (vec (2 ^ (d + 1)) fun j => x (2 * j)) = vec (2 ^ (d + 1)) s)
    (ht : invRec N d (vec (2 ^ (d + 1)) fun j => if j = 0 then x 1 else N.add (x (2 * j - 1)) (x (2 * j + 1))) =
      vec (2 ^ (d + 1)) t)
    (hlow : ∀ j < 2 ^ (d + 1), y j = N.add (s j) (N.mul (t j) (N.k (2 ^ (d + 2)) j)))
    (hhigh : ∀ j < 2 ^ (d + 1), y (2 ^ (d + 2) - 1 - j) = N.sub (s j) (N.mul (t j) (N.k (2 ^ (d + 2)) j))) :
    invRec N (d + 1) (vec (2 ^ (d + 2)) x) = vec (2 ^ (d + 2)) y := by
  have hl : 2 ^ (d + 2) = 2 * 2 ^ (d + 1) := Nat.pow_succ'
  have hx : ∀ i < 2 ^ (d + 2), (vec (2 ^ (d + 2)) x).getD i N.zero = x i := fun i => getD_vec_of_lt x _
  have hevens : (vec (2 ^ (d + 1)) fun j => (vec (2 ^ (d + 2)) x).getD (2 * j) N.zero) = _ :=
    vec_congr fun j hj => hx (2 * j) (by omega)
  have hodds : (vec (2 ^ (d + 1)) fun j => if j = 0 then (vec (2 ^ (d + 2)) x).getD 1 N.zero
      else N.add ((vec (2 ^ (d + 2)) x).getD (2 * j - 1) N.zero) ((vec (2 ^ (d + 2)) x).getD (2 * j + 1) N.zero)) = _ :=
    vec_congr fun j hj => by rw [hx 1 (by omega), hx (2 * j - 1) (by omega), hx (2 * j + 1) (by omega)]
  rw [invRec, hevens, hodds, hs, ht]
  refine vec_congr fun i hi => ?_
  by_cases hi' : i < 2 ^ (d + 1)
  · rw [if_pos hi', getD_vec_of_lt s _ hi', getD_vec_of_lt t _ hi', hlow i hi']
  · obtain ⟨j, hj, rfl⟩ : ∃ j < 2 ^ (d + 1), i = 2 ^ (d + 2) - 1 - j := ⟨2 ^ (d + 2) - 1 - i, by omega, by omega⟩
    rw [if_neg hi', show 2 ^ (d + 2) - 1 - (2 ^ (d + 2) - 1 - j) = j by omega, getD_vec_of_lt s _ hj, getD_vec_of_lt t _ hj,
      hhigh j hj]

end Sys2Proof.Machine
end

