-- ==== Sys2Proof/Proofs/TwoBuffers.lean ====
section
/-! The two-buffer procedures of rules R164 and R167 compute the recursions on vectors, whatever the scratch buffer holds. Each
procedure fills the scratch buffer, makes two nested calls with the roles of the buffers swapped, and fills the data buffer from
their results. -/
namespace Sys2Proof.Machine
open Sys2Proof.Stated

variable {α : Type}

/-! ### Loops in which every iteration writes two elements -/

theorem put_same (D : Nat → α) (a : Nat) (x : α) : put D a x a = x := if_pos rfl

theorem put_other (D : Nat → α) {a i : Nat} (x : α) (h : i ≠ a) : put D a x i = D i := if_neg h

theorem loop_succ {β : Type} (n : Nat) (body : Nat → β → β) (D : β) : loop (n + 1) body D = body n (loop n body D) := by
  simp [loop, List.range_succ]

section
variable (p q : Nat → Nat) (x y : Nat → α) {n : Nat} (D : Nat → α)

theorem loop_put_put_untouched {i : Nat} (h : ∀ j < n, i ≠ p j ∧ i ≠ q j) :
    loop n (fun j E => put (put E (p j) (x j)) (q j) (y j)) D i = D i := by
  induction n with
  | zero => rfl
  | succ n ih =>
    obtain ⟨hp, hq⟩ := h n n.lt_succ_self
    rw [loop_succ, put_other _ _ hq, put_other _ _ hp, ih fun j hj => h j (hj.trans n.lt_succ_self)]

/-- The first element of iteration `k` holds what that iteration wrote, when no later write is at the same place. -/
theorem loop_put_put_fst {k : Nat} (hk : k < n) (hp : ∀ j < n, k < j → p k ≠ p j) (hq : ∀ j < n, p k ≠ q j) :
    loop n (fun j E => put (put E (p j) (x j)) (q j) (y j)) D (p k) = x k := by
  induction n with
  | zero => exact absurd hk (Nat.not_lt_zero k)
  | succ n ih =>
    rw [loop_succ, put_other _ _ (hq n n.lt_succ_self)]
    rcases Nat.lt_succ_iff_lt_or_eq.1 hk with hlt | rfl
    · rw [put_other _ _ (hp n n.lt_succ_self hlt),
        ih hlt (fun j hj => hp j (hj.trans n.lt_succ_self)) fun j hj => hq j (hj.trans n.lt_succ_self)]
    · exact put_same ..

theorem loop_put_put_snd {k : Nat} (hk : k < n) (hp : ∀ j < n, q k ≠ p j) (hq : ∀ j < n, k < j → q k ≠ q j) :
    loop n (fun j E => put (put E (p j) (x j)) (q j) (y j)) D (q k) = y k := by
  induction n with
  | zero => exact absurd hk (Nat.not_lt_zero k)
  | succ n ih =>
    rw [loop_succ]
    rcases Nat.lt_succ_iff_lt_or_eq.1 hk with hlt | rfl
    · rw [put_other _ _ (hq n n.lt_succ_self hlt), put_other _ _ (hp n n.lt_succ_self),
        ih hlt (fun j hj => hp j (hj.trans n.lt_succ_self)) fun j hj => hq j (hj.trans n.lt_succ_self)]
    · exact put_same ..

end

/-! ### Procedures on two buffers -/

/-- A procedure on two arrays and the offset of a sub-range; the result is the two arrays. -/
abbrev BufferProc (α : Type) := (D S : Nat → α) → (off : Nat) → (Nat → α) × (Nat → α)

/-- Two nested calls on the halves of a sub-range (rules R164, R167). -/
def nestedCalls (P : BufferProc α) (h : Nat) (D S : Nat → α) (off : Nat) : (Nat → α) × (Nat → α) :=
  P (P D S off).1 (P D S off).2 (off + h)

/-- The procedure `P` replaces the sub-range `off` to `off+n-1` of its first array by its image under `f`, whatever the second
array holds, and touches nothing outside that sub-range in either. -/
def RunsInPlace (n : Nat) (f : List α → List α) (P : BufferProc α) : Prop :=
  ∀ D S off, (vec n fun j => (P D S off).1 (off + j)) = f (vec n fun j => D (off + j)) ∧
    ∀ i, i < off ∨ off + n ≤ i → (P D S off).1 i = D i ∧ (P D S off).2 i = S i

/-- Two nested calls transform the two halves, each from what stood there before. -/
theorem RunsInPlace.nestedCalls {h : Nat} {f : List α → List α} {P : BufferProc α} (hP : RunsInPlace h f P)
    (D S : Nat → α) (off : Nat) {r : (Nat → α) × (Nat → α)} (hr : Machine.nestedCalls P h D S off = r) :
    f (vec h fun j => D (off + j)) = (vec h fun j => r.1 (off + j)) ∧
      f (vec h fun j => D (off + h + j)) = (vec h fun j => r.1 (off + h + j)) ∧
      ∀ i, i < off ∨ off + 2 * h ≤ i → r.1 i = D i ∧ r.2 i = S i := by
  subst hr
  obtain ⟨hfst, hframe⟩ := hP D S off
  obtain ⟨hsnd, hframe'⟩ := hP (P D S off).1 (P D S off).2 (off + h)
  refine ⟨?_, ?_, fun i hi => ?_⟩
  · rw [← hfst]
    exact vec_congr fun j hj => ((hframe' (off + j) (by omega)).1).symm
  · refine (congrArg f (vec_congr fun j hj => ?_)).trans hsnd.symm
    exact ((hframe (off + h + j) (by omega)).1).symm
  · obtain ⟨hD, hS⟩ := hframe i (by omega)
    obtain ⟨hD', hS'⟩ := hframe' i (by omega)
    exact ⟨hD'.trans hD, hS'.trans hS⟩

/-! ### The forward procedure (rule R164) -/

section
variable (N : Numerics α) {l h : Nat} (D S : Nat → α) (off : Nat)

/-- The split: the butterflies of `D` into `S`. -/
def fwdSplit (l h : Nat) : Nat → α :=
  loop h (fun j S =>
    put (put S (off + j) (N.add (D (off + j)) (D (off + l - 1 - j)))) (off + h + j)
      (N.mul (N.sub (D (off + j)) (D (off + l - 1 - j))) (N.k l j))) S

/-- The interleaving of the half-results in `S` into `D`. -/
def fwdInterleave (l h : Nat) : Nat → α :=
  put (put (loop (h - 1) (fun j D =>
    put (put D (off + 2 * j) (S (off + j))) (off + 2 * j + 1) (N.add (S (off + h + j)) (S (off + h + j + 1)))) D)
    (off + l - 2) (S (off + h - 1))) (off + l - 1) (S (off + l - 1))

theorem fwdInPlace_succ (d : Nat) : fwdInPlace N (d + 1) D S off =
    let r := nestedCalls (fwdInPlace N d) (2 ^ (d + 1)) (fwdSplit N D S off (2 ^ (d + 2)) (2 ^ (d + 1))) D off
    (fwdInterleave N r.2 r.1 off (2 ^ (d + 2)) (2 ^ (d + 1)), r.1) := rfl

variable {m : Nat}

theorem fwdSplit_sum (hm : m < h) :
    fwdSplit N D S off l h (off + m) = N.add (D (off + m)) (D (off + l - 1 - m)) :=
  loop_put_put_fst (fun j => off + j) (fun j => off + h + j) _ _ _ hm (fun j _ _ => by omega) fun j _ => by omega

theorem fwdSplit_difference (hm : m < h) :
    fwdSplit N D S off l h (off + h + m) = N.mul (N.sub (D (off + m)) (D (off + l - 1 - m))) (N.k l m) :=
  loop_put_put_snd (fun j => off + j) (fun j => off + h + j) _ _ _ hm (fun j _ => by omega) fun j _ _ => by omega

theorem fwdSplit_outside (hm : m < off ∨ off + 2 * h ≤ m) : fwdSplit N D S off l h m = S m :=
  loop_put_put_untouched (fun j => off + j) (fun j => off + h + j) _ _ _ fun j _ => by omega

section
variable (hl : l = 2 * h)
include hl

theorem fwdInterleave_even (hm : m < h) : fwdInterleave N D S off l h (off + 2 * m) = S (off + m) := by
  rw [fwdInterleave, put_other _ _ (by omega)]
  by_cases hlast : m + 1 = h
  · rw [show off + 2 * m = off + l - 2 by omega, put_same, show off + h - 1 = off + m by omega]
  · rw [put_other _ _ (by omega)]
    exact loop_put_put_fst (fun j => off + 2 * j) (fun j => off + 2 * j + 1) _ _ _ (by omega) (fun j _ _ => by omega)
      fun j _ => by omega

theorem fwdInterleave_odd (hm : m + 1 < h) :
    fwdInterleave N D S off l h (off + (2 * m + 1)) = N.add (S (off + h + m)) (S (off + h + (m + 1))) := by
  rw [fwdInterleave, put_other _ _ (by omega), put_other _ _ (by omega)]
  exact loop_put_put_snd (fun j => off + 2 * j) (fun j => off + 2 * j + 1) _ _ _ (by omega) (fun j _ => by omega)
    fun j _ _ => by omega

theorem fwdInterleave_last (hm : m + 1 = h) : fwdInterleave N D S off l h (off + (2 * m + 1)) = S (off + h + m) := by
  rw [fwdInterleave, show off + (2 * m + 1) = off + l - 1 by omega, put_same, show off + l - 1 = off + h + m by omega]

theorem fwdInterleave_outside (h0 : 0 < h) (hm : m < off ∨ off + l ≤ m) : fwdInterleave N D S off l h m = D m := by
  rw [fwdInterleave, put_other _ _ (by omega), put_other _ _ (by omega)]
  exact loop_put_put_untouched (fun j => off + 2 * j) (fun j => off + 2 * j + 1) _ _ _ fun j _ => by omega

end
end

/-- The procedure of rule R164 computes `fwdRec`. -/
theorem fwdInPlace_runsInPlace (N : Numerics α) (d : Nat) : RunsInPlace (2 ^ (d + 1)) (fwdRec N d) (fwdInPlace N d) := by
  induction d with
  | zero =>
    refine fun D S off => ⟨?_, fun i hi => ⟨?_, rfl⟩⟩
    · exact congrArg₂ (fun a b => [a, b]) ((put_other _ _ off.lt_succ_self.ne).trans (put_same ..)) (put_same ..)
    · obtain ⟨h0, h1⟩ : i ≠ off ∧ i ≠ off + 1 := by omega
      exact (put_other _ _ h1).trans (put_other _ _ h0)
  | succ d ih =>
    intro D S off
    have hl : 2 ^ (d + 2) = 2 * 2 ^ (d + 1) := Nat.pow_succ'
    rw [fwdInPlace_succ]
    generalize hr : nestedCalls _ _ _ _ _ = r
    obtain ⟨hsums, hdifferences, hframe⟩ := ih.nestedCalls _ D off hr
    refine ⟨(fwdRec_succ_eq_vec (Eq.trans ?_ hsums) (Eq.trans ?_ hdifferences)
      (fun m hm => fwdInterleave_even N r.2 r.1 off hl hm) (fun m hm => fwdInterleave_odd N r.2 r.1 off hl hm)
      fun m hm => fwdInterleave_last N r.2 r.1 off hl hm).symm, fun i hi => ⟨?_, ?_⟩⟩
    · refine congrArg _ (vec_congr fun j hj => ?_)
      rw [fwdSplit_sum N D S off hj, show off + 2 ^ (d + 2) - 1 - j = off + (2 ^ (d + 2) - 1 - j) by omega]
    · refine congrArg _ (vec_congr fun j hj => ?_)
      rw [fwdSplit_difference N D S off hj, show off + 2 ^ (d + 2) - 1 - j = off + (2 ^ (d + 2) - 1 - j) by omega]
    · exact (fwdInterleave_outside N r.2 r.1 off hl (Nat.two_pow_pos _) hi).trans (hframe i (hl ▸ hi)).2
    · exact (hframe i (hl ▸ hi)).1.trans (fwdSplit_outside N D S off (hl ▸ hi))

/-! ### The inverse procedure (rule R167) -/

section
variable (N : Numerics α) {l h : Nat} (D S : Nat → α) (off : Nat)

/-- The de-interleaving of `D` into `S`. -/
def invSplit (h : Nat) : Nat → α :=
  loop (h - 1) (fun i S =>
    put (put S (off + (i + 1)) (D (off + 2 * (i + 1)))) (off + h + (i + 1))
      (N.add (D (off + 2 * (i + 1) - 1)) (D (off + 2 * (i + 1) + 1)))) (put (put S off (D off)) (off + h) (D (off + 1)))

/-- The butterflies of the half-results in `S` into `D`. -/
def invButterfly (l h : Nat) : Nat → α :=
  loop h (fun j D =>
    put (put D (off + j) (N.add (S (off + j)) (N.mul (S (off + h + j)) (N.k l j)))) (off + l - 1 - j)
      (N.sub (S (off + j)) (N.mul (S (off + h + j)) (N.k l j)))) D

theorem invInPlace_succ (d : Nat) : invInPlace N (d + 1) D S off =
    let r := nestedCalls (invInPlace N d) (2 ^ (d + 1)) (invSplit N D S off (2 ^ (d + 1))) D off
    (invButterfly N r.2 r.1 off (2 ^ (d + 2)) (2 ^ (d + 1)), r.1) := rfl

variable {m : Nat}

theorem invSplit_even (hm : m < h) : invSplit N D S off h (off + m) = D (off + 2 * m) := by
  cases m with
  | zero =>
    refine (loop_put_put_untouched (fun i => off + (i + 1)) (fun i => off + h + (i + 1)) _ _ _ fun i _ => by omega).trans ?_
    exact (put_other _ _ (by omega)).trans (put_same ..)
  | succ m =>
    exact loop_put_put_fst (fun i => off + (i + 1)) (fun i => off + h + (i + 1)) _ _ _ (by omega) (fun i _ _ => by omega)
      fun i _ => by omega

theorem invSplit_odd (hm : m < h) : invSplit N D S off h (off + h + m) =
    if m = 0 then D (off + 1) else N.add (D (off + (2 * m - 1))) (D (off + (2 * m + 1))) := by
  cases m with
  | zero =>
    refine (loop_put_put_untouched (fun i => off + (i + 1)) (fun i => off + h + (i + 1)) _ _ _ fun i _ => by omega).trans ?_
    exact put_same ..
  | succ m =>
    exact loop_put_put_snd (fun i => off + (i + 1)) (fun i => off + h + (i + 1)) _ _ _ (by omega) (fun i _ => by omega)
      fun i _ _ => by omega

theorem invSplit_outside (h0 : 0 < h) (hm : m < off ∨ off + 2 * h ≤ m) : invSplit N D S off h m = S m := by
  refine (loop_put_put_untouched (fun i => off + (i + 1)) (fun i => off + h + (i + 1)) _ _ _ fun i _ => by omega).trans ?_
  exact (put_other _ _ (by omega)).trans (put_other _ _ (by omega))

section
variable (hl : l = 2 * h)
include hl

theorem invButterfly_low (hm : m < h) :
    invButterfly N D S off l h (off + m) = N.add (S (off + m)) (N.mul (S (off + h + m)) (N.k l m)) :=
  loop_put_put_fst (fun j => off + j) (fun j => off + l - 1 - j) _ _ _ hm (fun j _ _ => by omega) fun j _ => by omega

theorem invButterfly_high (hm : m < h) :
    invButterfly N D S off l h (off + (l - 1 - m)) = N.sub (S (off + m)) (N.mul (S (off + h + m)) (N.k l m)) := by
  rw [show off + (l - 1 - m) = off + l - 1 - m by omega]
  exact loop_put_put_snd (fun j => off + j) (fun j => off + l - 1 - j) _ _ _ hm (fun j _ => by omega)
    fun j _ _ => by omega

theorem invButterfly_outside (hm : m < off ∨ off + l ≤ m) : invButterfly N D S off l h m = D m :=
  loop_put_put_untouched (fun j => off + j) (fun j => off + l - 1 - j) _ _ _ fun j _ => by omega

end
end

/-- The procedure of rule R167 computes `invRec`. -/
theorem invInPlace_runsInPlace (N : Numerics α) (d : Nat) : RunsInPlace (2 ^ (d + 1)) (invRec N d) (invInPlace N d) := by
  induction d with
  | zero =>
    refine fun D S off => ⟨?_, fun i hi => ⟨?_, rfl⟩⟩
    · exact congrArg₂ (fun a b => [a, b]) ((put_other _ _ off.lt_succ_self.ne).trans (put_same ..)) (put_same ..)
    · obtain ⟨h0, h1⟩ : i ≠ off ∧ i ≠ off + 1 := by omega
      exact (put_other _ _ h1).trans (put_other _ _ h0)
  | succ d ih =>
    intro D S off
    have hl : 2 ^ (d + 2) = 2 * 2 ^ (d + 1) := Nat.pow_succ'
    rw [invInPlace_succ]
    generalize hr : nestedCalls _ _ _ _ _ = r
    obtain ⟨hevens, hodds, hframe⟩ := ih.nestedCalls _ D off hr
    refine ⟨(invRec_succ_eq_vec (Eq.trans ?_ hevens) (Eq.trans ?_ hodds)
      (fun j hj => invButterfly_low N r.2 r.1 off hl hj) fun j hj => invButterfly_high N r.2 r.1 off hl hj).symm,
      fun i hi => ⟨?_, ?_⟩⟩
    · exact congrArg _ (vec_congr fun j hj => (invSplit_even N D S off hj).symm)
    · exact congrArg _ (vec_congr fun j hj => (invSplit_odd N D S off hj).symm)
    · exact (invButterfly_outside N r.2 r.1 off hl hi).trans (hframe i (hl ▸ hi)).2
    · exact (hframe i (hl ▸ hi)).1.trans (invSplit_outside N D S off (Nat.two_pow_pos _) (hl ▸ hi))

/-! ### The statements -/

/-- Settles O48: `fwdInPlace_runsInPlace`, and the post-scaling of rule R165 read at each index. -/
theorem forwardRefinesTwoBuffers : Obligations.ForwardRefinesTwoBuffers := by
  unfold Obligations.ForwardRefinesTwoBuffers
  intro α N d D S off n x r
  obtain ⟨hresult, hframe⟩ := fwdInPlace_runsInPlace N d D S off
  refine ⟨hresult, hframe, ?_⟩
  rw [dctForward_two_pow]
  refine Eq.trans (congrArg (postScale N n) hresult.symm) (vec_congr fun j hj => ?_)
  rw [getD_vec_of_lt _ _ hj, getD_vec_of_lt _ _ (Nat.two_pow_pos (d + 1))]
  rfl

/-- Settles O49: `invInPlace_runsInPlace`; the inverse has no post-scaling (rule R168). -/
theorem inverseRefinesTwoBuffers : Obligations.InverseRefinesTwoBuffers := by
  unfold Obligations.InverseRefinesTwoBuffers
  intro α N d D S off n y r
  rw [dctInverse_two_pow]
  exact invInPlace_runsInPlace N d D S off

end Sys2Proof.Machine
end

