-- ==== Sys2Proof/Proofs/CosineSums.lean ====
section
/-! The transforms over the reals (rules R160 to R163, R173). At the angles `θ = π (2j+1) / (2n)` the cosine sums of length `2h`
split into cosine sums of length `h`, which is the butterfly decomposition of rules R164 and R167. -/
namespace Sys2Proof.Machine
open Sys2Proof.Stated Finset

/-! ### The angles of the cosine sums -/

/-- The angle of index `j` in the sums of length `n` (rules R160, R161). -/
noncomputable def dctAngle (n j : Nat) : ℝ := Real.pi * (2 * j + 1) / (2 * n)

theorem dctAngle_half (h j : Nat) : dctAngle h j = 2 * dctAngle (2 * h) j := by
  unfold dctAngle
  push_cast
  rw [← mul_div_assoc, mul_div_mul_left _ _ two_ne_zero]

theorem dctAngle_mirror {n j : Nat} (hj : j < n) : dctAngle n (n - 1 - j) = Real.pi - dctAngle n j := by
  have hn : (n : ℝ) ≠ 0 := Nat.cast_ne_zero.2 (by omega)
  obtain ⟨m, rfl⟩ : ∃ m, n = j + 1 + m := ⟨n - (j + 1), by omega⟩
  rw [show j + 1 + m - 1 - j = m by omega, dctAngle, dctAngle]
  field_simp
  push_cast
  ring

theorem cos_dctAngle_pos {h j : Nat} (hj : j < h) : 0 < Real.cos (dctAngle (2 * h) j) := by
  have hh : (0 : ℝ) < h := Nat.cast_pos.2 (by omega)
  have hlt : (2 * j + 1 : ℝ) < 2 * h := by exact_mod_cast (by omega : 2 * j + 1 < 2 * h)
  refine Real.cos_pos_of_mem_Ioo ⟨?_, ?_⟩
  · have : 0 ≤ dctAngle (2 * h) j := by unfold dctAngle; positivity
    linarith [Real.pi_pos]
  · unfold dctAngle
    push_cast
    rw [div_lt_div_iff₀ (by positivity) two_pos]
    linarith [mul_lt_mul_of_pos_left hlt Real.pi_pos]

/-- Mirroring the index changes the sign of the odd cosines. -/
theorem cos_mul_dctAngle_mirror {n j : Nat} (hj : j < n) (k : Nat) :
    Real.cos (k * dctAngle n (n - 1 - j)) = (-1) ^ k * Real.cos (k * dctAngle n j) := by
  rw [dctAngle_mirror hj, mul_sub, Real.cos_nat_mul_pi_sub]

/-- The cosines of length `h` are the even ones of length `2h`. -/
theorem cos_mul_dctAngle_half (m h j : Nat) :
    Real.cos (m * dctAngle h j) = Real.cos ((2 * m : Nat) * dctAngle (2 * h) j) := by
  rw [dctAngle_half]
  push_cast
  ring_nf

/-- The cosine of index `n` vanishes at every angle of length `n`. -/
theorem cos_length_mul_dctAngle {n : Nat} (hn : 0 < n) (j : Nat) : Real.cos (n * dctAngle n j) = 0 := by
  have hn' : (n : ℝ) ≠ 0 := Nat.cast_ne_zero.2 hn.ne'
  rw [Real.cos_eq_zero_iff]
  refine ⟨j, ?_⟩
  unfold dctAngle
  field_simp
  push_cast
  ring

/-- The recurrence of the cosines of the multiples of an angle. -/
theorem cos_mul_add_cos_mul (k : Nat) (θ : ℝ) :
    Real.cos (k * θ) + Real.cos ((k + 2 : Nat) * θ) = 2 * Real.cos θ * Real.cos ((k + 1 : Nat) * θ) := by
  have hsum : (k * θ + (k + 2 : Nat) * θ) / 2 = (k + 1 : Nat) * θ := by push_cast; ring
  have hdifference : (k * θ - (k + 2 : Nat) * θ) / 2 = -θ := by push_cast; ring
  rw [Real.cos_add_cos, hsum, hdifference, Real.cos_neg, mul_right_comm]

/-! ### The sums of rule R160 -/

/-- The unscaled sum of type II. -/
noncomputable def cosineSum (n : Nat) (x : Nat → ℝ) (k : Nat) : ℝ := ∑ j ∈ range n, x j * Real.cos (k * dctAngle n j)

/-- The weight `c(k)` of rule R160. -/
noncomputable def dcWeight (k : Nat) : ℝ := if k = 0 then 1 / 2 else 1

theorem dct2_eq (n : Nat) (x : Nat → ℝ) (k : Nat) : dct2 n x k = 2 / n * dcWeight k * cosineSum n x k := by
  refine congrArg _ (sum_congr rfl fun j _ => ?_)
  rw [dctAngle, ← mul_div_assoc, mul_comm (k : ℝ)]

/-- The sums of mirrored elements (rule R164). -/
def mirrorSum (h : Nat) (x : Nat → ℝ) (j : Nat) : ℝ := x j + x (2 * h - 1 - j)

/-- The differences of mirrored elements, weighted by `K` (rules R162, R164). -/
noncomputable def mirrorDifference (h : Nat) (x : Nat → ℝ) (j : Nat) : ℝ :=
  (x j - x (2 * h - 1 - j)) * (1 / (2 * Real.cos (dctAngle (2 * h) j)))

theorem sum_range_mirror (h : Nat) (g : Nat → ℝ) :
    ∑ j ∈ range (2 * h), g j = ∑ j ∈ range h, (g j + g (2 * h - 1 - j)) := by
  rw [two_mul, sum_range_add, sum_add_distrib, ← sum_range_reflect (fun j => g (h + j))]
  refine congrArg _ (sum_congr rfl fun j hj => congrArg g ?_)
  have := mem_range.1 hj
  omega

/-- A sum of length `2h`, gathered by mirrored pairs. -/
theorem cosineSum_eq_mirror (h : Nat) (x : Nat → ℝ) (k : Nat) : cosineSum (2 * h) x k =
    ∑ j ∈ range h, (x j + (-1) ^ k * x (2 * h - 1 - j)) * Real.cos (k * dctAngle (2 * h) j) := by
  rw [cosineSum, sum_range_mirror]
  refine sum_congr rfl fun j hj => ?_
  have hj' := mem_range.1 hj
  rw [cos_mul_dctAngle_mirror (by omega)]
  ring

theorem cosineSum_even (h : Nat) (x : Nat → ℝ) (m : Nat) :
    cosineSum (2 * h) x (2 * m) = cosineSum h (mirrorSum h x) m := by
  rw [cosineSum_eq_mirror, cosineSum]
  refine sum_congr rfl fun j _ => ?_
  rw [mirrorSum, cos_mul_dctAngle_half m, (even_two_mul m).neg_one_pow, one_mul]

theorem cosineSum_odd (h : Nat) (x : Nat → ℝ) (m : Nat) : cosineSum (2 * h) x (2 * m + 1) =
    cosineSum h (mirrorDifference h x) m + cosineSum h (mirrorDifference h x) (m + 1) := by
  rw [cosineSum_eq_mirror, cosineSum, cosineSum, ← sum_add_distrib]
  refine sum_congr rfl fun j hj => ?_
  have hcos := (cos_dctAngle_pos (mem_range.1 hj)).ne'
  rw [← mul_add, cos_mul_dctAngle_half m, cos_mul_dctAngle_half (m + 1), Nat.mul_succ, cos_mul_add_cos_mul, mirrorDifference,
    (odd_two_mul_add_one m).neg_one_pow]
  field_simp
  ring

theorem cosineSum_one (x : Nat → ℝ) : cosineSum 1 x 0 = x 0 := by simp [cosineSum]

theorem cosineSum_length {n : Nat} (hn : 0 < n) (x : Nat → ℝ) : cosineSum n x n = 0 :=
  sum_eq_zero fun j _ => by rw [cos_length_mul_dctAngle hn, mul_zero]

/-! ### The sums of rule R161 -/

theorem dct3_eq (n : Nat) (y : Nat → ℝ) (j : Nat) : dct3 n y j = ∑ k ∈ range n, y k * Real.cos (k * dctAngle n j) := by
  refine sum_congr rfl fun k _ => ?_
  rw [dctAngle, ← mul_div_assoc, mul_comm (k : ℝ)]

theorem dct3_one (y : Nat → ℝ) : dct3 1 y 0 = y 0 := by simp [dct3]

/-- A sum of length `h`, at the angles of length `2h`. -/
theorem dct3_eq_half (h : Nat) (y : Nat → ℝ) (j : Nat) :
    dct3 h y j = ∑ m ∈ range h, y m * Real.cos ((2 * m : Nat) * dctAngle (2 * h) j) := by
  rw [dct3_eq]
  exact sum_congr rfl fun m _ => by rw [cos_mul_dctAngle_half]

/-- The terms of odd index of a sum of length `2h`. -/
noncomputable def dct3Odd (h : Nat) (y : Nat → ℝ) (j : Nat) : ℝ :=
  ∑ m ∈ range h, y (2 * m + 1) * Real.cos ((2 * m + 1 : Nat) * dctAngle (2 * h) j)

theorem sum_range_even_odd (h : Nat) (g : Nat → ℝ) :
    ∑ k ∈ range (2 * h), g k = ∑ m ∈ range h, g (2 * m) + ∑ m ∈ range h, g (2 * m + 1) := by
  induction h with
  | zero => simp only [Nat.mul_zero, sum_range_zero, add_zero]
  | succ h ih =>
    rw [Nat.mul_succ, sum_range_succ, sum_range_succ, ih, sum_range_succ, sum_range_succ]
    ring

theorem dct3_low (h : Nat) (y : Nat → ℝ) (j : Nat) :
    dct3 (2 * h) y j = dct3 h (fun m => y (2 * m)) j + dct3Odd h y j := by
  rw [dct3_eq, sum_range_even_odd, dct3_eq_half, dct3Odd]

theorem dct3_high {h j : Nat} (hj : j < 2 * h) (y : Nat → ℝ) :
    dct3 (2 * h) y (2 * h - 1 - j) = dct3 h (fun m => y (2 * m)) j - dct3Odd h y j := by
  rw [dct3_eq, sum_range_even_odd, dct3_eq_half, dct3Odd, sub_eq_add_neg, ← sum_neg_distrib]
  refine congrArg₂ _ (sum_congr rfl fun m _ => ?_) (sum_congr rfl fun m _ => ?_)
  · rw [cos_mul_dctAngle_mirror hj, (even_two_mul m).neg_one_pow, one_mul]
  · rw [cos_mul_dctAngle_mirror hj, (odd_two_mul_add_one m).neg_one_pow, neg_one_mul, mul_neg]

/-- The sums of neighbours at odd indices (rule R167). -/
def oddNeighbours (y : Nat → ℝ) (m : Nat) : ℝ := if m = 0 then y 1 else y (2 * m - 1) + y (2 * m + 1)

/-- Summation by parts: the terms of odd index, from the sums of neighbours. -/
theorem sum_oddNeighbours (y : Nat → ℝ) (θ : ℝ) (h : Nat) :
    2 * Real.cos θ * ∑ m ∈ range (h + 1), y (2 * m + 1) * Real.cos ((2 * m + 1 : Nat) * θ) =
      ∑ m ∈ range (h + 1), oddNeighbours y m * Real.cos ((2 * m : Nat) * θ) +
        y (2 * h + 1) * Real.cos ((2 * (h + 1) : Nat) * θ) := by
  induction h with
  | zero =>
    have hfirst : oddNeighbours y 0 = y 1 := if_pos rfl
    rw [sum_range_one, sum_range_one, hfirst]
    linear_combination -y 1 * cos_mul_add_cos_mul 0 θ
  | succ h ih =>
    have hlast : oddNeighbours y (h + 1) = y (2 * h + 1) + y (2 * (h + 1) + 1) := if_neg h.succ_ne_zero
    rw [sum_range_succ, sum_range_succ _ (h + 1), hlast]
    linear_combination ih - y (2 * (h + 1) + 1) * cos_mul_add_cos_mul (2 * (h + 1)) θ

/-- Summation by parts: a sum of neighbours of `t` at each odd cosine, from the terms of `t` at the even ones. -/
theorem sum_neighbours (t : Nat → ℝ) (θ : ℝ) (h : Nat) :
    ∑ m ∈ range (h + 1), (t m + t (m + 1)) * Real.cos ((2 * m + 1 : Nat) * θ) =
      2 * Real.cos θ * ∑ m ∈ range (h + 1), dcWeight m * t m * Real.cos ((2 * m : Nat) * θ) +
        t (h + 1) * Real.cos ((2 * h + 1 : Nat) * θ) := by
  induction h with
  | zero =>
    have hfirst : dcWeight 0 = 1 / 2 := if_pos rfl
    rw [sum_range_one, sum_range_one, hfirst]
    simp only [mul_zero, zero_add, Nat.cast_zero, Nat.cast_one, zero_mul, one_mul, Real.cos_zero]
    ring
  | succ h ih =>
    have hlast : dcWeight (h + 1) = 1 := if_neg h.succ_ne_zero
    rw [sum_range_succ, ih, sum_range_succ _ (h + 1), hlast]
    linear_combination t (h + 1) * cos_mul_add_cos_mul (2 * h + 1) θ

/-- The terms of odd index are `K` times a sum of half the length (rule R167). -/
theorem dct3Odd_eq {h j : Nat} (hj : j < h) (y : Nat → ℝ) :
    dct3Odd h y j = dct3 h (oddNeighbours y) j * (1 / (2 * Real.cos (dctAngle (2 * h) j))) := by
  obtain ⟨g, rfl⟩ : ∃ g, h = g + 1 := ⟨h - 1, by omega⟩
  have hcos := (cos_dctAngle_pos hj).ne'
  have hparts := sum_oddNeighbours y (dctAngle (2 * (g + 1)) j) g
  rw [← cos_mul_dctAngle_half, cos_length_mul_dctAngle g.succ_pos, mul_zero, add_zero] at hparts
  rw [dct3_eq_half, ← hparts, dct3Odd, mul_one_div, mul_div_cancel_left₀ _ (mul_ne_zero two_ne_zero hcos)]

/-! ### The round trip (rule R173) -/

/-- If the terms of odd index are sums of neighbours of `t`, they are a multiple of the weighted sum of `t`. -/
theorem dct3Odd_of_neighbours {h : Nat} (hh : 0 < h) {y t : Nat → ℝ} (hy : ∀ m < h, y (2 * m + 1) = t m + t (m + 1))
    (hlast : t h = 0) (j : Nat) :
    dct3Odd h y j = 2 * Real.cos (dctAngle (2 * h) j) * dct3 h (fun m => dcWeight m * t m) j := by
  obtain ⟨g, rfl⟩ : ∃ g, h = g + 1 := ⟨h - 1, by omega⟩
  have hparts := sum_neighbours t (dctAngle (2 * (g + 1)) j) g
  rw [hlast, zero_mul, add_zero] at hparts
  rw [dct3_eq_half, ← hparts, dct3Odd]
  exact sum_congr rfl fun m hm => by rw [hy m (mem_range.1 hm)]

/-- The weighted sum of rule R160, without the factor `2 / n`. -/
noncomputable def weightedSum (n : Nat) (x : Nat → ℝ) (k : Nat) : ℝ := dcWeight k * cosineSum n x k

theorem weightedSum_even (h : Nat) (x : Nat → ℝ) (m : Nat) :
    weightedSum (2 * h) x (2 * m) = weightedSum h (mirrorSum h x) m := by
  have hweight : dcWeight (2 * m) = dcWeight m := by simp only [dcWeight, mul_eq_zero, two_ne_zero, false_or]
  rw [weightedSum, weightedSum, cosineSum_even, hweight]

theorem weightedSum_odd (h : Nat) (x : Nat → ℝ) (m : Nat) : weightedSum (2 * h) x (2 * m + 1) =
    cosineSum h (mirrorDifference h x) m + cosineSum h (mirrorDifference h x) (m + 1) := by
  rw [weightedSum, cosineSum_odd, dcWeight, if_neg (Nat.succ_ne_zero _), one_mul]

/-- The sum of type III undoes the weighted sum of type II, but for the factor `n / 2`. -/
theorem dct3_weightedSum (d : Nat) (x : Nat → ℝ) {i : Nat} (hi : i < 2 ^ d) :
    dct3 (2 ^ d) (weightedSum (2 ^ d) x) i = 2 ^ d / 2 * x i := by
  induction d generalizing x i with
  | zero =>
    obtain rfl : i = 0 := by omega
    rw [pow_zero, pow_zero, dct3_one, weightedSum, cosineSum_one, dcWeight, if_pos rfl]
  | succ d ih =>
    have heven (j : Nat) (hj : j < 2 ^ d) : dct3 (2 ^ d) (fun m => weightedSum (2 * 2 ^ d) x (2 * m)) j =
        2 ^ d / 2 * (x j + x (2 * 2 ^ d - 1 - j)) := by
      rw [funext (weightedSum_even (2 ^ d) x), ih _ hj, mirrorSum]
    have hodd (j : Nat) (hj : j < 2 ^ d) : dct3Odd (2 ^ d) (weightedSum (2 * 2 ^ d) x) j =
        2 ^ d / 2 * (x j - x (2 * 2 ^ d - 1 - j)) := by
      have hcos := (cos_dctAngle_pos hj).ne'
      rw [dct3Odd_of_neighbours (Nat.two_pow_pos d) (fun m _ => weightedSum_odd ..) (cosineSum_length (Nat.two_pow_pos d) _)]
      refine (congrArg _ (ih _ hj)).trans ?_
      rw [mirrorDifference]
      field_simp
    rw [Nat.pow_succ'] at hi ⊢
    rw [pow_succ' (2 : ℝ)]
    rcases Nat.lt_or_ge i (2 ^ d) with hlow | hhigh
    · rw [dct3_low, heven i hlow, hodd i hlow]
      ring
    · obtain ⟨j, hj, rfl⟩ : ∃ j < 2 ^ d, i = 2 * 2 ^ d - 1 - j := ⟨2 * 2 ^ d - 1 - i, by omega, by omega⟩
      rw [dct3_high (by omega), heven j hj, hodd j hj]
      ring

theorem dct3_dct2 (d : Nat) (x : Nat → ℝ) {i : Nat} (hi : i < 2 ^ d) : dct3 (2 ^ d) (dct2 (2 ^ d) x) i = x i := by
  have hscale : dct3 (2 ^ d) (dct2 (2 ^ d) x) i = 2 / (2 ^ d : Nat) * dct3 (2 ^ d) (weightedSum (2 ^ d) x) i := by
    rw [dct3_eq, dct3_eq, mul_sum]
    refine sum_congr rfl fun k _ => ?_
    rw [dct2_eq, weightedSum, mul_assoc, mul_assoc, mul_assoc]
  rw [hscale, dct3_weightedSum d x hi]
  push_cast
  field_simp

/-! ### The dataflow over the reals -/

section
variable (wm : Nat → Nat → ℝ)

theorem real_k (l j : Nat) : (realNumerics wm).k l j = 1 / (2 * Real.cos (dctAngle l j)) := by
  have hangle : ((j : ℝ) + 1 / 2) * Real.pi / l = dctAngle l j := by
    rw [dctAngle, ← mul_div_mul_left _ _ (two_ne_zero (α := ℝ))]
    ring
  exact congrArg (fun θ => 1 / (2 * Real.cos θ)) hangle

/-- The forward recursion computes the unscaled sum of type II (rule R164). -/
theorem fwdRec_real (d : Nat) (x : Nat → ℝ) :
    fwdRec (realNumerics wm) d (vec (2 ^ (d + 1)) x) = vec (2 ^ (d + 1)) (cosineSum (2 ^ (d + 1)) x) := by
  induction d generalizing x with
  | zero =>
    have hsum : cosineSum (2 * 1) x (2 * 0) = x 0 + x 1 := by rw [cosineSum_even, cosineSum_one, mirrorSum]
    have hdifference : cosineSum (2 * 1) x (2 * 0 + 1) = (x 0 - x 1) * (realNumerics wm).k 2 0 := by
      rw [cosineSum_odd, zero_add, cosineSum_length one_pos, add_zero, cosineSum_one, real_k, mirrorDifference]
    exact congrArg₂ (fun a b => [a, b]) hsum.symm hdifference.symm
  | succ d ih =>
    have hl : 2 ^ (d + 2) = 2 * 2 ^ (d + 1) := Nat.pow_succ'
    refine fwdRec_succ_eq_vec (s := cosineSum (2 ^ (d + 1)) (mirrorSum (2 ^ (d + 1)) x))
      (t := cosineSum (2 ^ (d + 1)) (mirrorDifference (2 ^ (d + 1)) x)) ?_ ?_ ?_ ?_ ?_
    · rw [← ih, hl]
      rfl
    · rw [← ih, hl]
      refine congrArg _ (vec_congr fun j _ => ?_)
      rw [real_k, mirrorDifference]
      rfl
    · exact fun m _ => hl ▸ cosineSum_even ..
    · exact fun m _ => hl ▸ cosineSum_odd ..
    · intro m hm
      rw [hl, cosineSum_odd, hm, cosineSum_length (Nat.two_pow_pos _), add_zero]

/-- The post-scaling multiplies by the factors of rule R160. -/
theorem postScale_real {n : Nat} (hn : 0 < n) (x : Nat → ℝ) :
    postScale (realNumerics wm) n (vec n x) = vec n fun k => 2 / n * dcWeight k * x k := by
  refine vec_congr fun k hk => ?_
  rw [getD_vec_of_lt x _ hk, getD_vec_of_lt x _ hn, dcWeight]
  split
  · next h0 =>
    subst h0
    change x 0 * (1 / 2) * (2 / n) = _
    ring
  · rw [mul_one]
    exact mul_comm ..

/-- The inverse recursion computes the sum of type III (rule R167). -/
theorem invRec_real (d : Nat) (y : Nat → ℝ) :
    invRec (realNumerics wm) d (vec (2 ^ (d + 1)) y) = vec (2 ^ (d + 1)) (dct3 (2 ^ (d + 1)) y) := by
  induction d generalizing y with
  | zero =>
    have hodd : dct3Odd 1 y 0 = y 1 * (realNumerics wm).k 2 0 := by
      rw [dct3Odd_eq one_pos, dct3_one, real_k, mul_one, oddNeighbours, if_pos rfl]
    have hlow : dct3 (2 * 1) y 0 = y 0 + y 1 * (realNumerics wm).k 2 0 := by rw [dct3_low, dct3_one, hodd]
    have hhigh : dct3 (2 * 1) y 1 = y 0 - y 1 * (realNumerics wm).k 2 0 := by
      rw [dct3_high (j := 0) two_pos, dct3_one, hodd]
    exact congrArg₂ (fun a b => [a, b]) hlow.symm hhigh.symm
  | succ d ih =>
    have hl : 2 ^ (d + 2) = 2 * 2 ^ (d + 1) := Nat.pow_succ'
    refine invRec_succ_eq_vec (ih _) (ih (oddNeighbours y)) (fun j hj => ?_) fun j hj => ?_
    · rw [real_k, hl, dct3_low, dct3Odd_eq hj]
      rfl
    · rw [real_k, hl, dct3_high (by omega), dct3Odd_eq hj]
      rfl

end

/-- Settles O50: `fwdRec_real`, with the factors of rule R165. -/
theorem realForwardIsDctTwo : Obligations.RealForwardIsDctTwo := by
  unfold Obligations.RealForwardIsDctTwo
  intro wm d x n
  rw [dctForward_two_pow]
  calc postScale _ n (fwdRec _ d (vec n x))
      = postScale _ n (vec n (cosineSum n x)) := congrArg _ (fwdRec_real wm d x)
    _ = vec n fun k => 2 / n * dcWeight k * cosineSum n x k := postScale_real wm (Nat.two_pow_pos _) _
    _ = vec n (dct2 n x) := vec_congr fun k _ => (dct2_eq n x k).symm

/-- Settles O51: `invRec_real`; the inverse has no scaling (rule R168). -/
theorem realInverseIsDctThree : Obligations.RealInverseIsDctThree := by
  unfold Obligations.RealInverseIsDctThree
  intro wm d y n
  rw [dctInverse_two_pow]
  exact invRec_real wm d y

/-- Settles O52: on the sums of rules R160 and R161, by `dct3_dct2`. -/
theorem realInverseUndoesForward : Obligations.RealInverseUndoesForward := by
  unfold Obligations.RealInverseUndoesForward
  intro wm d x hx
  rw [eq_vec x 0, hx]
  calc dctInverse (realNumerics wm) (2 ^ (d + 1)) (dctForward (realNumerics wm) (2 ^ (d + 1)) (vec _ _))
      = dctInverse (realNumerics wm) (2 ^ (d + 1)) (vec _ (dct2 _ fun j => x.getD j 0)) :=
        congrArg _ (realForwardIsDctTwo wm d _)
    _ = vec _ (dct3 _ (dct2 _ fun j => x.getD j 0)) := realInverseIsDctThree wm d _
    _ = vec _ fun j => x.getD j 0 := vec_congr fun j => dct3_dct2 (d + 1) _

end Sys2Proof.Machine
end

