-- ==== Sys2Proof/Proofs/MdctCommands.lean ====
section
/-! The commands of the unit MDCT (rules R194, R196): the checks they share, the end they share, and the samples each writes. -/
namespace Sys2Proof.Machine
open Sys2Proof.Stated

/-! ### The checks -/

/-- What the two commands have in common: a slot of block size `B`, an input of `m` words and an output of `k` words for
`(m, k) = sizes B`, and an effect that waits for the checks. -/
def mdctProcess (sizes : Nat → Nat × Nat) (effect : InstNo → MdctInst → State → State) (i : InstNo) (s : State) :
    Host.Outcome State Fault Refusal :=
  match s.mdctAt i with
  | .configured m =>
    if mdctRangesOk s (sizes m.b).1 (sizes m.b).2 then .next (effect i m s) else .next (s.raise .operand)
  | _ => .next (s.raise .state)

theorem exec_mdctFwd (i : InstNo) (s : State) :
    exec (.mdctFwd i) s = mdctProcess (fun b => (b, 2 * b)) mdctFwdEffect i s := rfl

theorem exec_mdctInv (i : InstNo) (s : State) :
    exec (.mdctInv i) s = mdctProcess (fun b => (2 * b, b)) mdctInvEffect i s := rfl

section
variable {sizes : Nat → Nat × Nat} {effect : InstNo → MdctInst → State → State} {i : InstNo} {m : MdctInst} {s : State}

theorem mdctProcess_unconfigured (h : ∀ m, s.mdctAt i ≠ .configured m) :
    mdctProcess sizes effect i s = .next (s.raise .state) := by
  unfold mdctProcess
  split
  · next m hm => exact absurd hm (h m)
  · rfl

theorem mdctProcess_operand (hm : s.mdctAt i = .configured m) (hr : ¬ RangesGood s (sizes m.b).1 (sizes m.b).2) :
    mdctProcess sizes effect i s = .next (s.raise .operand) := by
  simp only [mdctProcess, hm]
  exact if_neg (mt (mdctRangesOk_iff s _ _).1 hr)

theorem mdctProcess_runs (hm : s.mdctAt i = .configured m) (hr : RangesGood s (sizes m.b).1 (sizes m.b).2) :
    mdctProcess sizes effect i s = .next (effect i m s) := by
  simp only [mdctProcess, hm]
  exact if_pos ((mdctRangesOk_iff s _ _).2 hr)

end

/-! ### The end of a command -/

/-- The state after a command that leaves `q` in its slot and gives the samples `y`, unspecified under U1 (`ok = false`). -/
def mdctEnd (i : InstNo) (q : MdctInst) (ok : Bool) (y : List Word) (s : State) : State :=
  ((s.putMdct i (.configured q)).memWrite s.ptr1 (settleWords ok s.tick .data y)).complete

section
variable {i : InstNo} {q : MdctInst} {ok : Bool} {y : List Word} {s : State} {n : Nat}

/-- Everything but HM, the instances of the unit and `STATUS` is as before. -/
theorem mdctEnd_rest : { mdctEnd i q ok y s with hm := s.hm, mdct := s.mdct, status := s.status } = s := rfl

theorem mdctEnd_sameOutside (hlen : y.length = n) : SameOutsideRange s (mdctEnd i q ok y s) s.ptr1 n := fun a ha =>
  Memory.get_write_outside _ _ _ a (by rwa [length_settleWords, hlen])

theorem mdctEnd_mdctAt_same : (mdctEnd i q ok y s).mdctAt i = .configured q := Cells.get_set_same ..

theorem mdctEnd_mdctAt_other {j : InstNo} (hj : j ≠ i) : (mdctEnd i q ok y s).mdctAt j = s.mdctAt j :=
  Cells.get_set_otherInst _ _ _ hj

theorem mdctEnd_memRead (hlen : y.length = n) (hok : ok = true) : (mdctEnd i q ok y s).memRead s.ptr1 n = y := by
  subst hlen hok
  have hwritten := Memory.read_write_same s.hm s.ptr1 (y.map .known)
  rw [List.length_map, map_value_known] at hwritten
  exact hwritten

end

/-! ### What each command writes -/

/-- The coefficients that `MDCT.FWD` gives: the transform of the lapped buffer (rule R191). -/
def mdctCoefficients (m : MdctInst) (s : State) : List Word :=
  dctForward (binary32 s.cfg) (2 * m.b) (m.dctBuf ++ s.memRead s.ptr0 m.b)

/-- Whether an `MDCT.FWD` is numerically well-formed (rule R13). -/
def mdctFwdOk (m : MdctInst) (s : State) : Bool :=
  !m.dctTaint && allFinite m.dctBuf && allFinite (s.memRead s.ptr0 m.b) && allFinite (mdctCoefficients m s)

/-- The slot's content after `MDCT.FWD`. -/
def mdctFwdNext (m : MdctInst) (s : State) : MdctInst :=
  { m with dctBuf := settle (mdctFwdOk m s) s.tick .dctBuf (s.memRead s.ptr0 m.b), dctTaint := !mdctFwdOk m s }

theorem mdctFwdEffect_eq (i : InstNo) (m : MdctInst) (s : State) :
    mdctFwdEffect i m s = mdctEnd i (mdctFwdNext m s) (mdctFwdOk m s) (mdctCoefficients m s) s := rfl

/-- The inverse transform of the coefficients that `MDCT.INV` takes in. -/
def mdctLapped (m : MdctInst) (s : State) : List Word :=
  dctInverse (binary32 s.cfg) (2 * m.b) (s.memRead s.ptr0 (2 * m.b))

/-- The block that `MDCT.INV` gives. -/
def mdctBlockOut (m : MdctInst) (s : State) : List Word := mdctOut (binary32 s.cfg) m.b (mdctLapped m s) m.idctBuf

/-- The trailing half that `MDCT.INV` carries over to the next call. -/
def mdctBlockCarry (m : MdctInst) (s : State) : List Word := mdctCarry (binary32 s.cfg) m.b (mdctLapped m s)

/-- Whether an `MDCT.INV` is numerically well-formed (rule R13). -/
def mdctInvOk (m : MdctInst) (s : State) : Bool :=
  !m.idctTaint && allFinite m.idctBuf && allFinite (s.memRead s.ptr0 (2 * m.b)) && allFinite (mdctBlockOut m s) &&
    allFinite (mdctBlockCarry m s)

/-- The slot's content after `MDCT.INV`. -/
def mdctInvNext (m : MdctInst) (s : State) : MdctInst :=
  { m with idctBuf := settle (mdctInvOk m s) s.tick .idctBuf (mdctBlockCarry m s), idctTaint := !mdctInvOk m s }

theorem mdctInvEffect_eq (i : InstNo) (m : MdctInst) (s : State) :
    mdctInvEffect i m s = mdctEnd i (mdctInvNext m s) (mdctInvOk m s) (mdctBlockOut m s) s := rfl

/-- Settles O20: the shared checks, then `mdctEnd` with the coefficients of the lapped buffer. -/
theorem mdctFwdTransformsLapped : Obligations.MdctFwdTransformsLapped := by
  unfold Obligations.MdctFwdTransformsLapped
  refine ⟨fun i => decode_of_encode_eq (cw_eq_append 2 1 i false false false), fun i s => ?_⟩
  rw [exec_mdctFwd]
  refine ⟨mdctProcess_unconfigured, fun m hm _ => ⟨fun hr => mdctProcess_operand hm hr, fun hr => ?_⟩⟩
  have hlen : (mdctCoefficients m s).length = 2 * m.b := length_dctForward ..
  rw [mdctProcess_runs hm hr, mdctFwdEffect_eq]
  refine ⟨_, mdctFwdNext m s, rfl, rfl, mdctEnd_rest, mdctEnd_sameOutside hlen, fun j => mdctEnd_mdctAt_other,
    mdctEnd_mdctAt_same, rfl, rfl, rfl, fun htaint hbuf hblk hy => ?_⟩
  have hok : mdctFwdOk m s = true := by
    simp only [mdctFwdOk, Bool.and_eq_true, Bool.not_eq_true']
    exact ⟨⟨⟨htaint, hbuf⟩, hblk⟩, hy⟩
  exact ⟨mdctEnd_memRead hlen hok, if_pos hok, congrArg Bool.not hok⟩

/-- Settles O21: the shared checks, then `mdctEnd` with the windowed sum of the lapped halves. -/
theorem mdctInvOverlapAdds : Obligations.MdctInvOverlapAdds := by
  unfold Obligations.MdctInvOverlapAdds
  refine ⟨fun i => decode_of_encode_eq (cw_eq_append 2 2 i false false false), fun i s => ?_⟩
  rw [exec_mdctInv]
  refine ⟨mdctProcess_unconfigured, fun m hm _ => ⟨fun hr => mdctProcess_operand hm hr, fun hr => ?_⟩⟩
  have hlen : (mdctBlockOut m s).length = m.b := length_vec ..
  rw [mdctProcess_runs hm hr, mdctInvEffect_eq]
  refine ⟨_, mdctInvNext m s, rfl, rfl, mdctEnd_rest, mdctEnd_sameOutside hlen, fun j => mdctEnd_mdctAt_other,
    mdctEnd_mdctAt_same, rfl, rfl, rfl, fun htaint hbuf hy hout hcarry => ?_⟩
  have hok : mdctInvOk m s = true := by
    simp only [mdctInvOk, Bool.and_eq_true, Bool.not_eq_true']
    exact ⟨⟨⟨⟨htaint, hbuf⟩, hy⟩, hout⟩, hcarry⟩
  exact ⟨mdctEnd_memRead hlen hok, if_pos hok, congrArg Bool.not hok⟩

end Sys2Proof.Machine
end

