-- ==== Sys2Proof/Proofs/MdctReconstruction.lean ====
section
/-! The MDCT chain over the reals (rule R197): the inverse transform gives back the lapped buffer, and the two windowed copies of
a block add up to it. -/
namespace Sys2Proof.Machine
open Sys2Proof.Stated

section
variable (wm : Nat → Nat → ℝ)

/-- The inverse transform of the coefficients of two blocks gives back the two blocks. -/
theorem dctInverse_dctForward_append (d : Nat) {u v : List ℝ} (hu : u.length = 2 ^ d) (hv : v.length = 2 ^ d) :
    dctInverse (realNumerics wm) (2 * 2 ^ d) (dctForward (realNumerics wm) (2 * 2 ^ d) (u ++ v)) = u ++ v := by
  have hlen : (u ++ v).length = 2 ^ (d + 1) := by rw [List.length_append, hu, hv, ← two_mul, Nat.pow_succ']
  rw [← Nat.pow_succ']
  exact realInverseUndoesForward wm d _ hlen

variable {b j : Nat} {u v : List ℝ}

/-- The carry left by two blocks is the second one, weighted by the trailing half of the window. -/
theorem getD_mdctCarry_append_real (hu : u.length = b) (hj : j < b) :
    (mdctCarry (realNumerics wm) b (u ++ v)).getD j 0 = wm b (b + j) * v.getD j 0 := by
  have htrailing : (u ++ v).getD (b + j) 0 = v.getD j 0 := by
    rw [List.getD_append_right _ _ _ _ (by omega), hu, Nat.add_sub_cancel_left]
  rw [mdctCarry, getD_vec_of_lt _ _ hj, ← htrailing]
  rfl

/-- The block given back is the first of the two, weighted by the leading half of the window, plus the carry. -/
theorem mdctOut_append_real (hu : u.length = b) (carry : List ℝ) :
    mdctOut (realNumerics wm) b (u ++ v) carry = vec b fun j => wm b j * u.getD j 0 + carry.getD j 0 :=
  vec_congr fun j hj => by
    rw [← List.getD_append u v 0 j (hu.symm ▸ hj)]
    rfl

end

/-- Settles O53: `x0` stands first in the lapped buffer of one call and second in that of the call before, so that the two halves
of the window weight the same block. -/
theorem realMdctReconstructs : Obligations.RealMdctReconstructs := by
  unfold Obligations.RealMdctReconstructs
  intro wm d w x0 x1 b N hw h0 h1 hwindow carry
  have hcarry : carry = mdctCarry N b (w ++ x0) :=
    congrArg (mdctCarry N b) (dctInverse_dctForward_append wm d hw h0)
  calc mdctOut N b (dctInverse N (2 * b) (dctForward N (2 * b) (x0 ++ x1))) carry
      = mdctOut N b (x0 ++ x1) carry := congrArg (mdctOut N b · carry) (dctInverse_dctForward_append wm d h0 h1)
    _ = vec b fun j => wm b j * x0.getD j 0 + carry.getD j 0 := mdctOut_append_real wm h0 carry
    _ = vec b fun j => x0.getD j 0 := vec_congr fun j hj => by
        rw [hcarry, getD_mdctCarry_append_real wm hw hj, ← add_mul, hwindow j hj, one_mul]
    _ = x0 := by rw [← h0, ← eq_vec]

end Sys2Proof.Machine
end

