-- ==== Sys2Proof/Proofs/Exceptions.lean ====
section
/-! The errors of a command (60_exceptions.md): the one raised is that of the first check that fails (rule R218), and it leaves
everything but `STATUS` as it was (rule R219); an illegal word, and the block at rest (rules R213, R232). -/
namespace Sys2Proof.Machine
open Sys2Proof.Stated

/-! ### The ends of a command -/

/-- A command that passed its checks ends with `OK`, or with `ERR_INNER` if it calls an inner processor (rules R211, R216). -/
def Executed (i : Instr) (t : State) : Prop :=
  statusCode t.status = okCode ∨ (statusCode t.status = innerCode ∧ (i = .segProc ∨ ∃ j, i = .olaProc j))

/-- What the command `i` issued in `s` can end in, by its first failing check. -/
inductive CommandEnd (i : Instr) (s : State) : State → Prop
  | refused (e : Err) (hfirst : firstError i s = some e.code) : CommandEnd i s (s.raise e)
  | executed {t : State} (hfirst : firstError i s = none) (ht : Executed i t) : CommandEnd i s t

theorem executed_complete (i : Instr) (s : State) : Executed i s.complete := .inl (statusCode_statusWord _ _)

theorem executed_olaEffect (i : InstNo) (o : OlaInst) (s : State) : Executed (.olaProc i) (olaEffect i o s) := by
  cases h : (procCall i o s).res with
  | ok m =>
    rw [olaEffect_ok h]
    exact executed_complete _ _
  | err d =>
    rw [olaEffect_err h]
    exact .inr ⟨statusCode_statusWord _ _, .inr ⟨i, rfl⟩⟩

theorem executed_segEffect (g : SegInst) (p : Nat) (s : State) : Executed .segProc (segEffect g p s) := by
  obtain ⟨-, he⟩ | ⟨c, d, -, -, he⟩ := segEffect_cases g p s <;> rw [he]
  · exact executed_complete _ _
  · exact .inr ⟨statusCode_statusWord _ _, .inl rfl⟩

/-! ### The checks of a construction command -/

section
variable {i : Instr} {s t : State}

/-- A check of the machine that fails, in the words of the rule. -/
theorem not_of_check_false {check : Bool} {good : Prop} (h : check = true ↔ good) (hc : check = false) : ¬ good :=
  mt h.2 (Bool.eq_false_iff.1 hc)

theorem execDctCfg_end {j : InstNo} (h : execDctCfg j s = .next t) : CommandEnd (.dctCfg j) s t := by
  obtain ⟨hlen, rfl⟩ | ⟨hlen, rfl⟩ := execDctCfg_cases h
  · exact .executed (if_pos ((dctLengthOk_iff _ _).1 hlen)) (executed_complete _ _)
  · exact .refused .config (if_neg (not_of_check_false (dctLengthOk_iff _ _) hlen))

theorem execMdctCfg_end {j : InstNo} (h : execMdctCfg j s = .next t) : CommandEnd (.mdctCfg j) s t := by
  obtain ⟨hsize, rfl⟩ | ⟨hsize, rfl⟩ := execMdctCfg_cases h
  · exact .executed (if_pos ((blockSizeOk_iff _ _).1 hsize)) (executed_complete _ _)
  · exact .refused .config (if_neg (not_of_check_false (blockSizeOk_iff _ _) hsize))

theorem execSegCfgExt_end (h : execSegCfgExt s = .next t) : CommandEnd .segCfgExt s t := by
  obtain ⟨hsize, rfl⟩ | ⟨hsize, rfl⟩ := execSegCfgExt_cases h
  · exact .executed (if_pos ((segSizeOk_iff _ _ _).1 hsize)) (executed_complete _ _)
  · exact .refused .config (if_neg (not_of_check_false (segSizeOk_iff _ _ _) hsize))

/-- A construction with a window: the configuration is checked first, then the range of the window. -/
theorem CommandEnd.of_windowed {check : Bool} {good : Prop} [Decidable good] {built : State} (hcheck : check = true ↔ good)
    (h : (check = true ∧ windowRangeOk s s.len = true ∧ t = built) ∨ (check = false ∧ t = s.raise .config) ∨
      (check = true ∧ windowRangeOk s s.len = false ∧ t = s.raise .operand))
    (hfirst : firstError i s =
      if ¬ good then some 3 else if s.ptr0 + 2 * s.len ≤ s.cfg.hmsize then none else some 6)
    (hbuilt : Executed i built) : CommandEnd i s t := by
  obtain ⟨hgood, hwin, rfl⟩ | ⟨hbad, rfl⟩ | ⟨hgood, hwin, rfl⟩ := h
  · rw [if_neg (not_not.2 (hcheck.1 hgood)), if_pos ((windowRangeOk_iff _ _).1 hwin)] at hfirst
    exact .executed hfirst hbuilt
  · rw [if_pos (not_of_check_false hcheck hbad)] at hfirst
    exact .refused .config hfirst
  · rw [if_neg (not_not.2 (hcheck.1 hgood)), if_neg (not_of_check_false (windowRangeOk_iff _ _) hwin)] at hfirst
    exact .refused .operand hfirst

open Classical in
theorem execOlaCfg_end {j : InstNo} {pre post : Bool} (h : execOlaCfg j pre post s = .next t) :
    CommandEnd (.olaCfg j pre post) s t :=
  .of_windowed (blockSizeOk_iff _ _) (execOlaCfg_cases h) rfl (executed_complete _ _)

open Classical in
theorem execSegCfgOla_end {pre post : Bool} (h : execSegCfgOla pre post s = .next t) :
    CommandEnd (.segCfgOla pre post) s t := by
  have hcases := execSegCfgOla_cases h
  simp only [← and_assoc (a := segSizeOk _ _ _ = true), ← Bool.and_eq_true] at hcases
  exact .of_windowed (segCfgOlaSizeOk_iff _ _ _) hcases rfl (executed_complete _ _)

/-! ### The checks of a processing command -/

/-- The error of a command on one instance: the instance is to be `CONFIGURED`, then its operands are checked. -/
def slotError {α : Type} (good : α → Prop) [DecidablePred good] : Slot α → Option (BitVec 8)
  | .configured x => if good x then none else some 6
  | _ => some 5

/-- A command on one instance, from what its checks decide. -/
theorem CommandEnd.of_slot {α : Type} {x : Slot α} {check : α → Bool} {good : α → Prop} [DecidablePred good]
    {effect : α → State} (hcheck : ∀ a, check a = true ↔ good a)
    (h : (∃ a, x = .configured a ∧ check a = true ∧ t = effect a) ∨
      (∃ a, x = .configured a ∧ check a = false ∧ t = s.raise .operand) ∨
      ((∀ a, x ≠ .configured a) ∧ t = s.raise .state))
    (hfirst : firstError i s = slotError good x) (hrun : ∀ a, Executed i (effect a)) : CommandEnd i s t := by
  obtain ⟨a, rfl, hgood, rfl⟩ | ⟨a, rfl, hbad, rfl⟩ | ⟨hx, rfl⟩ := h
  · exact .executed (hfirst.trans (if_pos ((hcheck a).1 hgood))) (hrun a)
  · exact .refused .operand (hfirst.trans (if_neg (not_of_check_false (hcheck a) hbad)))
  · refine .refused .state (hfirst.trans ?_)
    cases x with
    | configured a => exact absurd rfl (hx a)
    | unconfigured | faulted => rfl

open Classical in
theorem dctProcess_end {f : Nat → List Word → List Word} {j : InstNo} (h : dctProcess f j s = .next t)
    (hfirst : firstError i s = slotError (fun d => RangesGood s d.n d.n) (s.dctAt j)) : CommandEnd i s t :=
  .of_slot (fun _ => dctRangesOk_iff_rangesGood s _) (dctProcess_cases h) hfirst fun _ => executed_complete _ _

open Classical in
theorem execDctFwd_end {j : InstNo} (h : execDctFwd j s = .next t) : CommandEnd (.dctFwd j) s t :=
  dctProcess_end h (by cases hd : s.dctAt j <;> simp only [firstError, slotError, hd])

open Classical in
theorem execDctInv_end {j : InstNo} (h : execDctInv j s = .next t) : CommandEnd (.dctInv j) s t :=
  dctProcess_end h (by cases hd : s.dctAt j <;> simp only [firstError, slotError, hd])

open Classical in
theorem execMdctFwd_end {j : InstNo} (h : execMdctFwd j s = .next t) : CommandEnd (.mdctFwd j) s t :=
  .of_slot (good := fun m : MdctInst => RangesGood s m.b (2 * m.b)) (fun _ => mdctRangesOk_iff ..)
    (execMdctFwd_cases h) (by cases hm : s.mdctAt j <;> simp only [firstError, slotError, hm]) fun _ => executed_complete _ _

open Classical in
theorem execMdctInv_end {j : InstNo} (h : execMdctInv j s = .next t) : CommandEnd (.mdctInv j) s t :=
  .of_slot (good := fun m : MdctInst => RangesGood s (2 * m.b) m.b) (fun _ => mdctRangesOk_iff ..)
    (execMdctInv_cases h) (by cases hm : s.mdctAt j <;> simp only [firstError, slotError, hm]) fun _ => executed_complete _ _

theorem execOlaProc_end {j : InstNo} (h : execOlaProc j s = .next t) : CommandEnd (.olaProc j) s t :=
  .of_slot (check := fun o : OlaInst => decide (s.ptr0 + o.b ≤ s.cfg.hmsize)) (fun _ => decide_eq_true_iff)
    (by simpa only [decide_eq_true_eq, decide_eq_false_iff_not, Nat.not_le] using execOlaProc_cases h)
    (by cases ho : s.olaAt j <;> simp only [firstError, slotError, ho]) fun o => executed_olaEffect j o s

open Classical in
/-- The checks of `SEG.PROC` on a configured segmenter (rule R121). -/
theorem firstError_segProc {g : SegInst} (hg : s.seg = .configured g) :
    firstError .segProc s =
      if s.nch = 0 then some 1
      else if ¬ RowsGood s (s.procChans g) then some 6
      else if ¬ WrappersGood s g (s.procChans g) then some 5
      else none := by
  simp only [firstError, hg]
  rfl

open Classical in
theorem execSegProc_end (h : execSegProc s = .next t) : CommandEnd .segProc s t := by
  obtain ⟨g, hg, hn, hrows, hw, rfl⟩ | ⟨g, hg, hn, rfl⟩ | ⟨g, hg, hn, hrows, rfl⟩ | ⟨g, hg, hn, hrows, hw, rfl⟩ |
    ⟨hs, rfl⟩ := execSegProc_cases h
  · refine .executed ?_ (executed_segEffect _ _ _)
    rw [rowsOk_iff_rowsGood] at hrows
    rw [wrappersOk_iff_wrappersGood] at hw
    rw [firstError_segProc hg, if_neg hn, if_neg (not_not.2 hrows), if_neg (not_not.2 hw)]
  · exact .refused .noChannels (by rw [firstError_segProc hg, if_pos hn]; rfl)
  · have hbad := not_of_check_false (rowsOk_iff_rowsGood _ _) hrows
    exact .refused .operand (by rw [firstError_segProc hg, if_neg hn, if_pos hbad]; rfl)
  · rw [rowsOk_iff_rowsGood] at hrows
    have hbad := not_of_check_false (wrappersOk_iff_wrappersGood _ _ _) hw
    exact .refused .state (by rw [firstError_segProc hg, if_neg hn, if_neg (not_not.2 hrows), if_pos hbad]; rfl)
  · refine .refused .state ?_
    cases hg : s.seg with
    | configured g => exact absurd hg (hs g)
    | unconfigured | faulted => simp only [firstError, hg]; rfl

end

/-- Every command ends as its first failing check says. -/
theorem exec_end {i : Instr} {s t : State} (h : exec i s = .next t) : CommandEnd i s t := by
  cases i with
  | sysReset => exact execSysReset_cases h ▸ .executed rfl (.inl rfl)
  | dctCfg j => exact execDctCfg_end h
  | dctFwd j => exact execDctFwd_end h
  | dctInv j => exact execDctInv_end h
  | mdctCfg j => exact execMdctCfg_end h
  | mdctFwd j => exact execMdctFwd_end h
  | mdctInv j => exact execMdctInv_end h
  | olaCfg j pre post => exact execOlaCfg_end h
  | olaProc j => exact execOlaProc_end h
  | segCfgExt => exact execSegCfgExt_end h
  | segCfgOla pre post => exact execSegCfgOla_end h
  | segProc => exact execSegProc_end h

/-! ### The statements about all commands -/

/-- Settles O33: a refused command has the code of its first error, an executed one that of `Executed`. -/
theorem checksAreInOrder : Obligations.ChecksAreInOrder := by
  unfold Obligations.ChecksAreInOrder
  intro i s
  obtain ⟨t, ht⟩ := exec_next i s
  refine ⟨t, ht, ?_⟩
  cases exec_end ht with
  | refused e hfirst =>
    rw [hfirst]
    exact statusCode_statusWord _ _
  | executed hfirst hcode =>
    rw [hfirst]
    exact hcode

/-- Settles O34: a command with such a code was refused, and `State.raise` changes `STATUS` only. -/
theorem errorsBeforeExecutionArePrecise : Obligations.ErrorsBeforeExecutionArePrecise := by
  unfold Obligations.ErrorsBeforeExecutionArePrecise
  intro i s t h hok hinner
  cases exec_end h with
  | refused e hfirst => rfl
  | executed hfirst hcode =>
    obtain hcode | ⟨hcode, -⟩ := hcode
    · exact absurd hcode hok
    · exact absurd hcode hinner

/-! ### Steps that execute no command -/

theorem step_of_illegal {s : State} {rest : List HostAction} {w : Word} {e : Reject}
    (hp : s.pending = .regWrite 0 w :: rest) (hw : classify s.cfg.ninst w = .error e) :
    step s = .next (((s.setPending rest).setTick (s.tick + 1)).raise .illegalCmd) := by
  simp only [step, fetch, hp, hostAct, cmdOffset, if_true, State.setTick_cfg, State.setPending_cfg, State.setPending_tick, hw,
    illegalCommand]

/-- Settles O7: `step_of_illegal`, and the one field that `raise` changes. -/
theorem illegalWordSetsStatusOnly : Obligations.IllegalWordSetsStatusOnly := by
  unfold Obligations.IllegalWordSetsStatusOnly
  intro s w rest e hp hw
  rw [step_of_illegal hp hw, State.raise_illegalCmd]
  rfl

/-- Settles O10: `step_idle`. -/
theorem idleChangesNothing : Obligations.IdleChangesNothing := by
  unfold Obligations.IdleChangesNothing
  exact fun _ => step_idle

end Sys2Proof.Machine
end

