-- ==== Sys2Proof/Proofs/VectorWords.lean ====
section
/-! The command words of the test vectors (95_test_vectors.md V18): each is the encoder's word of its command, so the decoder reads
that command from it; a word that matches no row of table T84 is illegal (rule R87). -/
namespace Sys2Proof.Machine

theorem decode_eq_noRow {w : Word} (h : ∀ r ∈ opTable, r.accepts w = false) : decode w = .error .noRow := by
  have hfind : opTable.find? (fun r => r.accepts w) = none :=
    List.find?_eq_none.2 fun r hr => Bool.eq_false_iff.1 (h r hr)
  rw [decode, hfind]

/-- Settles O5: the words are those of `encode`, which `decode` inverts, and no row of table T84 matches the all-zero word. -/
theorem wordsOfTheVectorsDecode : Obligations.WordsOfTheVectorsDecode := by
  unfold Obligations.WordsOfTheVectorsDecode
  have hzero : ∀ r ∈ opTable, r.accepts 0x00000000#32 = false := by decide
  exact ⟨decode_of_encode_eq rfl, decode_of_encode_eq rfl, decode_of_encode_eq rfl, decode_of_encode_eq rfl,
    decode_of_encode_eq rfl, decode_of_encode_eq rfl, decode_of_encode_eq rfl, decode_of_encode_eq rfl,
    decode_of_encode_eq rfl, decode_of_encode_eq rfl, decode_of_encode_eq rfl, decode_eq_noRow hzero⟩

end Sys2Proof.Machine
end
